-- ==== Sys2Proof/Word.lean ====
section
/-! DEFINITION. The word types of SYNTH-DSP: a register or sample-RAM word, the binary64 pattern such a word may be read
as, and the command word. -/

namespace Sys2Proof

/-- A 64-bit word of the host port or of the sample RAM (20_memory.md R71, R74). -/
abbrev Word := BitVec 64

/-- An f64 as its IEEE 754 binary64 encoding: sign in bit 63, exponent in bits 62 to 52, fraction in bits 51 to 0
(20_memory.md R70). So `bits64` and `asF64` of 00_scope.md R10 are the identity. -/
abbrev F64 := BitVec 64

/-- A 32-bit command word (30_encoding.md R90). -/
abbrev CmdWord := BitVec 32

end Sys2Proof
end

