-- ==== Sys2Proof/Config.lean ====
section
/-! DEFINITION. What this implementation fixes (00_scope.md R7) and the free values: what the spec leaves open is an
opaque constant here, with no body, so that nothing can be proved of its values. -/

namespace Sys2Proof.Config

/-- Number of voice slots (00_scope.md R7). -/
abbrev NV : Nat := 8

/-- Filter stages per voice (00_scope.md R7). -/
abbrev NS : Nat := 2

/-- Size of the sample RAM in 64-bit words (00_scope.md R7). -/
abbrev RAM_WORDS : Nat := 65536

/-- The ID register (10_state.md R23). -/
def ID : Word := 0x0053594E54485253#64

/-- The CAPS register (10_state.md R24). -/
def CAPS : Word := 0x0000000001100208#64

/-- FS after reset (00_scope.md R7). -/
def FS_DEFAULT : BitVec 32 := 44100#32

/-- BITS after reset (00_scope.md R7). -/
def BITS_DEFAULT : BitVec 8 := 16#8

/-- The binary64 number nearest 2 pi (00_scope.md R14). -/
def TWO_PI : F64 := 0x401921FB54442D18#64

/-- The operations whose result can be a NaN no rule gives an encoding for (00_scope.md R10; `phase` is the NaN of
40_generator.md R120). -/
inductive FloatOp where
  | add | sub | mul | div | phase
  deriving DecidableEq, Repr

/-- The unit that performs an operation: a voice's generator, a filter stage, the mixer, or a command outside the sample
step. -/
inductive Site where
  | generator (v : Fin NV)
  | stage (v : Fin NV) (st : Fin NS)
  | mixer
  | command
  deriving DecidableEq, Repr

/-- Where and when an operation is performed: the unit, and the model's counter of free values. -/
structure At where
  tick : Nat
  site : Site
  deriving DecidableEq, Repr

/-- Everything the encoding of a NaN result may depend on. -/
structure NanKey where
  place : At
  op : FloatOp
  a : F64
  b : F64
  deriving DecidableEq, Repr

/-- FREE VALUE: the bits a NaN result is made from (00_scope.md R10: "a model may return any NaN"); log entry 2. -/
opaque nanBits : NanKey → Word

/-- FREE VALUE: the sample-RAM word at an address after the given number of power-on resets (20_memory.md R71,
RAM_INIT); log entry 5. -/
opaque ramInit : Nat → Nat → Word

/-- OPEN PARAMETER: the sine unit before the constraints of 00_scope.md R15 are imposed; log entry 4. -/
opaque sinRaw : F64 → F64

/-- OPEN PARAMETER: the cosine unit before the constraints of 00_scope.md R15 are imposed; log entry 4. -/
opaque cosRaw : F64 → F64

end Sys2Proof.Config
end

