-- ==== Sys2Proof/Syntax.lean ====
section
/-! DEFINITION. The commands of SYNTH-DSP, one constructor for each row of spec/opcode_table.json (30_encoding.md R94).
`v` is the voice field (4 bits), `st` the stage field (2 bits), `n` the count imm20 (30_encoding.md R91). -/

namespace Sys2Proof

inductive Instr where
  | nop
  | srst
  | start
  | step (n : BitVec 20)
  | ramrd
  | ramwr
  | oscOff (v : BitVec 4)
  | oscSine (v : BitVec 4)
  | oscSquare (v : BitVec 4)
  | oscTriangle (v : BitVec 4)
  | oscSawtooth (v : BitVec 4)
  | oscKs (v : BitVec 4)
  | setFreq (v : BitVec 4)
  | setGain (v : BitVec 4)
  | rdVoice (v : BitVec 4)
  | bypass (v : BitVec 4) (st : BitVec 2)
  | bqLpf (v : BitVec 4) (st : BitVec 2)
  | bqHpf (v : BitVec 4) (st : BitVec 2)
  | bqBpf (v : BitVec 4) (st : BitVec 2)
  | bqBrf (v : BitVec 4) (st : BitVec 2)
  | bqApf (v : BitVec 4) (st : BitVec 2)
  | comb (v : BitVec 4) (st : BitVec 2)
  | delay (v : BitVec 4) (st : BitVec 2)
  | clrSt (v : BitVec 4) (st : BitVec 2)
  | rdCoef (v : BitVec 4) (st : BitVec 2)
  | rdState (v : BitVec 4) (st : BitVec 2)
  deriving DecidableEq, Repr

end Sys2Proof
end

