-- ==== Sys2Proof/WellFormed.lean ====
section
/-! DEFINITION. Which command terms are commands of this hardware: the voice index is below NV and the stage index below
NS (30_encoding.md R97). -/

namespace Sys2Proof

/-- The voice index names a voice slot. -/
abbrev voiceFieldOk (v : BitVec 4) : Prop := v.toNat < Config.NV

/-- The stage index names a stage of a voice. -/
abbrev stageFieldOk (st : BitVec 2) : Prop := st.toNat < Config.NS

/-- The index checks of 30_encoding.md R96 hold for the command's fields, as a Bool. -/
def wellFormedB : Instr → Bool
  | .nop | .srst | .start | .step _ | .ramrd | .ramwr => true
  | .oscOff v | .oscSine v | .oscSquare v | .oscTriangle v | .oscSawtooth v | .oscKs v
  | .setFreq v | .setGain v | .rdVoice v => decide (voiceFieldOk v)
  | .bypass v st | .bqLpf v st | .bqHpf v st | .bqBpf v st | .bqBrf v st | .bqApf v st
  | .comb v st | .delay v st | .clrSt v st | .rdCoef v st | .rdState v st =>
    decide (voiceFieldOk v) && decide (stageFieldOk st)

/-- A well-formed command: one that some legal command word stands for. -/
abbrev WellFormed (i : Instr) : Prop := wellFormedB i = true

end Sys2Proof
end

