-- ==== Sys2Proof/Decode.lean ====
section
/-! DEFINITION. Decoding a 64-bit CMD write (30_encoding.md R96), total, rejecting by name; and the encoder
(30_encoding.md R94). -/

namespace Sys2Proof

/-- Which check of 30_encoding.md R96 refuses a CMD write. Each makes the block raise IllegalCommand (R97). -/
inductive DecodeError where
  /-- Bits 63 to 32 of the write are not 0. -/
  | upperBits
  /-- The op field is not in the opcode map. -/
  | undefinedOpcode
  /-- A field the format does not use is not 0. -/
  | reservedField
  /-- The voice index is NV or more. -/
  | voiceIndex
  /-- The stage index is NS or more. -/
  | stageIndex
  deriving DecidableEq, Repr

/-- The four formats (30_encoding.md R92). -/
inductive Format where
  | Z | V | VS | I
  deriving DecidableEq, Repr

/-- The bits a format fixes (30_encoding.md R92). -/
def formatMask : Format → CmdWord
  | .Z => 0xFFFFFFFF#32
  | .V => 0xFC3FFFFF#32
  | .VS => 0xFC0FFFFF#32
  | .I => 0xFFF00000#32

/-- The fields of a command word (30_encoding.md R91). -/
def opField (w : CmdWord) : BitVec 6 := w.extractLsb' 26 6

def voiceField (w : CmdWord) : BitVec 4 := w.extractLsb' 22 4

def stageField (w : CmdWord) : BitVec 2 := w.extractLsb' 20 2

def countField (w : CmdWord) : BitVec 20 := w.extractLsb' 0 20

/-- A row of the opcode map: the format, and the command its fields make. -/
structure OpRow where
  format : Format
  make : BitVec 4 → BitVec 2 → BitVec 20 → Instr

def zRow (i : Instr) : OpRow := ⟨.Z, fun _ _ _ => i⟩

def vRow (mk : BitVec 4 → Instr) : OpRow := ⟨.V, fun v _ _ => mk v⟩

def vsRow (mk : BitVec 4 → BitVec 2 → Instr) : OpRow := ⟨.VS, fun v st _ => mk v st⟩

def iRow (mk : BitVec 20 → Instr) : OpRow := ⟨.I, fun _ _ n => mk n⟩

/-- The opcode map (30_encoding.md R94); every op value not listed is undefined (R97). -/
def opRow (op : BitVec 6) : Option OpRow :=
  match op.toNat with
  | 0x00 => some (zRow .nop)
  | 0x01 => some (zRow .srst)
  | 0x02 => some (zRow .start)
  | 0x03 => some (iRow .step)
  | 0x04 => some (zRow .ramrd)
  | 0x05 => some (zRow .ramwr)
  | 0x08 => some (vRow .oscOff)
  | 0x09 => some (vRow .oscSine)
  | 0x0A => some (vRow .oscSquare)
  | 0x0B => some (vRow .oscTriangle)
  | 0x0C => some (vRow .oscSawtooth)
  | 0x0D => some (vRow .oscKs)
  | 0x0E => some (vRow .setFreq)
  | 0x0F => some (vRow .setGain)
  | 0x10 => some (vRow .rdVoice)
  | 0x18 => some (vsRow .bypass)
  | 0x19 => some (vsRow .bqLpf)
  | 0x1A => some (vsRow .bqHpf)
  | 0x1B => some (vsRow .bqBpf)
  | 0x1C => some (vsRow .bqBrf)
  | 0x1D => some (vsRow .bqApf)
  | 0x1E => some (vsRow .comb)
  | 0x1F => some (vsRow .delay)
  | 0x20 => some (vsRow .clrSt)
  | 0x21 => some (vsRow .rdCoef)
  | 0x22 => some (vsRow .rdState)
  | _ => none

/-- The formats that carry a voice index, and those that carry a stage index (30_encoding.md R96). -/
def usesVoice (f : Format) : Bool := f = .V || f = .VS

def usesStage (f : Format) : Bool := f = .VS

/-- A word fits a format for its own op when the bits the format fixes are those of the op alone (30_encoding.md R92:
match is op << 26). -/
def fitsFormat (f : Format) (w : CmdWord) : Bool :=
  (w &&& formatMask f) == (opField w ++ 0#26)

/-- The checks of 30_encoding.md R96 on the 32-bit word, in the order written. -/
def decodeWord (w : CmdWord) : Except DecodeError Instr :=
  match opRow (opField w) with
  | none => .error .undefinedOpcode
  | some row =>
    if fitsFormat row.format w = false then .error .reservedField
    else if usesVoice row.format = true ∧ Config.NV ≤ (voiceField w).toNat then .error .voiceIndex
    else if usesStage row.format = true ∧ Config.NS ≤ (stageField w).toNat then .error .stageIndex
    else .ok (row.make (voiceField w) (stageField w) (countField w))

/-- The low half of a CMD write: the command word (10_state.md R25). -/
def lowWord (x : Word) : CmdWord := x.setWidth 32

/-- Decode of a CMD write value (30_encoding.md R96). -/
def decode (x : Word) : Except DecodeError Instr :=
  if x.extractLsb' 32 32 ≠ 0#32 then .error .upperBits else decodeWord (lowWord x)

/-- The instruction the decoder reads from a row of the opcode table: the word's bits above `nbits` are 0. -/
def decodeTableWord (nbits w : Nat) : Option Instr :=
  match decode (BitVec.ofNat 64 (w % 2 ^ nbits)) with
  | .ok i => some i
  | .error _ => none

/-- `op << 26 | v << 22 | s << 20 | imm20` (30_encoding.md R94). -/
def assemble (op : BitVec 6) (v : BitVec 4) (st : BitVec 2) (n : BitVec 20) : CmdWord := op ++ v ++ st ++ n

/-- The command word of a command (30_encoding.md R94). -/
def encode : Instr → CmdWord
  | .nop => assemble 0x00#6 0#4 0#2 0#20
  | .srst => assemble 0x01#6 0#4 0#2 0#20
  | .start => assemble 0x02#6 0#4 0#2 0#20
  | .step n => assemble 0x03#6 0#4 0#2 n
  | .ramrd => assemble 0x04#6 0#4 0#2 0#20
  | .ramwr => assemble 0x05#6 0#4 0#2 0#20
  | .oscOff v => assemble 0x08#6 v 0#2 0#20
  | .oscSine v => assemble 0x09#6 v 0#2 0#20
  | .oscSquare v => assemble 0x0A#6 v 0#2 0#20
  | .oscTriangle v => assemble 0x0B#6 v 0#2 0#20
  | .oscSawtooth v => assemble 0x0C#6 v 0#2 0#20
  | .oscKs v => assemble 0x0D#6 v 0#2 0#20
  | .setFreq v => assemble 0x0E#6 v 0#2 0#20
  | .setGain v => assemble 0x0F#6 v 0#2 0#20
  | .rdVoice v => assemble 0x10#6 v 0#2 0#20
  | .bypass v st => assemble 0x18#6 v st 0#20
  | .bqLpf v st => assemble 0x19#6 v st 0#20
  | .bqHpf v st => assemble 0x1A#6 v st 0#20
  | .bqBpf v st => assemble 0x1B#6 v st 0#20
  | .bqBrf v st => assemble 0x1C#6 v st 0#20
  | .bqApf v st => assemble 0x1D#6 v st 0#20
  | .comb v st => assemble 0x1E#6 v st 0#20
  | .delay v st => assemble 0x1F#6 v st 0#20
  | .clrSt v st => assemble 0x20#6 v st 0#20
  | .rdCoef v st => assemble 0x21#6 v st 0#20
  | .rdState v st => assemble 0x22#6 v st 0#20

end Sys2Proof
end

