-- ==== Sys2Proof/Machine/State.lean ====
section
/-! DEFINITION. The state of SYNTH-DSP (10_state.md R20), plain data, with its value right after reset
(70_reset_and_hazards.md R340), and the reasons a step can stop. -/

namespace Sys2Proof.Machine

/-- STATUS.STATE (10_state.md R26). -/
inductive RunState where
  | idle | running | done | aborted
  deriving DecidableEq, Repr

/-- The error codes of 60_exceptions.md R301. `malformedEventStream` is reserved: no rule raises it. -/
inductive ErrorCode where
  | invalidParameter | malformedEventStream | numericOverflow | illegalCommand | stateError | addressError
  deriving DecidableEq, Repr

/-- Voice kinds (10_state.md R41). -/
inductive VoiceKind where
  | off | sine | square | triangle | sawtooth | ks
  deriving DecidableEq, Repr

/-- Stage kinds (10_state.md R45). -/
inductive StageKind where
  | bypass | lpf | hpf | bpf | brf | apf | comb | delay
  deriving DecidableEq, Repr

/-- A voice record (10_state.md R40). -/
structure Voice where
  kind : VoiceKind
  freq : F64
  gain : F64
  decay : F64
  base : BitVec 32
  len : BitVec 32
  ptr : BitVec 32
  fsLat : BitVec 32
  deriving DecidableEq, Repr

/-- A stage record (10_state.md R44). -/
structure Stage where
  kind : StageKind
  c0 : F64
  c1 : F64
  c2 : F64
  c3 : F64
  c4 : F64
  x1 : F64
  x2 : F64
  y1 : F64
  y2 : F64
  g : F64
  n : BitVec 32
  base : BitVec 32
  w : BitVec 32
  fsLat : BitVec 32
  deriving DecidableEq, Repr

/-- A voice record after reset (10_state.md R40: the gain is 1.0). -/
def resetVoice : Voice :=
  { kind := .off, freq := 0, gain := 0x3FF0000000000000#64, decay := 0, base := 0, len := 0, ptr := 0, fsLat := 0 }

/-- A stage record after reset (10_state.md R44), which is also a bypassed stage (43_stage_control.md R190). -/
def resetStage : Stage :=
  { kind := .bypass, c0 := 0, c1 := 0, c2 := 0, c3 := 0, c4 := 0, x1 := 0, x2 := 0, y1 := 0, y2 := 0, g := 0,
    n := 0, base := 0, w := 0, fsLat := 0 }

/-- A unit that may own a region of sample RAM: a voice (Karplus-Strong) or a stage (comb, delay) (10_state.md R48). -/
inductive UnitId where
  | voice (v : Fin Config.NV)
  | stage (v : Fin Config.NV) (st : Fin Config.NS)
  deriving DecidableEq, Repr

/-- A cell of the sample RAM: a word address and the word stored there (20_memory.md R71). -/
abbrev MemCell := Nat × Word

/-- The sample RAM: the words written since power-on, addresses strictly rising. An address not listed has not been
written, and reading it draws the free value `Config.ramInit` (20_memory.md R71; log entries 5 and 11). -/
abbrev Memory := List MemCell

/-- A transaction on the host port: one 64-bit read or write. The port carries bits 11 to 3 of the byte offset
(20_memory.md R74), so `off` is the register's number. -/
inductive HostTxn where
  | read (off : BitVec 9)
  | write (off : BitVec 9) (data : Word)
  deriving DecidableEq, Repr

/-- The state of the block (10_state.md R20), and the model's own fields for the environment and the free values. -/
structure State where
  /-- P0..P7 (10_state.md R21). -/
  p : Vector Word 8
  /-- STATUS.STATE (10_state.md R26). -/
  runState : RunState
  /-- STATUS.ERR, `none` for code 0 (10_state.md R26). -/
  err : Option ErrorCode
  /-- STATUS.ERR_OVF (10_state.md R26). -/
  errOvf : Bool
  /-- ERRINFO bits 31 to 0 (10_state.md R27). -/
  errInfo : CmdWord
  /-- IRQ_EN bits 2 to 0 (10_state.md R28). -/
  irqEn : BitVec 3
  /-- IRQ_PEND bits 2 to 0 (10_state.md R29). -/
  irqPend : BitVec 3
  /-- The level the IRQ output keeps while a STEP has not completed, because the sink has not taken every word it emitted
  (60_exceptions.md R320, 45_pipeline.md R262; log entry 21). -/
  irqHeld : Bool
  /-- FS bits 31 to 0 (10_state.md R30). -/
  fs : BitVec 32
  /-- BITS bits 7 to 0 (10_state.md R31). -/
  bits : BitVec 8
  /-- HEADROOM (10_state.md R32). -/
  headroom : F64
  /-- LENGTH (10_state.md R33). -/
  length : BitVec 64
  /-- NOISE bits 31 to 0 (10_state.md R34). -/
  noise : BitVec 32
  /-- SAMPLE_IDX (10_state.md R35). -/
  sampleIdx : BitVec 64
  /-- PCM_LAST (10_state.md R36). -/
  pcmLast : Word
  /-- RUN_FS (10_state.md R46). -/
  runFs : BitVec 32
  /-- RUN_BITS (10_state.md R46). -/
  runBits : BitVec 8
  /-- RUN_HEADROOM (10_state.md R46). -/
  runHeadroom : F64
  /-- RUN_LENGTH (10_state.md R46). -/
  runLength : BitVec 64
  /-- The voice records (10_state.md R40). -/
  voices : Vector Voice Config.NV
  /-- The stage records, by voice and then by stage (10_state.md R44). -/
  stages : Vector (Vector Stage Config.NS) Config.NV
  /-- The sample RAM (20_memory.md R71). -/
  ram : Memory
  /-- The output stream: emitted words the sink has not taken yet, oldest first (10_state.md R47). -/
  stream : List (BitVec 32)
  /-- MODEL: words the sink has taken, oldest first (log entry 8). -/
  accepted : List (BitVec 32)
  /-- MODEL: host transactions still to come, oldest first (log entry 1). -/
  hostQueue : List HostTxn
  /-- MODEL: data of the reads the host has completed, oldest first (log entry 8). -/
  replies : List Word
  /-- MODEL: the sink's readiness at its next offers (log entry 6). -/
  sinkScript : List Bool
  /-- MODEL: the sink's readiness at every offer after `sinkScript` (log entry 6). -/
  sinkRest : Bool
  /-- MODEL: whether the reset input is asserted at each of the next steps (log entry 7). -/
  resetPin : List Bool
  /-- MODEL: the counter free NaN encodings are drawn with (log entry 3). -/
  freeTick : Nat
  /-- MODEL: power-on resets so far, the counter free RAM words are drawn with (log entry 5). -/
  powerOns : Nat
  deriving DecidableEq, Repr

/-- Why a step can stop the machine. -/
inductive Fault where
  /-- Raised by `memRead` and `memWrite` for a sample-RAM word address of RAM_WORDS or more. 20_memory.md R72: "No rule
  calls either primitive with a >= RAM_WORDS". SAFE: it can only happen in a state no run reaches (log entry 10). -/
  | noSuchRamWord (a : Nat)
  deriving DecidableEq, Repr

/-- Why the model can refuse an instruction. -/
inductive Refusal where
  /-- Answered by `exec` for an instruction with no meaning yet. SAFE. No arm of `exec` answers it. -/
  | notModelled (mnemonic : String)
  deriving DecidableEq, Repr

/-- The outcome of a command or a step. -/
abbrev Result := Host.Outcome State Fault Refusal

/-- The block after power-on reset (70_reset_and_hazards.md R340 with keep_ram false). -/
def State.reset : State :=
  { p := Vector.replicate 8 0
    runState := .idle
    err := none
    errOvf := false
    errInfo := 0
    irqEn := 0
    irqPend := 0
    irqHeld := false
    fs := Config.FS_DEFAULT
    bits := Config.BITS_DEFAULT
    headroom := 0x3FF0000000000000#64
    length := 0
    noise := 1
    sampleIdx := 0
    pcmLast := 0
    runFs := Config.FS_DEFAULT
    runBits := Config.BITS_DEFAULT
    runHeadroom := 0x3FF0000000000000#64
    runLength := 0
    voices := Vector.replicate Config.NV resetVoice
    stages := Vector.replicate Config.NV (Vector.replicate Config.NS resetStage)
    ram := []
    stream := []
    accepted := []
    hostQueue := []
    replies := []
    sinkScript := []
    sinkRest := true
    resetPin := []
    freeTick := 0
    powerOns := 0 }

end Sys2Proof.Machine
end

