-- ==== Sys2Proof/Machine/F64.lean ====
section
/-! DEFINITION. The binary64 arithmetic of 00_scope.md R10 to R15, on encodings. A finite number is an exact integer
count of the unit 2^-1074; every operation computes exactly and rounds once, to nearest with ties to even. -/

namespace Sys2Proof.Machine

/-- The sign bit (20_memory.md R70). -/
def signBit (x : F64) : Bool := x.msb

/-- Exponent and fraction fields together, as a number: it orders the magnitudes. -/
def magBits (x : F64) : Nat := x.toNat % 2 ^ 63

/-- The fraction field, bits 51 to 0 (20_memory.md R70). -/
def fracField (x : F64) : Nat := magBits x % 2 ^ 52

/-- The magnitude field of an infinity: exponent all ones, fraction 0. -/
def infBits : Nat := 0x7FF0000000000000

def isNaN (x : F64) : Bool := decide (infBits < magBits x)

def isInf (x : F64) : Bool := magBits x == infBits

/-- False for NaN and both infinities (00_scope.md R10). -/
def isFinite (x : F64) : Bool := decide (magBits x < infBits)

def isZero (x : F64) : Bool := magBits x == 0

/-- An encoding from its sign and its magnitude field. -/
def pack (neg : Bool) (mag : Nat) : F64 := BitVec.ofNat 64 ((if neg then 2 ^ 63 else 0) + mag)

/-- How many units of 2^-1074 the number 1 holds. -/
def unitsPerOne : Nat := 2 ^ 1074

/-- The magnitude a magnitude field stands for, in units of 2^-1074: a subnormal when the exponent field `m / 2^52` is 0,
else a normal number (subnormals kept, 00_scope.md R10). The field of infinity gives 2^1024, the first power of two past
the largest finite number. -/
def unitsOfMag (m : Nat) : Nat :=
  if m / 2 ^ 52 = 0 then m % 2 ^ 52 else (2 ^ 52 + m % 2 ^ 52) * 2 ^ (m / 2 ^ 52 - 1)

/-- The magnitude of a finite number in units of 2^-1074 (exact). -/
def units (x : F64) : Nat := unitsOfMag (magBits x)

/-- A finite number in units of 2^-1074, with its sign. -/
def signedUnits (x : F64) : Int := if signBit x then -(units x : Int) else (units x : Int)

/-- How far the last place of the binary64 number nearest to `p / q` units lies above the unit: 0 for a subnormal or a
number of the lowest normal binade, one more for each binade above it. -/
def ulpShift (p q : Nat) : Nat := Nat.log2 (p / q) - 52

/-- `p / d` rounded to the nearest integer, ties to even (00_scope.md R10). -/
def nearestEven (p d : Nat) : Nat :=
  if d < 2 * (p % d) ∨ (2 * (p % d) = d ∧ p / d % 2 = 1) then p / d + 1 else p / d

/-- The magnitude field of `p / q` units rounded to nearest with ties to even; a value that rounds past the largest
finite number becomes infinity. -/
def roundMag (p q : Nat) : Nat :=
  let k := ulpShift p q
  min infBits (k * 2 ^ 52 + nearestEven p (q * 2 ^ k))

/-- The one rounding of every operation: the number of magnitude `p / q` units with the given sign. -/
def roundUnits (neg : Bool) (p q : Nat) : F64 := pack neg (roundMag p q)

/-- A NaN made from free bits: any sign, any fraction but 0 (00_scope.md R10; 93_implementation_defined.md U5: "Any quiet
or signalling NaN pattern, any sign"). -/
def nanFrom (w : Word) : F64 := pack (signBit w) (infBits + (if fracField w = 0 then 1 else fracField w))

/-- The NaN an operation returns at a place: a free value (00_scope.md R10). -/
def nanAt (c : Config.At) (op : Config.FloatOp) (a b : F64) : F64 := nanFrom (Config.nanBits ⟨c, op, a, b⟩)

/-- The sign of a product or a quotient. -/
def signXor (a b : F64) : Bool := signBit a != signBit b

/-- Negation: the sign bit alone changes (41_biquad.md R144, R145). -/
def fNeg (x : F64) : F64 := x ^^^ 0x8000000000000000#64

/-- `abs(x)` clears the sign (00_scope.md R10). -/
def fAbs (x : F64) : F64 := x &&& 0x7FFFFFFFFFFFFFFF#64

/-- Binary64 addition (00_scope.md R10). -/
def fAdd (c : Config.At) (a b : F64) : F64 :=
  if isNaN a || isNaN b then nanAt c .add a b
  else if isInf a then (if isInf b && signXor a b then nanAt c .add a b else a)
  else if isInf b then b
  else if signedUnits a + signedUnits b = 0 then pack (signBit a && signBit b) 0
  else roundUnits (decide (signedUnits a + signedUnits b < 0)) (signedUnits a + signedUnits b).natAbs 1

/-- Binary64 subtraction: the addition of the negated operand; a NaN operand gives a NaN of this operation
(00_scope.md R10). -/
def fSub (c : Config.At) (a b : F64) : F64 :=
  if isNaN a || isNaN b then nanAt c .sub a b else fAdd c a (fNeg b)

/-- Binary64 multiplication (00_scope.md R10). -/
def fMul (c : Config.At) (a b : F64) : F64 :=
  if isNaN a || isNaN b then nanAt c .mul a b
  else if isInf a || isInf b then
    (if isZero a || isZero b then nanAt c .mul a b else pack (signXor a b) infBits)
  else roundUnits (signXor a b) (units a * units b) unitsPerOne

/-- Binary64 division (00_scope.md R10). -/
def fDiv (c : Config.At) (a b : F64) : F64 :=
  if isNaN a || isNaN b then nanAt c .div a b
  else if isInf a then (if isInf b then nanAt c .div a b else pack (signXor a b) infBits)
  else if isInf b then pack (signXor a b) 0
  else if isZero b then (if isZero a then nanAt c .div a b else pack (signXor a b) infBits)
  else roundUnits (signXor a b) (units a * unitsPerOne) (units b)

/-- `f64(n)` for an unsigned integer (00_scope.md R10). -/
def fOfNat (n : Nat) : F64 := roundUnits false (n * unitsPerOne) 1

/-- `f64(n)` for a signed integer (00_scope.md R10). -/
def fOfInt (n : Int) : F64 := roundUnits (decide (n < 0)) (n.natAbs * unitsPerOne) 1

/-- The greatest integer not above a finite number. -/
def floorInt (x : F64) : Int := Int.fdiv (signedUnits x) (unitsPerOne : Int)

/-- `floor(x)`, exact (00_scope.md R10); a zero result keeps the sign of x. -/
def fFloor (x : F64) : F64 :=
  if isFinite x = false then x
  else if floorInt x = 0 then pack (signBit x) 0
  else fOfInt (floorInt x)

/-- The place of a number that is not NaN in the order of the real numbers, -0.0 and +0.0 at one place. -/
def orderKey (x : F64) : Int := if signBit x then -(magBits x : Int) else (magBits x : Int)

/-- IEEE comparisons: false when an operand is NaN (00_scope.md R10). -/
def fLt (a b : F64) : Bool := !isNaN a && !isNaN b && decide (orderKey a < orderKey b)

def fLe (a b : F64) : Bool := !isNaN a && !isNaN b && decide (orderKey a ≤ orderKey b)

/-- The constants the rules write in decimal. -/
def fZero : F64 := 0x0000000000000000#64

def fQuarter : F64 := 0x3FD0000000000000#64

def fHalf : F64 := 0x3FE0000000000000#64

def fThreeQuarters : F64 := 0x3FE8000000000000#64

def fOne : F64 := 0x3FF0000000000000#64

def fTwo : F64 := 0x4000000000000000#64

def fFour : F64 := 0x4010000000000000#64

def fMinusOne : F64 := 0xBFF0000000000000#64

def fMinusTwo : F64 := 0xC000000000000000#64

/-- 2147483648.0 (44_karplus_strong.md R211). -/
def fTwo31 : F64 := 0x41E0000000000000#64

/-- `clamp1(x)` (00_scope.md R11): a NaN passes through. -/
def clamp1 (x : F64) : F64 := if fLt fOne x then fOne else if fLt x fMinusOne then fMinusOne else x

/-- A finite number is within [-1.0, 1.0]. -/
def inUnitRange (x : F64) : Bool := isFinite x && fLe fMinusOne x && fLe x fOne

/-- The nearest integer to a magnitude, a half counted up. -/
def nearestHalfUp (u : Nat) : Nat := (2 * u + unitsPerOne) / (2 * unitsPerOne)

/-- `roundHalfAway(x)` for finite x (00_scope.md R12). -/
def roundHalfAway (x : F64) : Int :=
  if signBit x then -(nearestHalfUp (units x) : Int) else (nearestHalfUp (units x) : Int)

/-- `SIN64(x)`: any function that meets 00_scope.md R15, and no other. The constraints are imposed on the opaque
`Config.sinRaw`: at +0.0 the result is +0.0, and at a finite argument it is finite and in [-1.0, 1.0] (log entry 4). -/
def sin64 (x : F64) : F64 :=
  if x = fZero then fZero
  else if isFinite x && !inUnitRange (Config.sinRaw x) then fZero
  else Config.sinRaw x

/-- `COS64(x)`: any function that meets 00_scope.md R15, and no other (log entry 4). -/
def cos64 (x : F64) : F64 :=
  if x = fZero then fOne
  else if isFinite x && !inUnitRange (Config.cosRaw x) then fZero
  else Config.cosRaw x

end Sys2Proof.Machine
end

