-- ==== Sys2Proof/Machine/Ops.lean ====
section
/-! DEFINITION. The named operations over registers, records and sample RAM, and the one operation that raises an error
(60_exceptions.md R310) with the host's acknowledgement of it (R312). -/

namespace Sys2Proof.Machine

/-! ## Sample RAM (20_memory.md R71 to R73) -/

/-- The word written at an address since power-on, if any. -/
def Memory.lookup : Memory → Nat → Option Word
  | [], _ => none
  | (b, y) :: rest, a => if a = b then some y else Memory.lookup rest a

/-- Store a word, keeping the addresses strictly rising. -/
def Memory.insert : Memory → Nat → Word → Memory
  | [], a, x => [(a, x)]
  | (b, y) :: rest, a, x =>
    if a < b then (a, x) :: (b, y) :: rest
    else if a = b then (a, x) :: rest
    else (b, y) :: Memory.insert rest a x

/-- The listed addresses rise strictly from `lo` on and exist. -/
def Memory.risingFrom : Nat → Memory → Bool
  | _, [] => true
  | lo, (a, _) :: rest => decide (lo ≤ a) && decide (a < Config.RAM_WORDS) && Memory.risingFrom (a + 1) rest

/-- The canonical form of the sample RAM: addresses strictly rising, each below RAM_WORDS. An unlisted address reads as
no written word, so no entry can equal what an unlisted address reads as. -/
def Memory.wf (m : Memory) : Bool := Memory.risingFrom 0 m

/-- The content of a sample-RAM word: the last word written there, or the free power-on word (20_memory.md R71, R72). -/
def ramWord (s : State) (a : Nat) : Word := (s.ram.lookup a).getD (Config.ramInit s.powerOns a)

/-- `MemRead(a)` (20_memory.md R72). -/
def memRead (a : Nat) (s : State) : Except Fault Word :=
  if a < Config.RAM_WORDS then .ok (ramWord s a) else .error (.noSuchRamWord a)

/-- `MemWrite(a, x)` (20_memory.md R72). -/
def memWrite (a : Nat) (x : Word) (s : State) : Except Fault State :=
  if a < Config.RAM_WORDS then .ok { s with ram := s.ram.insert a x } else .error (.noSuchRamWord a)

/-- `for k in 0 .. n-1 : MemWrite(b + k, +0.0)` (42_comb_delay.md R172, 43_stage_control.md R191). -/
def zeroFill : Nat → Nat → State → Except Fault State
  | 0, _, s => .ok s
  | n + 1, b, s => (memWrite b 0 s).bind (zeroFill n (b + 1))

/-! ## Voice and stage records (10_state.md R40, R44) -/

def State.voice (s : State) (v : Fin Config.NV) : Voice := s.voices[v.val]

def State.setVoice (s : State) (v : Fin Config.NV) (x : Voice) : State :=
  { s with voices := s.voices.set v.val x }

def State.stage (s : State) (v : Fin Config.NV) (st : Fin Config.NS) : Stage := s.stages[v.val][st.val]

def State.setStage (s : State) (v : Fin Config.NV) (st : Fin Config.NS) (x : Stage) : State :=
  { s with stages := s.stages.set v.val (s.stages[v.val].set st.val x) }

/-! ## Owned regions (10_state.md R48, 20_memory.md R76) -/

/-- The region of sample RAM a unit owns, as base and length. -/
def ownedRegion (s : State) : UnitId → Option (Nat × Nat)
  | .voice v =>
    if (s.voice v).kind = .ks then some ((s.voice v).base.toNat, (s.voice v).len.toNat) else none
  | .stage v st =>
    if (s.stage v st).kind = .comb ∨ (s.stage v st).kind = .delay then
      some ((s.stage v st).base.toNat, (s.stage v st).n.toNat)
    else none

/-- All units that may own a region. -/
def allUnits : List UnitId :=
  (List.finRange Config.NV).map .voice ++
    (List.finRange Config.NV).flatMap fun v => (List.finRange Config.NS).map (.stage v)

/-- Two regions share no word. -/
def disjointRegions (b len b2 len2 : Nat) : Bool := decide (b + len ≤ b2) || decide (b2 + len2 ≤ b)

/-- `RegionOK(b, L, u)` (20_memory.md R76); unbounded integers, so nothing wraps. -/
def regionOK (b len : Nat) (u : UnitId) (s : State) : Bool :=
  decide (1 ≤ len) && decide (b < Config.RAM_WORDS) && decide (len ≤ Config.RAM_WORDS - b) &&
    allUnits.all fun u2 =>
      u2 == u || match ownedRegion s u2 with
        | none => true
        | some (b2, len2) => disjointRegions b len b2 len2

/-! ## Errors (60_exceptions.md R310, R312) -/

/-- `RecordError(code, word)` (60_exceptions.md R310): the first error is kept, a later one sets ERR_OVF, every one sets
PEND_ERR. -/
def recordError (code : ErrorCode) (w : CmdWord) (s : State) : State :=
  match s.err with
  | none => { s with err := some code, errInfo := w, irqPend := s.irqPend ||| 1#3 }
  | some _ => { s with errOvf := true, irqPend := s.irqPend ||| 1#3 }

/-- `raise E(w)` (00_scope.md R9): the command ends, nothing of it is committed, and the error is recorded. The block goes
on with the next transaction (60_exceptions.md R300). -/
def raise (code : ErrorCode) (w : CmdWord) (s : State) : Result := .next (recordError code w s)

/-- A host write of `w` to IRQ_PEND (10_state.md R29, 60_exceptions.md R312): the acknowledgement. Bits 2 to 0 that are 1
clear their pending bit; bit 0 clears the error record too. -/
def acknowledge (w : Word) (s : State) : State :=
  let s := { s with irqPend := s.irqPend &&& ~~~(w.setWidth 3) }
  if w.getLsbD 0 then { s with err := none, errOvf := false, errInfo := 0 } else s

/-! ## Reset (70_reset_and_hazards.md R340) -/

/-- `ResetState(true)`: every register and record to its reset value. The sample RAM and the words already in the stream
stay (R340), and so do the model's own fields. -/
def softReset (s : State) : State :=
  { State.reset with
    ram := s.ram
    stream := s.stream
    accepted := s.accepted
    hostQueue := s.hostQueue
    replies := s.replies
    sinkScript := s.sinkScript
    sinkRest := s.sinkRest
    resetPin := s.resetPin
    freeTick := s.freeTick
    powerOns := s.powerOns }

/-- `ResetState(false)`: as above, and every sample-RAM word becomes unspecified and the stream empty. -/
def powerOnReset (s : State) : State :=
  { softReset s with ram := [], stream := [], powerOns := s.powerOns + 1 }

/-! ## From the RAM primitives to an outcome -/

/-- A command that has run to its end, or a RAM access no rule makes. -/
def outcome : Except Fault State → Result
  | .ok s => .next s
  | .error f => .fault f

/-- The place of the operations of a command that runs outside a sample step. -/
def commandPlace (s : State) : Config.At := ⟨s.freeTick, .command⟩

end Sys2Proof.Machine
end

