-- ==== Sys2Proof/Machine/Operands.lean ====
section
/-! DEFINITION. The operand forms: the voice and stage fields of a command word (30_encoding.md R93), and the argument
registers P0..P7 read as f64 or u64 and written with results (30_encoding.md R95). -/

namespace Sys2Proof.Machine

/-- `P[k]` (00_scope.md R9); read as f64 it is the same pattern. -/
def State.arg (s : State) (k : Fin 8) : Word := s.p[k.val]

/-- `P[k]` as an unsigned integer. -/
def State.argNat (s : State) (k : Fin 8) : Nat := (s.arg k).toNat

/-- `P[k] <- x`. -/
def State.setArg (s : State) (k : Fin 8) (x : Word) : State := { s with p := s.p.set k.val x }

/-- All eight argument registers written by a query command (30_encoding.md R95). -/
def State.setArgs (s : State) (p0 p1 p2 p3 p4 p5 p6 p7 : Word) : State :=
  { s with p := #v[p0, p1, p2, p3, p4, p5, p6, p7] }

/-- A command with a voice operand: the index names a voice, or the command is illegal (30_encoding.md R96, R97). A
decoded command's index always does. -/
def onVoice (i : Instr) (v : BitVec 4) (s : State) (body : Fin Config.NV → Result) : Result :=
  if h : v.toNat < Config.NV then body ⟨v.toNat, h⟩ else raise .illegalCommand (encode i) s

/-- A command with a voice and a stage operand (30_encoding.md R96, R97). -/
def onStage (i : Instr) (v : BitVec 4) (st : BitVec 2) (s : State)
    (body : Fin Config.NV → Fin Config.NS → Result) : Result :=
  onVoice i v s fun vi =>
    if h : st.toNat < Config.NS then body vi ⟨st.toNat, h⟩ else raise .illegalCommand (encode i) s

end Sys2Proof.Machine
end

