-- ==== Sys2Proof/Machine/Flags.lean ====
section
/-! DEFINITION. The status and interrupt bits: the codes of STATUS (10_state.md R26), the pending bits of IRQ_PEND
(10_state.md R29) and the IRQ line (60_exceptions.md R320). -/

namespace Sys2Proof.Machine

/-- STATUS.STATE (10_state.md R26). -/
def runStateCode : RunState → Nat
  | .idle => 0
  | .running => 1
  | .done => 2
  | .aborted => 3

/-- The codes of 60_exceptions.md R301. -/
def errorNumber : ErrorCode → Nat
  | .invalidParameter => 1
  | .malformedEventStream => 2
  | .numericOverflow => 3
  | .illegalCommand => 4
  | .stateError => 5
  | .addressError => 6

/-- STATUS.ERR: 0 when no error is recorded (10_state.md R26). -/
def errField : Option ErrorCode → Nat
  | none => 0
  | some e => errorNumber e

/-- The STATUS register as a host read returns it (10_state.md R26). -/
def statusWord (s : State) : Word :=
  BitVec.ofNat 64 (runStateCode s.runState + 16 * errField s.err + (if s.errOvf then 256 else 0))

/-- Voice kind codes (10_state.md R41). -/
def voiceKindCode : VoiceKind → Nat
  | .off => 0
  | .sine => 1
  | .square => 2
  | .triangle => 3
  | .sawtooth => 4
  | .ks => 5

/-- Stage kind codes (10_state.md R45). -/
def stageKindCode : StageKind → Nat
  | .bypass => 0
  | .lpf => 1
  | .hpf => 2
  | .bpf => 3
  | .brf => 4
  | .apf => 5
  | .comb => 6
  | .delay => 7

/-- A render reaches DONE: the state and PEND_DONE (60_exceptions.md R321). -/
def enterDone (s : State) : State := { s with runState := .done, irqPend := s.irqPend ||| 2#3 }

/-- A NumericOverflow moves the block to ABORTED: the state and PEND_ABORT (60_exceptions.md R321). -/
def enterAborted (s : State) : State := { s with runState := .aborted, irqPend := s.irqPend ||| 4#3 }

/-- Some enabled bit is pending: the formula of 60_exceptions.md R320. -/
def pendingEnabled (s : State) : Bool := (s.irqPend &&& s.irqEn) != 0#3

/-- The interrupt output (60_exceptions.md R320). It takes its new value when the transaction that changed IRQ_PEND or IRQ_EN
completes. Between two steps of the model only a STEP can be incomplete, and it is while the stream holds a word (45_pipeline.md
R262, 70_reset_and_hazards.md R356): till then the line keeps the level it had. How that level is held: log entry 21. -/
def irqLine (s : State) : Bool := if s.stream = [] then pendingEnabled s else s.irqHeld

end Sys2Proof.Machine
end

