-- ==== Sys2Proof/Machine/Generator.lean ====
section
/-! DEFINITION. The waveform generator and its commands (40_generator.md). -/

namespace Sys2Proof.Machine

/-! ## Waveform evaluation -/

/-- `Phase(f, t)` (40_generator.md R120); its NaN is a free value. -/
def phase (c : Config.At) (f t : F64) : F64 :=
  let x := fMul c f t
  if isFinite x then fSub c x (fFloor x) else nanAt c .phase f t

/-- `SineWave(f, t)` (40_generator.md R121). -/
def sineWave (c : Config.At) (f t : F64) : F64 :=
  let p := phase c f t
  if isNaN p then p else clamp1 (sin64 (fMul c Config.TWO_PI p))

/-- `SquareWave(f, t)` (40_generator.md R122). -/
def squareWave (c : Config.At) (f t : F64) : F64 :=
  let p := phase c f t
  if isNaN p then p else if fLt p fHalf then fOne else fMinusOne

/-- `TriangleWave(f, t)` (40_generator.md R123). -/
def triangleWave (c : Config.At) (f t : F64) : F64 :=
  let p := phase c f t
  if isNaN p then p
  else if fLt p fQuarter then fMul c fFour p
  else if fLt p fThreeQuarters then fSub c fTwo (fMul c fFour p)
  else fSub c (fMul c fFour p) fFour

/-- `SawWave(f, t)` (40_generator.md R124). DESIGN CHOICE: R124's last sentence, "For p < 2^-54 the subtraction rounds to
-1.0", disagrees with its formula for 2^-55 < p < 2^-54, where the one rounding to nearest (00_scope.md R10) gives
-(1 - 2^-53). The model follows the formula (unsafe; log entry 20). -/
def sawWave (c : Config.At) (f t : F64) : F64 :=
  let p := phase c f t
  if isNaN p then p else fSub c (fMul c fTwo p) fOne

/-! ## Parameter checks (40_generator.md R111) -/

def freqOK (f : F64) : Bool := isFinite f && fLe fZero f

def gainOK (g : F64) : Bool := isFinite g

/-! ## Commands -/

/-- An oscillator record (40_generator.md R112): the Karplus-Strong fields are 0. -/
def oscillator (kind : VoiceKind) (f g : F64) : Voice :=
  { kind := kind, freq := f, gain := g, decay := fZero, base := 0, len := 0, ptr := 0, fsLat := 0 }

/-- The construction shared by the four oscillators (40_generator.md R112 to R115). -/
def makeOscillator (kind : VoiceKind) (i : Instr) (v : BitVec 4) (s : State) : Result :=
  onVoice i v s fun vi =>
    if freqOK (s.arg 0) = false then raise .invalidParameter (encode i) s
    else if gainOK (s.arg 1) = false then raise .invalidParameter (encode i) s
    else .next (s.setVoice vi (oscillator kind (s.arg 0) (s.arg 1)))

/-- OSC_OFF (40_generator.md R110). -/
def execOscOff (v : BitVec 4) (s : State) : Result :=
  onVoice (.oscOff v) v s fun vi =>
    .next (s.setVoice vi (oscillator .off (s.voice vi).freq (s.voice vi).gain))

/-- OSC_SINE (40_generator.md R112). -/
def execOscSine (v : BitVec 4) (s : State) : Result := makeOscillator .sine (.oscSine v) v s

/-- OSC_SQUARE (40_generator.md R113). -/
def execOscSquare (v : BitVec 4) (s : State) : Result := makeOscillator .square (.oscSquare v) v s

/-- OSC_TRIANGLE (40_generator.md R114). -/
def execOscTriangle (v : BitVec 4) (s : State) : Result := makeOscillator .triangle (.oscTriangle v) v s

/-- OSC_SAWTOOTH (40_generator.md R115). -/
def execOscSawtooth (v : BitVec 4) (s : State) : Result := makeOscillator .sawtooth (.oscSawtooth v) v s

/-- The kinds SETFREQ accepts (40_generator.md R116). -/
def isOscillator : VoiceKind → Bool
  | .sine | .square | .triangle | .sawtooth => true
  | .off | .ks => false

/-- SETFREQ (40_generator.md R116). -/
def execSetFreq (v : BitVec 4) (s : State) : Result :=
  onVoice (.setFreq v) v s fun vi =>
    if isOscillator (s.voice vi).kind = false then raise .stateError (encode (.setFreq v)) s
    else if freqOK (s.arg 0) = false then raise .invalidParameter (encode (.setFreq v)) s
    else .next (s.setVoice vi { s.voice vi with freq := s.arg 0 })

/-- SETGAIN (40_generator.md R117). -/
def execSetGain (v : BitVec 4) (s : State) : Result :=
  onVoice (.setGain v) v s fun vi =>
    if gainOK (s.arg 0) = false then raise .invalidParameter (encode (.setGain v)) s
    else .next (s.setVoice vi { s.voice vi with gain := s.arg 0 })

/-- RDVOICE (40_generator.md R118). -/
def execRdVoice (v : BitVec 4) (s : State) : Result :=
  onVoice (.rdVoice v) v s fun vi =>
    let vo := s.voice vi
    .next (s.setArgs (BitVec.ofNat 64 (voiceKindCode vo.kind)) vo.freq vo.gain vo.decay
      (vo.base.setWidth 64) (vo.len.setWidth 64) (vo.ptr.setWidth 64) (vo.fsLat.setWidth 64))

end Sys2Proof.Machine
end

