-- ==== Sys2Proof/Machine/Biquad.lean ====
section
/-! DEFINITION. The biquad IIR filters and their commands (41_biquad.md). -/

namespace Sys2Proof.Machine

/-- The five normalized coefficients of a biquad (41_biquad.md R148). -/
structure Coefs where
  c0 : F64
  c1 : F64
  c2 : F64
  c3 : F64
  c4 : F64
  deriving DecidableEq, Repr

/-- `BiquadOK(fc, Q, fs)` (41_biquad.md R141). -/
def biquadOK (c : Config.At) (fc q : F64) (fs : BitVec 32) : Bool :=
  fs != 0#32 && isFinite fc && fLt fZero fc && fLt fc (fDiv c (fOfNat fs.toNat) fTwo) && isFinite q && fLt fZero q

/-- `w0` (41_biquad.md R142). -/
def bqW0 (c : Config.At) (fc : F64) (fs : BitVec 32) : F64 := fDiv c (fMul c Config.TWO_PI fc) (fOfNat fs.toNat)

/-- `cw` (41_biquad.md R142). -/
def bqCw (c : Config.At) (fc : F64) (fs : BitVec 32) : F64 := cos64 (bqW0 c fc fs)

/-- `alpha` (41_biquad.md R142). -/
def bqAlpha (c : Config.At) (fc q : F64) (fs : BitVec 32) : F64 :=
  fDiv c (sin64 (bqW0 c fc fs)) (fMul c fTwo q)

/-- The feed-forward terms b0, b1, b2 of each kind (41_biquad.md R143 to R147); no other kind has any. -/
def bqFeedForward (c : Config.At) (kind : StageKind) (cw alpha : F64) : Option (F64 × F64 × F64) :=
  match kind with
  | .lpf =>
    let b1 := fSub c fOne cw
    let b0 := fDiv c b1 fTwo
    some (b0, b1, b0)
  | .hpf =>
    let h := fAdd c fOne cw
    let b0 := fDiv c h fTwo
    some (b0, fNeg h, b0)
  | .bpf => some (alpha, fZero, fNeg alpha)
  | .brf => some (fOne, fMul c fMinusTwo cw, fOne)
  | .apf => some (fSub c fOne alpha, fMul c fMinusTwo cw, fAdd c fOne alpha)
  | .bypass | .comb | .delay => none

/-- The normalized coefficients (41_biquad.md R142 to R148). DESIGN CHOICE (unsafe; log entry 23): R152's corner case says
that the band-pass c1 is +0.0 exactly, and R148's parenthesis that a coefficient is not finite only when alpha overflows.
With a sine that 00_scope.md R15 allows but that is negative at w0, a0 = 1.0 + alpha can be negative or zero: R145 and R148
then give c1 = (+0.0) / a0 = -0.0, or quotients by zero, which are not finite. The model computes the formulas. -/
def bqCoefs (c : Config.At) (kind : StageKind) (fc q : F64) (fs : BitVec 32) : Option Coefs :=
  let cw := bqCw c fc fs
  let alpha := bqAlpha c fc q fs
  let a0 := fAdd c fOne alpha
  let a1 := fMul c fMinusTwo cw
  let a2 := fSub c fOne alpha
  match bqFeedForward c kind cw alpha with
  | none => none
  | some (b0, b1, b2) => some ⟨fDiv c b0 a0, fDiv c b1 a0, fDiv c b2 a0, fDiv c a1 a0, fDiv c a2 a0⟩

/-- No coefficient is a NaN or an infinity (41_biquad.md R148). -/
def coefsFinite (k : Coefs) : Bool :=
  isFinite k.c0 && isFinite k.c1 && isFinite k.c2 && isFinite k.c3 && isFinite k.c4

/-- A biquad stage right after its construction: zero recursion memory (41_biquad.md R149). -/
def biquadStage (kind : StageKind) (k : Coefs) (fs : BitVec 32) : Stage :=
  { resetStage with kind := kind, c0 := k.c0, c1 := k.c1, c2 := k.c2, c3 := k.c3, c4 := k.c4, fsLat := fs }

/-- `BiquadConstruct(kind)` (41_biquad.md R149). -/
def biquadConstruct (kind : StageKind) (i : Instr) (v : BitVec 4) (st : BitVec 2) (s : State) : Result :=
  onStage i v st s fun vi si =>
    if biquadOK (commandPlace s) (s.arg 0) (s.arg 1) s.fs = false then raise .invalidParameter (encode i) s
    else match bqCoefs (commandPlace s) kind (s.arg 0) (s.arg 1) s.fs with
      | none => raise .invalidParameter (encode i) s
      | some k =>
        if coefsFinite k = false then raise .invalidParameter (encode i) s
        else .next (s.setStage vi si (biquadStage kind k s.fs))

/-- BQ_LPF (41_biquad.md R150). -/
def execBqLpf (v : BitVec 4) (st : BitVec 2) (s : State) : Result := biquadConstruct .lpf (.bqLpf v st) v st s

/-- BQ_HPF (41_biquad.md R151). -/
def execBqHpf (v : BitVec 4) (st : BitVec 2) (s : State) : Result := biquadConstruct .hpf (.bqHpf v st) v st s

/-- BQ_BPF (41_biquad.md R152). -/
def execBqBpf (v : BitVec 4) (st : BitVec 2) (s : State) : Result := biquadConstruct .bpf (.bqBpf v st) v st s

/-- BQ_BRF (41_biquad.md R153). -/
def execBqBrf (v : BitVec 4) (st : BitVec 2) (s : State) : Result := biquadConstruct .brf (.bqBrf v st) v st s

/-- BQ_APF (41_biquad.md R154). -/
def execBqApf (v : BitVec 4) (st : BitVec 2) (s : State) : Result := biquadConstruct .apf (.bqApf v st) v st s

/-- `BiquadStep`, the Direct Form I difference equation (41_biquad.md R155): the output, and the stage with its recursion
memory moved on. -/
def biquadStep (c : Config.At) (st : Stage) (x : F64) : F64 × Stage :=
  let y := fMul c st.c0 x
  let y := fAdd c y (fMul c st.c1 st.x1)
  let y := fAdd c y (fMul c st.c2 st.x2)
  let y := fSub c y (fMul c st.c3 st.y1)
  let y := fSub c y (fMul c st.c4 st.y2)
  (y, { st with x2 := st.x1, x1 := x, y2 := st.y1, y1 := y })

end Sys2Proof.Machine
end

