-- ==== Sys2Proof/Machine/CombDelay.lean ====
section
/-! DEFINITION. The comb filter and the delay line, and their commands (42_comb_delay.md). -/

namespace Sys2Proof.Machine

/-- `CombOK(g, N, b, fs, unit)` (42_comb_delay.md R171). -/
def combOK (g : F64) (n b : Nat) (fs : BitVec 32) (u : UnitId) (s : State) : Bool :=
  fs != 0#32 && isFinite g && fLt (fAbs g) fOne && regionOK b n u s

/-- A comb or delay stage right after its construction (42_comb_delay.md R172). -/
def combStage (kind : StageKind) (g : F64) (n b : Nat) (fs : BitVec 32) : Stage :=
  { resetStage with kind := kind, g := g, n := BitVec.ofNat 32 n, base := BitVec.ofNat 32 b, fsLat := fs }

/-- `CombConstruct(kind)` (42_comb_delay.md R172). -/
def combConstruct (kind : StageKind) (i : Instr) (v : BitVec 4) (st : BitVec 2) (s : State) : Result :=
  onStage i v st s fun vi si =>
    if combOK (s.arg 0) (s.argNat 1) (s.argNat 2) s.fs (.stage vi si) s = false then
      raise .invalidParameter (encode i) s
    else outcome ((zeroFill (s.argNat 1) (s.argNat 2) s).map fun t =>
      t.setStage vi si (combStage kind (s.arg 0) (s.argNat 1) (s.argNat 2) s.fs))

/-- COMB (42_comb_delay.md R175). -/
def execComb (v : BitVec 4) (st : BitVec 2) (s : State) : Result := combConstruct .comb (.comb v st) v st s

/-- DELAY (42_comb_delay.md R176). -/
def execDelay (v : BitVec 4) (st : BitVec 2) (s : State) : Result := combConstruct .delay (.delay v st) v st s

/-- The cursor moves from n-1 back to 0 (20_memory.md R73). -/
def nextCursor (w n : BitVec 32) : BitVec 32 := if w + 1 = n then 0 else w + 1

/-- The word address a stage's cursor stands at: `st.base + st.w` on u32 values (42_comb_delay.md R173). -/
def cursorAddress (st : Stage) : Nat := (st.base + st.w).toNat

/-- `y <- x + st.g * d` (42_comb_delay.md R173, R174). -/
def combOutput (c : Config.At) (g x d : F64) : F64 := fAdd c x (fMul c g d)

/-- `CombStep` (42_comb_delay.md R173): the buffer holds outputs. -/
def combStep (c : Config.At) (v : Fin Config.NV) (st : Fin Config.NS) (x : F64) (s : State) :
    Except Fault (F64 × State) :=
  let r := s.stage v st
  (memRead (cursorAddress r) s).bind fun d =>
    let y := combOutput c r.g x d
    (memWrite (cursorAddress r) y s).map fun t => (y, t.setStage v st { r with w := nextCursor r.w r.n })

/-- `DelayStep` (42_comb_delay.md R174): the buffer holds inputs. -/
def delayStep (c : Config.At) (v : Fin Config.NV) (st : Fin Config.NS) (x : F64) (s : State) :
    Except Fault (F64 × State) :=
  let r := s.stage v st
  (memRead (cursorAddress r) s).bind fun d =>
    let y := combOutput c r.g x d
    (memWrite (cursorAddress r) x s).map fun t => (y, t.setStage v st { r with w := nextCursor r.w r.n })

end Sys2Proof.Machine
end

