-- ==== Sys2Proof/Machine/StageControl.lean ====
section
/-! DEFINITION. Stage dispatch and the stage-control commands (43_stage_control.md). -/

namespace Sys2Proof.Machine

/-- `StageStep(v, s, x)` (43_stage_control.md R194). -/
def stageStep (tick : Nat) (v : Fin Config.NV) (st : Fin Config.NS) (x : F64) (s : State) :
    Except Fault (F64 × State) :=
  match (s.stage v st).kind with
  | .bypass => .ok (x, s)
  | .lpf | .hpf | .bpf | .brf | .apf =>
    let r := biquadStep ⟨tick, .stage v st⟩ (s.stage v st) x
    .ok (r.1, s.setStage v st r.2)
  | .comb => combStep ⟨tick, .stage v st⟩ v st x s
  | .delay => delayStep ⟨tick, .stage v st⟩ v st x s

/-- The stages of a voice in the order given, each one's output the next one's input (43_stage_control.md R194). -/
def stageChain (tick : Nat) (v : Fin Config.NV) : List (Fin Config.NS) → F64 → State → Except Fault (F64 × State)
  | [], x, s => .ok (x, s)
  | st :: rest, x, s => (stageStep tick v st x s).bind fun r => stageChain tick v rest r.1 r.2

/-- BYPASS (43_stage_control.md R190). -/
def execBypass (v : BitVec 4) (st : BitVec 2) (s : State) : Result :=
  onStage (.bypass v st) v st s fun vi si => .next (s.setStage vi si resetStage)

/-- CLRST (43_stage_control.md R191). -/
def execClrSt (v : BitVec 4) (st : BitVec 2) (s : State) : Result :=
  onStage (.clrSt v st) v st s fun vi si =>
    let r := s.stage vi si
    match r.kind with
    | .bypass => .next s
    | .lpf | .hpf | .bpf | .brf | .apf =>
      .next (s.setStage vi si { r with x1 := fZero, x2 := fZero, y1 := fZero, y2 := fZero })
    | .comb | .delay =>
      outcome ((zeroFill r.n.toNat r.base.toNat s).map fun t => t.setStage vi si { r with w := 0 })

/-- RDCOEF (43_stage_control.md R192). -/
def execRdCoef (v : BitVec 4) (st : BitVec 2) (s : State) : Result :=
  onStage (.rdCoef v st) v st s fun vi si =>
    let r := s.stage vi si
    .next (s.setArgs r.c0 r.c1 r.c2 r.c3 r.c4 (BitVec.ofNat 64 (stageKindCode r.kind)) (r.fsLat.setWidth 64) r.g)

/-- RDSTATE (43_stage_control.md R193). -/
def execRdState (v : BitVec 4) (st : BitVec 2) (s : State) : Result :=
  onStage (.rdState v st) v st s fun vi si =>
    let r := s.stage vi si
    .next (s.setArgs r.x1 r.x2 r.y1 r.y2 (r.n.setWidth 64) (r.base.setWidth 64) (r.w.setWidth 64) 0)

end Sys2Proof.Machine
end

