-- ==== Sys2Proof/Machine/KarplusStrong.lean ====
section
/-! DEFINITION. The Karplus-Strong engine, its noise source and its command (44_karplus_strong.md). -/

namespace Sys2Proof.Machine

/-- One advance of the xorshift generator (44_karplus_strong.md R211). -/
def xorshift32 (x : BitVec 32) : BitVec 32 :=
  let x := x ^^^ (x <<< 13)
  let x := x ^^^ (x >>> 17)
  x ^^^ (x <<< 5)

/-- The value of a generator state: `f64(sint32(x)) / 2147483648.0` (44_karplus_strong.md R211). -/
def noiseValue (c : Config.At) (x : BitVec 32) : F64 := fDiv c (fOfInt x.toInt) fTwo31

/-- `NoiseDraw()` (44_karplus_strong.md R211): the value, and the state with NOISE advanced. -/
def noiseDraw (s : State) : F64 × State :=
  (noiseValue (commandPlace s) (xorshift32 s.noise), { s with noise := xorshift32 s.noise })

/-- `f64(fs) / f` (44_karplus_strong.md R213). -/
def ksRatio (c : Config.At) (f : F64) (fs : BitVec 32) : F64 := fDiv c (fOfNat fs.toNat) f

/-- The buffer length of a finite ratio, as an unbounded integer (44_karplus_strong.md R213, R214). -/
def ksLength (c : Config.At) (f : F64) (fs : BitVec 32) : Int := roundHalfAway (ksRatio c f fs)

/-- The eight checks of 44_karplus_strong.md R214, in its order; each failure raises the same error. -/
def ksOK (c : Config.At) (f g d : F64) (b : Nat) (v : Fin Config.NV) (s : State) : Bool :=
  s.fs != 0#32 && (isFinite f && fLt fZero f) && isFinite g && (isFinite d && fLe fZero d && fLe d fOne) &&
    isFinite (ksRatio c f s.fs) && decide (2 ≤ ksLength c f s.fs) &&
    regionOK b (ksLength c f s.fs).toNat (.voice v) s && s.noise != 0#32

/-- `for k in 0 .. L-1 : MemWrite(b + k, bits64(NoiseDraw()))`, k ascending (44_karplus_strong.md R215). -/
def noiseFill : Nat → Nat → State → Except Fault State
  | 0, _, s => .ok s
  | n + 1, b, s => (memWrite b (noiseDraw s).1 (noiseDraw s).2).bind (noiseFill n (b + 1))

/-- A plucked string right after its construction (44_karplus_strong.md R215). -/
def ksVoice (f g d : F64) (b len : Nat) (fs : BitVec 32) : Voice :=
  { kind := .ks, freq := f, gain := g, decay := d, base := BitVec.ofNat 32 b, len := BitVec.ofNat 32 len, ptr := 0,
    fsLat := fs }

/-- OSC_KS (44_karplus_strong.md R215). -/
def execOscKs (v : BitVec 4) (s : State) : Result :=
  onVoice (.oscKs v) v s fun vi =>
    if ksOK (commandPlace s) (s.arg 0) (s.arg 1) (s.arg 2) (s.argNat 3) vi s = false then
      raise .invalidParameter (encode (.oscKs v)) s
    else
      let len := (ksLength (commandPlace s) (s.arg 0) s.fs).toNat
      outcome ((noiseFill len (s.argNat 3) s).map fun t =>
        t.setVoice vi (ksVoice (s.arg 0) (s.arg 1) (s.arg 2) (s.argNat 3) len s.fs))

/-- The word addresses of the oldest sample and the next one (44_karplus_strong.md R216), on u32 values. -/
def ksOldest (vo : Voice) : Nat := (vo.base + vo.ptr).toNat

def ksNext (vo : Voice) : Nat := (vo.base + nextCursor vo.ptr vo.len).toNat

/-- `decay * ((a + c) * 0.5)` (44_karplus_strong.md R216). -/
def ksDamp (p : Config.At) (decay a c : F64) : F64 := fMul p decay (fMul p (fAdd p a c) fHalf)

/-- `KSStep(v)` (44_karplus_strong.md R216). DESIGN CHOICE: 70_reset_and_hazards.md R353 says that a NaN or infinity a host
writes into an owned region aborts the render when the unit next reads the word. R216's own steps differ for a string: an
infinite oldest sample comes out as `clamp1` of it, 1.0 or -1.0, and a second oldest one goes into the stored average and not
into the output. The model follows R216 (unsafe; log entry 22). -/
def ksStep (tick : Nat) (v : Fin Config.NV) (s : State) : Except Fault (F64 × State) :=
  let vo := s.voice v
  (memRead (ksOldest vo) s).bind fun a =>
    (memRead (ksNext vo) s).bind fun c =>
      (memWrite (ksOldest vo) (ksDamp ⟨tick, .generator v⟩ vo.decay a c) s).map fun t =>
        (clamp1 a, t.setVoice v { vo with ptr := nextCursor vo.ptr vo.len })

end Sys2Proof.Machine
end

