-- ==== Sys2Proof/Machine/Pipeline.lean ====
section
/-! DEFINITION. The sample pipeline, the mixer, the quantizer and the render commands (45_pipeline.md). -/

namespace Sys2Proof.Machine

/-! ## START -/

/-- Every configured unit was built for the sample rate `fs` (45_pipeline.md R241, last two lines). -/
def ratesAgree (fs : BitVec 32) (s : State) : Bool :=
  ((List.finRange Config.NV).all fun v => (s.voice v).kind != .ks || (s.voice v).fsLat == fs) &&
    ((List.finRange Config.NV).all fun v => (List.finRange Config.NS).all fun st =>
      (s.stage v st).kind == .bypass || (s.stage v st).fsLat == fs)

/-- `RenderOK` (45_pipeline.md R241). -/
def renderOK (s : State) : Bool :=
  s.fs != 0#32 && (decide (2 ≤ s.bits.toNat) && decide (s.bits.toNat ≤ 32)) &&
    (isFinite s.headroom && fLt fZero s.headroom) && ratesAgree s.fs s

/-- START latches the render parameters and restarts the index (45_pipeline.md R240, R242). -/
def latchRender (s : State) : State :=
  { s with runFs := s.fs, runBits := s.bits, runHeadroom := s.headroom, runLength := s.length, sampleIdx := 0,
           pcmLast := 0 }

/-- START (45_pipeline.md R240). -/
def execStart (s : State) : Result :=
  if renderOK s = false then raise .invalidParameter (encode .start) s
  else if s.length = 0 then .next (enterDone (latchRender s))
  else .next { latchRender s with runState := .running }

/-! ## The quantizer and the output stream -/

/-- `M = 2^(B-1)` (45_pipeline.md R260). -/
def fullScale (b : Nat) : Nat := 2 ^ (b - 1)

/-- `Quantize(m, B)` (45_pipeline.md R260), for finite m and 2 <= B <= 32. -/
def quantize (c : Config.At) (m : F64) (b : Nat) : Int :=
  let r := roundHalfAway (fMul c (clamp1 m) (fOfNat (fullScale b)))
  min (max r (-(fullScale b : Int))) ((fullScale b : Int) - 1)

/-- `emit(q)` appends the word `sext_32(q)` to the output stream (45_pipeline.md R262). From the first word on, the STEP is
not complete until the sink has taken them all, and the IRQ line keeps its level (60_exceptions.md R320). -/
def emit (q : Int) (s : State) : State :=
  { s with stream := s.stream ++ [BitVec.ofInt 32 q], irqHeld := irqLine s }

/-! ## The sample step -/

/-- `GenValue(v, t)` (45_pipeline.md R251): the value of an active voice; an OFF voice has none. -/
def genValue (tick : Nat) (v : Fin Config.NV) (t : F64) (s : State) : Option (Except Fault (F64 × State)) :=
  let c : Config.At := ⟨tick, .generator v⟩
  match (s.voice v).kind with
  | .off => none
  | .sine => some (.ok (sineWave c (s.voice v).freq t, s))
  | .square => some (.ok (squareWave c (s.voice v).freq t, s))
  | .triangle => some (.ok (triangleWave c (s.voice v).freq t, s))
  | .sawtooth => some (.ok (sawWave c (s.voice v).freq t, s))
  | .ks => some (ksStep tick v s)

/-- `acc + y * gain` (45_pipeline.md R256). -/
def mixIn (tick : Nat) (acc y gain : F64) : F64 := fAdd ⟨tick, .mixer⟩ acc (fMul ⟨tick, .mixer⟩ y gain)

/-- One turn of the loop over voices (45_pipeline.md R250): the generator, the stages in ascending order, the mix. An OFF
voice is skipped. -/
def voiceTurn (tick : Nat) (t : F64) (v : Fin Config.NV) (acc : F64) (s : State) : Except Fault (F64 × State) :=
  match genValue tick v t s with
  | none => .ok (acc, s)
  | some gen =>
    gen.bind fun g =>
      (stageChain tick v (List.finRange Config.NS) g.1 g.2).map fun y =>
        (mixIn tick acc y.1 (y.2.voice v).gain, y.2)

/-- The loop over voices in the order given (45_pipeline.md R250, R256). -/
def voiceLoop (tick : Nat) (t : F64) : List (Fin Config.NV) → F64 → State → Except Fault (F64 × State)
  | [], acc, s => .ok (acc, s)
  | v :: rest, acc, s => (voiceTurn tick t v acc s).bind fun r => voiceLoop tick t rest r.1 r.2

/-- `t = f64(i) / f64(RUN_FS)` (45_pipeline.md R250). -/
def sampleTime (s : State) : F64 :=
  fDiv ⟨s.freeTick, .mixer⟩ (fOfNat s.sampleIdx.toNat) (fOfNat s.runFs.toNat)

/-- The end of a sample step whose mix is not finite (45_pipeline.md R250, R252): the unit updates stay, nothing is
emitted. -/
def overflowSample (w : CmdWord) (s : State) : State := recordError .numericOverflow w (enterAborted s)

/-- The end of a sample step with the PCM word `q` (45_pipeline.md R250). -/
def finishSample (q : Int) (s : State) : State :=
  let e := { emit q s with pcmLast := BitVec.ofInt 64 q, sampleIdx := s.sampleIdx + 1 }
  if e.sampleIdx = e.runLength then enterDone e else e

/-- The normalized mix of the voices at this sample (45_pipeline.md R250, R255), with the units moved on. The counter of
free values moves on with every sample step. -/
def mixSample (s : State) : Except Fault (F64 × State) :=
  (voiceLoop s.freeTick (sampleTime s) (List.finRange Config.NV) fZero s).map fun r =>
    (fDiv ⟨s.freeTick, .mixer⟩ r.1 r.2.runHeadroom, { r.2 with freeTick := s.freeTick + 1 })

/-- `SampleStep(w)` (45_pipeline.md R250). -/
def sampleStep (w : CmdWord) (s : State) : Except Fault State :=
  (mixSample s).map fun r =>
    if isFinite r.1 then finishSample (quantize ⟨s.freeTick, .mixer⟩ r.1 r.2.runBits.toNat) r.2
    else overflowSample w r.2

/-! ## STEP -/

/-- Up to `k` sample steps, as long as the render is RUNNING (45_pipeline.md R245). -/
def sampleSteps (w : CmdWord) : Nat → State → Except Fault State
  | 0, s => .ok s
  | k + 1, s => if s.runState = .running then (sampleStep w s).bind (sampleSteps w k) else .ok s

/-- STEP n (45_pipeline.md R245). -/
def execStep (n : BitVec 20) (s : State) : Result :=
  match s.runState with
  | .idle | .aborted => raise .stateError (encode (.step n)) s
  | .running | .done => outcome (sampleSteps (encode (.step n)) n.toNat s)

end Sys2Proof.Machine
end

