-- ==== Sys2Proof/Machine/System.lean ====
section
/-! DEFINITION. Block control and sample-RAM access (46_system.md). -/

namespace Sys2Proof.Machine

/-- NOP (46_system.md R280). -/
def execNop (s : State) : Result := .next s

/-- SRST (46_system.md R281). -/
def execSrst (s : State) : Result := .next (softReset s)

/-- RAMRD (46_system.md R283, with the check of R282). -/
def execRamrd (s : State) : Result :=
  if Config.RAM_WORDS ≤ s.argNat 1 then raise .addressError (encode .ramrd) s
  else match memRead (s.argNat 1) s with
    | .ok x => .next (s.setArg 0 x)
    | .error f => .fault f

/-- RAMWR (46_system.md R284, with the check of R282). -/
def execRamwr (s : State) : Result :=
  if Config.RAM_WORDS ≤ s.argNat 1 then raise .addressError (encode .ramwr) s
  else outcome (memWrite (s.argNat 1) (s.arg 0) s)

end Sys2Proof.Machine
end

