-- ==== Sys2Proof/Machine/Dispatch.lean ====
section
/-! DEFINITION. The meaning of every command (30_encoding.md R94): one arm for each constructor of Instr. -/

namespace Sys2Proof.Machine

def exec (i : Instr) (s : State) : Host.Outcome State Fault Refusal :=
  match i with
  | .nop => Sys2Proof.Machine.execNop s
  | .srst => Sys2Proof.Machine.execSrst s
  | .start => Sys2Proof.Machine.execStart s
  | .step n => Sys2Proof.Machine.execStep n s
  | .ramrd => Sys2Proof.Machine.execRamrd s
  | .ramwr => Sys2Proof.Machine.execRamwr s
  | .oscOff v => Sys2Proof.Machine.execOscOff v s
  | .oscSine v => Sys2Proof.Machine.execOscSine v s
  | .oscSquare v => Sys2Proof.Machine.execOscSquare v s
  | .oscTriangle v => Sys2Proof.Machine.execOscTriangle v s
  | .oscSawtooth v => Sys2Proof.Machine.execOscSawtooth v s
  | .oscKs v => Sys2Proof.Machine.execOscKs v s
  | .setFreq v => Sys2Proof.Machine.execSetFreq v s
  | .setGain v => Sys2Proof.Machine.execSetGain v s
  | .rdVoice v => Sys2Proof.Machine.execRdVoice v s
  | .bypass v st => Sys2Proof.Machine.execBypass v st s
  | .bqLpf v st => Sys2Proof.Machine.execBqLpf v st s
  | .bqHpf v st => Sys2Proof.Machine.execBqHpf v st s
  | .bqBpf v st => Sys2Proof.Machine.execBqBpf v st s
  | .bqBrf v st => Sys2Proof.Machine.execBqBrf v st s
  | .bqApf v st => Sys2Proof.Machine.execBqApf v st s
  | .comb v st => Sys2Proof.Machine.execComb v st s
  | .delay v st => Sys2Proof.Machine.execDelay v st s
  | .clrSt v st => Sys2Proof.Machine.execClrSt v st s
  | .rdCoef v st => Sys2Proof.Machine.execRdCoef v st s
  | .rdState v st => Sys2Proof.Machine.execRdState v st s

end Sys2Proof.Machine
end

