-- ==== Sys2Proof/Machine/Port.lean ====
section
/-! DEFINITION. The outside of the block: the host register window (10_state.md R22, R37 to R39), a write to CMD
(10_state.md R25), the sink's handshake (45_pipeline.md R262, 70_reset_and_hazards.md R356) and the reset input
(70_reset_and_hazards.md R341). -/

namespace Sys2Proof.Machine

/-- The byte offset of a register number: the port carries bits 11 to 3 (20_memory.md R74). -/
def byteOffset (off : BitVec 9) : Nat := 8 * off.toNat

/-- The argument register at a byte offset: Pk is at 0x080 + 8*k (10_state.md R21). -/
def argOffset (a : Nat) : Option (Fin 8) :=
  if h : 0x080 ≤ a ∧ a < 0x0C0 then some ⟨(a - 0x080) / 8, by omega⟩ else none

/-- A host register read (10_state.md R22, R38): unimplemented bits and reserved offsets read 0 (R37). -/
def readRegister (off : BitVec 9) (s : State) : Word :=
  match byteOffset off with
  | 0x000 => Config.ID
  | 0x008 => Config.CAPS
  | 0x018 => statusWord s
  | 0x020 => s.errInfo.setWidth 64
  | 0x028 => s.irqEn.setWidth 64
  | 0x030 => s.irqPend.setWidth 64
  | 0x038 => s.fs.setWidth 64
  | 0x040 => s.bits.setWidth 64
  | 0x048 => s.headroom
  | 0x050 => s.length
  | 0x058 => s.noise.setWidth 64
  | 0x060 => s.sampleIdx
  | 0x068 => s.pcmLast
  | a => match argOffset a with
    | some k => s.arg k
    | none => 0

/-- A write to CMD executes the command word, or is illegal (10_state.md R25, 30_encoding.md R96, R97). -/
def issueCommand (x : Word) (s : State) : Result :=
  match decode x with
  | .ok i => exec i s
  | .error _ => raise .illegalCommand (lowWord x) s

/-- A host register write (10_state.md R22, R39): read-only and reserved offsets ignore it. -/
def writeRegister (off : BitVec 9) (x : Word) (s : State) : Result :=
  match byteOffset off with
  | 0x010 => issueCommand x s
  | 0x028 => .next { s with irqEn := x.setWidth 3 }
  | 0x030 => .next (acknowledge x s)
  | 0x038 => .next { s with fs := x.setWidth 32 }
  | 0x040 => .next { s with bits := x.setWidth 8 }
  | 0x048 => .next { s with headroom := x }
  | 0x050 => .next { s with length := x }
  | 0x058 => .next { s with noise := x.setWidth 32 }
  | a => match argOffset a with
    | some k => .next (s.setArg k x)
    | none => .next s

/-- One transaction of the host (20_memory.md R74). -/
def transact (t : HostTxn) (s : State) : Result :=
  match t with
  | .read off => .next { s with replies := s.replies ++ [readRegister off s] }
  | .write off x => writeRegister off x s

/-- Whether the sink is ready at the offer now made. -/
def sinkReady (s : State) : Bool := s.sinkScript.head?.getD s.sinkRest

/-- One offer of the stream's oldest word to the sink (45_pipeline.md R262): taken when the sink is ready, held when
not. -/
def sinkTurn (s : State) : State :=
  if sinkReady s then
    { s with accepted := s.accepted ++ s.stream.take 1, stream := s.stream.drop 1, sinkScript := s.sinkScript.tail }
  else { s with sinkScript := s.sinkScript.tail }

/-- Whether the reset input is asserted at this step. -/
def resetAsserted (s : State) : Bool := s.resetPin.head?.getD false

/-- What the block does in one step. With the reset input asserted it is reset and takes no transaction
(70_reset_and_hazards.md R341); while the stream holds a word it waits for the sink and takes none either (R356);
else it takes the host's next transaction, and with none to take it does nothing (R342). -/
def takeTurn (s : State) : Result :=
  let r := { s with resetPin := s.resetPin.tail }
  if resetAsserted s then .next (powerOnReset r)
  else if s.stream ≠ [] then .next (sinkTurn r)
  else match s.hostQueue with
    | [] => .next r
    | t :: rest => transact t { r with hostQueue := rest }

/-- The register number of CMD (10_state.md R22: offset 0x010). -/
def cmdRegister : BitVec 9 := 2#9

/-- The host's next transaction becomes the write of a command word to CMD, and nothing keeps the block from taking it:
the reset input is not asserted and the sink has taken every word (log entry 1). -/
def placeCommand (x : Word) (s : State) : State :=
  { s with hostQueue := .write cmdRegister x :: s.hostQueue, resetPin := [], accepted := s.accepted ++ s.stream,
           stream := [] }

end Sys2Proof.Machine
end

