-- ==== Sys2Proof/Machine/Step.lean ====
section
/-! DEFINITION. One step of the machine, and how a command word comes to be its next command. -/

namespace Sys2Proof.Machine

/-- One step: a reset, an offer to the sink, or a host transaction (see `takeTurn`). -/
def step (s : State) : Host.Outcome State Fault Refusal := takeTurn s

/-- `s` with a row of the opcode table as the host's next CMD write: bits above `nbits` are 0, as in
`decodeTableWord`. -/
def State.withFetchWord (s : State) (nbits w : Nat) : State := placeCommand (BitVec.ofNat 64 (w % 2 ^ nbits)) s

end Sys2Proof.Machine
end

