-- ==== Sys2Proof/Safety.lean ====
section
/-! DEFINITION. What holds of every state a run reaches, in the terms the statements use. -/

namespace Sys2Proof.Machine

/-- The state with an error recorded, every field written out: what `RecordError(code, word)` leaves (60_exceptions.md
R310). -/
def recorded (code : ErrorCode) (w : CmdWord) (s : State) : State :=
  { s with
    err := if s.err.isNone then some code else s.err
    errInfo := if s.err.isNone then w else s.errInfo
    errOvf := if s.err.isNone then s.errOvf else true
    irqPend := s.irqPend ||| 1#3 }

/-- A voice record as the commands leave it (10_state.md R40; 40_generator.md R110 to R112; 44_karplus_strong.md R214,
R215). -/
abbrev voiceOk (vo : Voice) : Prop :=
  freqOK vo.freq = true ∧ gainOK vo.gain = true ∧
    if vo.kind = .ks then
      fLt fZero vo.freq = true ∧ isFinite vo.decay = true ∧ fLe fZero vo.decay = true ∧ fLe vo.decay fOne = true ∧
        2 ≤ vo.len.toNat ∧ vo.ptr.toNat < vo.len.toNat ∧ vo.base.toNat + vo.len.toNat ≤ Config.RAM_WORDS ∧ vo.fsLat ≠ 0
    else vo.decay = fZero ∧ vo.base = 0 ∧ vo.len = 0 ∧ vo.ptr = 0 ∧ vo.fsLat = 0

/-- A stage record as the commands leave it: bypass (43_stage_control.md R190), biquad (41_biquad.md R140, R148), comb or
delay (42_comb_delay.md R170, R171). -/
abbrev stageOk (r : Stage) : Prop :=
  match r.kind with
  | .bypass => r = resetStage
  | .lpf | .hpf | .bpf | .brf | .apf =>
    coefsFinite ⟨r.c0, r.c1, r.c2, r.c3, r.c4⟩ = true ∧ r.g = fZero ∧ r.n = 0 ∧ r.base = 0 ∧ r.w = 0 ∧ r.fsLat ≠ 0
  | .comb | .delay =>
    (r.c0 = fZero ∧ r.c1 = fZero ∧ r.c2 = fZero ∧ r.c3 = fZero ∧ r.c4 = fZero) ∧
      (r.x1 = fZero ∧ r.x2 = fZero ∧ r.y1 = fZero ∧ r.y2 = fZero) ∧
      isFinite r.g = true ∧ fLt (fAbs r.g) fOne = true ∧
      1 ≤ r.n.toNat ∧ r.w.toNat < r.n.toNat ∧ r.base.toNat + r.n.toNat ≤ Config.RAM_WORDS ∧ r.fsLat ≠ 0

/-- The owned regions are pairwise disjoint (10_state.md R48). -/
def regionsDisjoint (s : State) : Prop :=
  ∀ u1 u2 : UnitId, u1 ≠ u2 → ∀ b1 n1 b2 n2 : Nat,
    ownedRegion s u1 = some (b1, n1) → ownedRegion s u2 = some (b2, n2) → b1 + n1 ≤ b2 ∨ b2 + n2 ≤ b1

/-- The error record (10_state.md R26, R27; 60_exceptions.md R301, R310, R312): empty when no error is recorded, never the
reserved code, and PEND_ERR tells whether one is recorded. -/
abbrev errorRecordOk (s : State) : Prop :=
  (s.err = none → s.errOvf = false ∧ s.errInfo = 0) ∧ s.err ≠ some .malformedEventStream ∧
    s.irqPend.getLsbD 0 = s.err.isSome

/-- The latched render parameters passed START's checks, or are the reset values (10_state.md R46, 45_pipeline.md
R241). -/
abbrev renderParamsOk (s : State) : Prop :=
  s.runFs ≠ 0 ∧ 2 ≤ s.runBits.toNat ∧ s.runBits.toNat ≤ 32 ∧ isFinite s.runHeadroom = true ∧
    fLt fZero s.runHeadroom = true

/-- SAMPLE_IDX counts the samples of the render and stops at the latched LENGTH (10_state.md R35, R26). -/
abbrev sampleIndexOk (s : State) : Prop :=
  match s.runState with
  | .idle => s.sampleIdx = 0
  | .running | .aborted => s.sampleIdx.toNat < s.runLength.toNat
  | .done => s.sampleIdx = s.runLength

/-- PCM_LAST is a RUN_BITS-bit two's-complement integer (10_state.md R36, 45_pipeline.md R260). -/
abbrev pcmLastOk (s : State) : Prop :=
  -(fullScale s.runBits.toNat : Int) ≤ s.pcmLast.toInt ∧ s.pcmLast.toInt < (fullScale s.runBits.toNat : Int)

/-- What every reachable state meets. -/
structure Inv (s : State) : Prop where
  memory : s.ram.wf = true
  voices : ∀ v, voiceOk (s.voice v)
  stages : ∀ v st, stageOk (s.stage v st)
  regions : regionsDisjoint s
  errorRecord : errorRecordOk s
  renderParams : renderParamsOk s
  sampleIndex : sampleIndexOk s
  pcmLast : pcmLastOk s

/-! ## The words of the rules, for the statements -/

/-- A CMD write is illegal (30_encoding.md R97), in arithmetic on the written number: bits 63 to 32 are not 0, the op is
undefined, a reserved field of its format is not 0, or the voice or stage index is out of range. -/
def illegalWrite (x : Word) : Prop :=
  let op := x.toNat / 2 ^ 26 % 64
  let v := x.toNat / 2 ^ 22 % 16
  let st := x.toNat / 2 ^ 20 % 4
  let formatZ := op ≤ 0x02 ∨ op = 0x04 ∨ op = 0x05
  let formatV := 0x08 ≤ op ∧ op ≤ 0x10
  let formatVS := 0x18 ≤ op ∧ op ≤ 0x22
  2 ^ 32 ≤ x.toNat ∨
    (op = 0x06 ∨ op = 0x07 ∨ (0x11 ≤ op ∧ op ≤ 0x17) ∨ 0x23 ≤ op) ∨
    (formatZ ∧ x.toNat % 2 ^ 26 ≠ 0) ∨
    (formatV ∧ (x.toNat % 2 ^ 22 ≠ 0 ∨ 8 ≤ v)) ∨
    (formatVS ∧ (x.toNat % 2 ^ 20 ≠ 0 ∨ 8 ≤ v ∨ 2 ≤ st)) ∨
    (op = 0x03 ∧ x.toNat / 2 ^ 20 % 64 ≠ 0)

/-- The errors a legal command may raise (60_exceptions.md R301, R302). -/
def raisedBy : Instr → List ErrorCode
  | .nop | .srst | .oscOff _ | .rdVoice _ | .bypass _ _ | .clrSt _ _ | .rdCoef _ _ | .rdState _ _ => []
  | .oscSine _ | .oscSquare _ | .oscTriangle _ | .oscSawtooth _ | .setGain _ | .oscKs _ | .bqLpf _ _ | .bqHpf _ _
  | .bqBpf _ _ | .bqBrf _ _ | .bqApf _ _ | .comb _ _ | .delay _ _ | .start => [.invalidParameter]
  | .setFreq _ => [.invalidParameter, .stateError]
  | .step _ => [.numericOverflow, .stateError]
  | .ramrd | .ramwr => [.addressError]

/-- The real number a pattern that is no NaN stands for; an infinity counts as 2^1024, the first power of two past the
finite numbers, as it does in rounding. -/
def realValue (x : F64) : ℚ := (signedUnits x : ℚ) / (unitsPerOne : ℚ)

/-- `r` is the number nearest to `exact`, ties to even (00_scope.md R10): it is no NaN, no other number is closer, and if
another one is as close then the last bit of `r` is 0. -/
def roundsTo (r : F64) (exact : ℚ) : Prop :=
  isNaN r = false ∧ ∀ z : F64, isNaN z = false →
    |realValue r - exact| ≤ |realValue z - exact| ∧
      (|realValue r - exact| = |realValue z - exact| → realValue z ≠ realValue r → r.getLsbD 0 = false)

/-- A word address no unit owns (10_state.md R48). -/
def unowned (s : State) (a : Nat) : Prop :=
  ∀ u b n, ownedRegion s u = some (b, n) → ¬ (b ≤ a ∧ a < b + n)

end Sys2Proof.Machine
end

