-- ==== Sys2Proof/Certificates/Slice0/Obligations.lean ====
section
/-! DEFINITION. The statements for the provers: what spec/ says the commands and the block do. `recorded`, `illegalWrite`,
`raisedBy`, `roundsTo`, `unowned` and `Inv` are in Safety.lean. A pattern of hypotheses `v.toNat < NV` is the range of a
decoded voice index. -/

open Sys2Proof Sys2Proof.Machine

/-! ## Encoding (30_encoding.md) -/

/-- 30_encoding.md R92, R94, R96: no bit of an encoding is dropped. -/
def Obligations.DecodeOfEncodeIsTheCommand : Prop :=
  ∀ i : Instr, WellFormed i → decode ((encode i).setWidth 64) = .ok i

/-- 30_encoding.md R94, R96: a CMD write that decodes is the command word of a well-formed command. -/
def Obligations.DecodedWriteIsItsEncoding : Prop :=
  ∀ (x : Word) (i : Instr), decode x = .ok i → WellFormed i ∧ x = (encode i).setWidth 64

/-- 30_encoding.md R97: the illegal writes are exactly these; they record IllegalCommand with the 32-bit word and have no
other effect, and every other write executes a command. -/
def Obligations.IllegalWritesRecordIllegalCommand : Prop :=
  ∀ (x : Word) (s : State),
    (illegalWrite x → issueCommand x s = .next (recorded .illegalCommand (BitVec.ofNat 32 x.toNat) s)) ∧
      (¬ illegalWrite x → ∃ i, decode x = .ok i ∧ WellFormed i ∧ issueCommand x s = exec i s)

/-- 95_test_vectors.md V-E1, V-E2 and 30_encoding.md R94: a few command words. -/
def Obligations.SampleWordsDecode : Prop :=
  decode 0x24000000 = .ok (.oscSine 0) ∧ decode 0x64100000 = .ok (.bqLpf 0 1) ∧ decode 0x0C000008 = .ok (.step 8) ∧
    decode 0x08000000 = .ok .start ∧ decode 0x78400000 = .ok (.comb 1 0) ∧ decode 0x30C00000 = .ok (.oscSawtooth 3) ∧
    decode 0x61500000 = .ok (.bypass 5 1) ∧ decode 0x88400000 = .ok (.rdState 1 0) ∧
    decode 0x0C0FFFFF = .ok (.step 1048575)

/-! ## A step, the host port, the sink, reset -/

/-- 10_state.md R25, 20_memory.md R80: a step whose next host transaction is a CMD write that decodes is exactly that
command, at the state with the transaction taken. Placing a table word makes it the next command.
How host transactions are held and a word is placed is the model's choice (log entry 1). -/
def Obligations.StepRunsDecodedCommand : Prop :=
  (∀ (s : State) (x : Word) (rest : List HostTxn) (i : Instr),
    s.resetPin.head?.getD false = false → s.stream = [] → s.hostQueue = .write 2#9 x :: rest → decode x = .ok i →
      step s = exec i { s with hostQueue := rest, resetPin := s.resetPin.tail }) ∧
    (∀ (s : State) (nbits w : Nat) (i : Instr), decodeTableWord nbits w = some i →
      step (s.withFetchWord nbits w) =
        exec i { s with resetPin := [], accepted := s.accepted ++ s.stream, stream := [] })

/-- 10_state.md R38: a read returns the register's value, unimplemented bits 0, and changes nothing of the block.
The record of replies is the model's (log entry 8). -/
def Obligations.HostReadReturnsRegister : Prop :=
  (∀ s : State,
    readRegister 0#9 s = 0x0053594E54485253#64 ∧ readRegister 1#9 s = 0x0000000001100208#64 ∧ readRegister 2#9 s = 0 ∧
    readRegister 4#9 s = s.errInfo.setWidth 64 ∧
    readRegister 5#9 s = s.irqEn.setWidth 64 ∧ readRegister 6#9 s = s.irqPend.setWidth 64 ∧
    readRegister 7#9 s = s.fs.setWidth 64 ∧ readRegister 8#9 s = s.bits.setWidth 64 ∧
    readRegister 9#9 s = s.headroom ∧ readRegister 10#9 s = s.length ∧ readRegister 11#9 s = s.noise.setWidth 64 ∧
    readRegister 12#9 s = s.sampleIdx ∧ readRegister 13#9 s = s.pcmLast ∧
    (∀ k : Fin 8, readRegister (BitVec.ofNat 9 (16 + k.val)) s = s.p[k.val]) ∧
    (∀ off : BitVec 9, off = 14#9 ∨ off = 15#9 ∨ 24 ≤ off.toNat → readRegister off s = 0)) ∧
  (∀ (s : State) (off : BitVec 9) (rest : List HostTxn),
    s.resetPin.head?.getD false = false → s.stream = [] → s.hostQueue = .read off :: rest →
      step s = .next { s with hostQueue := rest, resetPin := s.resetPin.tail,
                              replies := s.replies ++ [readRegister off s] })

/-- 10_state.md R26 and 60_exceptions.md R301: the fields of STATUS. -/
def Obligations.StatusReadsStateErrAndOverflow : Prop :=
  ∀ s : State,
    (readRegister 3#9 s).extractLsb' 0 2 =
      (match s.runState with | .idle => 0#2 | .running => 1#2 | .done => 2#2 | .aborted => 3#2) ∧
    (readRegister 3#9 s).extractLsb' 2 2 = 0#2 ∧
    (readRegister 3#9 s).extractLsb' 4 4 =
      (match s.err with
        | none => 0#4 | some .invalidParameter => 1#4 | some .malformedEventStream => 2#4
        | some .numericOverflow => 3#4 | some .illegalCommand => 4#4 | some .stateError => 5#4
        | some .addressError => 6#4) ∧
    (readRegister 3#9 s).getLsbD 8 = s.errOvf ∧
    (readRegister 3#9 s).extractLsb' 9 55 = 0#55

/-- 10_state.md R39: what a write does at every offset but CMD and IRQ_PEND: stored with its implemented bits, or ignored
(R28, R30 to R34, R21, R37). A write to CMD issues the command (R25), and a step takes the host's next write, whatever it is,
when the reset input is not asserted and the stream is empty; with no transaction left it does nothing (70_reset_and_hazards.md
R342). How transactions are held is the model's choice (log entry 1). -/
def Obligations.HostWriteStoresOrIsIgnored : Prop :=
  ∀ (s : State) (x : Word),
    writeRegister 5#9 x s = .next { s with irqEn := x.extractLsb' 0 3 } ∧
    writeRegister 7#9 x s = .next { s with fs := x.extractLsb' 0 32 } ∧
    writeRegister 8#9 x s = .next { s with bits := x.extractLsb' 0 8 } ∧
    writeRegister 9#9 x s = .next { s with headroom := x } ∧
    writeRegister 10#9 x s = .next { s with length := x } ∧
    writeRegister 11#9 x s = .next { s with noise := x.extractLsb' 0 32 } ∧
    (∀ k : Fin 8, writeRegister (BitVec.ofNat 9 (16 + k.val)) x s = .next { s with p := s.p.set k.val x }) ∧
    (∀ off : BitVec 9, off.toNat ≤ 1 ∨ off = 3#9 ∨ off = 4#9 ∨ (12 ≤ off.toNat ∧ off.toNat ≤ 15) ∨ 24 ≤ off.toNat →
      writeRegister off x s = .next s) ∧
    writeRegister 2#9 x s = issueCommand x s ∧
    (s.resetPin.head?.getD false = false → s.stream = [] →
      (∀ (off : BitVec 9) (rest : List HostTxn), s.hostQueue = .write off x :: rest →
        step s = writeRegister off x { s with hostQueue := rest, resetPin := s.resetPin.tail }) ∧
      (s.hostQueue = [] → step s = .next { s with resetPin := s.resetPin.tail }))

/-- 60_exceptions.md R312, 10_state.md R29: a write to IRQ_PEND clears the pending bits written 1, bit 0 clears the error
record too, and nothing else changes (the ABORTED state stays). -/
def Obligations.IrqPendWriteClearsBitsAndRecord : Prop :=
  ∀ (s : State) (x : Word), ∃ t, writeRegister 6#9 x s = .next t ∧
    t = { s with irqPend := t.irqPend, err := t.err, errOvf := t.errOvf, errInfo := t.errInfo } ∧
    (∀ k : Fin 3, t.irqPend.getLsbD k.val = (s.irqPend.getLsbD k.val && !x.getLsbD k.val)) ∧
    (x.getLsbD 0 = true → t.err = none ∧ t.errOvf = false ∧ t.errInfo = 0) ∧
    (x.getLsbD 0 = false → t.err = s.err ∧ t.errOvf = s.errOvf ∧ t.errInfo = s.errInfo)

/-- 60_exceptions.md R320: the IRQ line is the OR of the enabled pending bits. It takes its new value when the transaction
completes: with an empty stream every transaction has completed; no command but STEP leaves a word in the stream; a STEP
that does keeps the line's level, and so does every step until the sink has taken the last word, when the line takes its new
value (45_pipeline.md R262). It is deasserted after reset.
How the level is held, and the scripts of the sink and the reset input, are the model's (log entries 21, 6, 7). -/
def Obligations.IrqLineIsOrOfEnabledPending : Prop :=
  let enabled (s : State) : Bool :=
    (s.irqPend.getLsbD 0 && s.irqEn.getLsbD 0) || (s.irqPend.getLsbD 1 && s.irqEn.getLsbD 1) ||
      (s.irqPend.getLsbD 2 && s.irqEn.getLsbD 2)
  (∀ s : State, s.stream = [] → irqLine s = enabled s) ∧
    (∀ (i : Instr) (s t : State), (∀ n, i ≠ .step n) → exec i s = .next t → t.stream = s.stream) ∧
    (∀ (n : BitVec 20) (s t : State), exec (.step n) s = .next t → t.stream ≠ [] → irqLine t = irqLine s) ∧
    (∀ s t : State, s.resetPin.head?.getD false = false → s.stream ≠ [] → step s = .next t →
      irqLine t = if t.stream = [] then enabled s else irqLine s) ∧
    (∀ s : State, irqLine (softReset s) = false ∧ irqLine (powerOnReset s) = false ∧ irqLine State.reset = false)

/-- 70_reset_and_hazards.md R340: what both resets set, and what each does to the sample RAM and the stream. Power-on RAM
words are free values of the model (log entry 5), `irqHeld` is its hold of the IRQ line (log entry 21). -/
def Obligations.ResetSetsEveryRegister : Prop :=
  ∀ s t : State, t = softReset s ∨ t = powerOnReset s ∨ t = State.reset →
    (∀ k : Fin 8, t.p[k.val] = 0) ∧
    (t.runState = .idle ∧ t.err = none ∧ t.errOvf = false ∧ t.errInfo = 0 ∧ t.irqEn = 0 ∧ t.irqPend = 0) ∧
    (t.fs = 44100#32 ∧ t.bits = 16#8 ∧ t.headroom = 0x3FF0000000000000#64 ∧ t.length = 0 ∧ t.noise = 1) ∧
    (t.sampleIdx = 0 ∧ t.pcmLast = 0) ∧
    (t.runFs = 44100#32 ∧ t.runBits = 16#8 ∧ t.runHeadroom = 0x3FF0000000000000#64 ∧ t.runLength = 0) ∧
    (∀ v : Fin Config.NV, t.voices[v.val] =
      { kind := .off, freq := 0, gain := 0x3FF0000000000000#64, decay := 0, base := 0, len := 0, ptr := 0, fsLat := 0 }) ∧
    (∀ (v : Fin Config.NV) (st : Fin Config.NS), t.stages[v.val][st.val] =
      { kind := .bypass, c0 := 0, c1 := 0, c2 := 0, c3 := 0, c4 := 0, x1 := 0, x2 := 0, y1 := 0, y2 := 0, g := 0, n := 0,
        base := 0, w := 0, fsLat := 0 }) ∧
    (irqLine t = false ∧ t.irqHeld = false) ∧
    (t = softReset s → (∀ a, ramWord t a = ramWord s a) ∧ t.stream = s.stream) ∧
    (t = powerOnReset s → (∀ a, ramWord t a = Config.ramInit (s.powerOns + 1) a) ∧ t.stream = [])

/-- 70_reset_and_hazards.md R341: while the reset input is asserted the block is reset and the port takes no transaction.
That the input lands between steps is the model's choice (log entry 7). -/
def Obligations.ResetInputResetsAndHoldsPort : Prop :=
  ∀ (s : State) (rest : List Bool), s.resetPin = true :: rest →
    ∃ t, step s = .next t ∧ t = powerOnReset { s with resetPin := rest } ∧ t.hostQueue = s.hostQueue ∧
      t.replies = s.replies ∧ t.resetPin = rest

/-- 70_reset_and_hazards.md R356, 45_pipeline.md R262, 20_memory.md R81: while the stream holds a word the port takes no
transaction; the oldest word goes to the sink when the sink is ready and is held when it is not; nothing else changes.
The sink's script is the model's (log entry 6). -/
def Obligations.StreamHoldsPortUntilSinkAccepts : Prop :=
  ∀ s : State, s.resetPin.head?.getD false = false → s.stream ≠ [] →
    ∃ t, step s = .next t ∧
      t = { s with stream := t.stream, accepted := t.accepted, sinkScript := s.sinkScript.tail,
                   resetPin := s.resetPin.tail } ∧
      (sinkReady s = true → ∃ x, s.stream = x :: t.stream ∧ t.accepted = s.accepted ++ [x]) ∧
      (sinkReady s = false → t.stream = s.stream ∧ t.accepted = s.accepted)

/-- 70_reset_and_hazards.md R356, R360: a sink that is ready after finitely many refusals takes every word, in order, and
the port is free again; nothing else changes.
The sink's script is the model's (log entry 6). -/
def Obligations.ReadySinkEmptiesStream : Prop :=
  ∀ s : State, s.resetPin = [] → s.sinkRest = true →
    ∃ k sc, k ≤ s.sinkScript.length + s.stream.length ∧
      core.run k s = .next { s with stream := [], accepted := s.accepted ++ s.stream, sinkScript := sc }

/-! ## Errors (60_exceptions.md) -/

/-- 60_exceptions.md R310: RecordError. -/
def Obligations.FirstErrorIsKeptLaterOnesFlagged : Prop :=
  ∀ (code : ErrorCode) (w : CmdWord) (s : State),
    raise code w s = .next (recorded code w s) ∧
    (s.err = none → (recorded code w s).err = some code ∧ (recorded code w s).errInfo = w ∧
      (recorded code w s).errOvf = s.errOvf) ∧
    (∀ e, s.err = some e → (recorded code w s).err = some e ∧ (recorded code w s).errInfo = s.errInfo ∧
      (recorded code w s).errOvf = true) ∧
    (recorded code w s).irqPend.getLsbD 0 = true

/-- 60_exceptions.md R304, first sentence: a command other than a running STEP that records an error does nothing else;
one that does not leaves the record alone (SRST apart, which clears it).
What exec does on a term no word stands for is the model's choice (log entry 9). -/
def Obligations.ErrorsArePrecise : Prop :=
  ∀ (i : Instr) (s t : State), exec i s = .next t → i ≠ .srst →
    (∀ n, i = .step n → s.runState ≠ .running) →
      (∃ code, t = recorded code (encode i) s) ∨
        (t.err = s.err ∧ t.errOvf = s.errOvf ∧ t.errInfo = s.errInfo ∧
          t.irqPend.getLsbD 0 = s.irqPend.getLsbD 0)

/-- 60_exceptions.md R301, R302: which errors a CMD write can record, and that MalformedEventStream is never one. -/
def Obligations.OnlyListedErrorsAreRaised : Prop :=
  ∀ (x : Word) (s t : State) (e : ErrorCode), issueCommand x s = .next t → s.err = none → t.err = some e →
    e ≠ .malformedEventStream ∧
      ((illegalWrite x ∧ e = .illegalCommand) ∨ ∃ i, decode x = .ok i ∧ e ∈ raisedBy i)

/-! ## The invariant -/

/-- The reset state meets the invariant. -/
def Obligations.ResetMeetsInvariant : Prop := Inv State.reset

/-- 10_state.md R48, R40, R44, R26, R27, R35, R36 and 60_exceptions.md R301, R310: every step keeps the invariant: the RAM
keeps its canonical form, records stay legal, owned regions stay disjoint and inside the RAM, cursors stay inside their
buffers, the error record and the sample index stay consistent.
The RAM's canonical form is the model's (log entry 11). -/
def Obligations.StepKeepsInvariant : Prop :=
  ∀ s t : State, Inv s → step s = .next t → Inv t

/-- 20_memory.md R72: no rule accesses a sample-RAM word that does not exist; so no step stops. -/
def Obligations.InvariantStatesStep : Prop := ∀ s : State, Inv s → ∃ t, step s = .next t

/-- 60_exceptions.md R300: whatever the host sends, whatever the sink does and whenever the reset input is asserted, the
block never stops.
The scripts are the model's (log entries 1, 6, 7). -/
def Obligations.NoHostScriptStopsTheBlock : Prop :=
  ∀ (q : List HostTxn) (sc : List Bool) (ready : Bool) (pin : List Bool) (k : Nat),
    ∃ t, core.run k { State.reset with hostQueue := q, sinkScript := sc, sinkRest := ready, resetPin := pin } = .next t

/-! ## Block control and sample RAM (46_system.md) -/

/-- 46_system.md R280. -/
def Obligations.NopChangesNothing : Prop := ∀ s : State, exec .nop s = .next s

/-- 46_system.md R281: SRST resets everything but the sample RAM and the stream (the model's own fields stay too).
That those fields stay is the model's choice (log entries 1, 3, 5, 6, 7, 8). -/
def Obligations.SrstResetsAllButRamAndStream : Prop :=
  ∀ s : State, exec .srst s = .next
    { State.reset with
      ram := s.ram, stream := s.stream, accepted := s.accepted, hostQueue := s.hostQueue, replies := s.replies,
      sinkScript := s.sinkScript, sinkRest := s.sinkRest, resetPin := s.resetPin, freeTick := s.freeTick,
      powerOns := s.powerOns }

/-- 46_system.md R282, R283. -/
def Obligations.RamrdReadsWordOrRecordsAddressError : Prop :=
  ∀ s : State,
    (s.p[1].toNat < 65536 → exec .ramrd s = .next { s with p := s.p.set 0 (ramWord s s.p[1].toNat) }) ∧
    (65536 ≤ s.p[1].toNat → exec .ramrd s = .next (recorded .addressError 0x10000000#32 s))

/-- 46_system.md R282, R284 and 20_memory.md R72: the word is stored, every other word reads as before, and nothing else
changes. -/
def Obligations.RamwrStoresWordOrRecordsAddressError : Prop :=
  ∀ s : State,
    (s.p[1].toNat < 65536 → ∃ t, exec .ramwr s = .next t ∧ t = { s with ram := t.ram } ∧
      ∀ a, ramWord t a = if a = s.p[1].toNat then s.p[0] else ramWord s a) ∧
    (65536 ≤ s.p[1].toNat → exec .ramwr s = .next (recorded .addressError 0x14000000#32 s))

/-! ## Voices (40_generator.md) -/

/-- 40_generator.md R112 to R115 with R111: the four oscillator constructions, on parameters that pass the check and on
parameters that do not. -/
def Obligations.OscillatorConstruction : Prop :=
  ∀ (s : State) (v : BitVec 4) (hv : v.toNat < Config.NV),
    ∀ row ∈ [(Instr.oscSine v, VoiceKind.sine), (.oscSquare v, .square), (.oscTriangle v, .triangle),
      (.oscSawtooth v, .sawtooth)],
      (isFinite s.p[0] = true ∧ fLe fZero s.p[0] = true ∧ isFinite s.p[1] = true →
        exec row.1 s = .next { s with
          voices := s.voices.set v.toNat
            { kind := row.2, freq := s.p[0], gain := s.p[1], decay := 0, base := 0, len := 0, ptr := 0, fsLat := 0 } }) ∧
      (¬ (isFinite s.p[0] = true ∧ fLe fZero s.p[0] = true ∧ isFinite s.p[1] = true) →
        exec row.1 s = .next (recorded .invalidParameter (encode row.1) s))

/-- 40_generator.md R110. -/
def Obligations.OscOffDisablesVoice : Prop :=
  ∀ (s : State) (v : BitVec 4) (hv : v.toNat < Config.NV),
    exec (.oscOff v) s = .next { s with
      voices := s.voices.set v.toNat
        { s.voices[v.toNat] with kind := .off, decay := 0, base := 0, len := 0, ptr := 0, fsLat := 0 } }

/-- 40_generator.md R116: only an oscillator voice takes a new frequency; the checks in order. -/
def Obligations.SetfreqChangesOscillatorFrequency : Prop :=
  ∀ (s : State) (v : BitVec 4) (hv : v.toNat < Config.NV),
    let kind := s.voices[v.toNat].kind
    ((kind = .off ∨ kind = .ks) → exec (.setFreq v) s = .next (recorded .stateError (encode (.setFreq v)) s)) ∧
    (kind ≠ .off → kind ≠ .ks → ¬ (isFinite s.p[0] = true ∧ fLe fZero s.p[0] = true) →
      exec (.setFreq v) s = .next (recorded .invalidParameter (encode (.setFreq v)) s)) ∧
    (kind ≠ .off → kind ≠ .ks → isFinite s.p[0] = true ∧ fLe fZero s.p[0] = true →
      exec (.setFreq v) s = .next { s with voices := s.voices.set v.toNat { s.voices[v.toNat] with freq := s.p[0] } })

/-- 40_generator.md R117. -/
def Obligations.SetgainChangesGain : Prop :=
  ∀ (s : State) (v : BitVec 4) (hv : v.toNat < Config.NV),
    (isFinite s.p[0] = true → exec (.setGain v) s = .next
      { s with voices := s.voices.set v.toNat { s.voices[v.toNat] with gain := s.p[0] } }) ∧
    (isFinite s.p[0] = false → exec (.setGain v) s = .next (recorded .invalidParameter (encode (.setGain v)) s))

/-- 40_generator.md R118, with the codes of 10_state.md R41: the record goes to P0..P7 and nothing else changes. -/
def Obligations.RdvoiceCopiesRecord : Prop :=
  ∀ (s : State) (v : BitVec 4) (hv : v.toNat < Config.NV),
    let vo := s.voices[v.toNat]
    exec (.rdVoice v) s = .next { s with
      p := #v[(match vo.kind with | .off => 0 | .sine => 1 | .square => 2 | .triangle => 3 | .sawtooth => 4 | .ks => 5),
        vo.freq, vo.gain, vo.decay, vo.base.setWidth 64, vo.len.setWidth 64, vo.ptr.setWidth 64, vo.fsLat.setWidth 64] }

/-- 40_generator.md R120: the phase of a finite f * t is its exact fractional part, in [0.0, 1.0); else it is a NaN. -/
def Obligations.PhaseIsExactFraction : Prop :=
  ∀ (c : Config.At) (f t : F64), isFinite f = true → fLe fZero f = true → isFinite t = true → fLe fZero t = true →
    (isFinite (fMul c f t) = true →
      isFinite (phase c f t) = true ∧ fLe fZero (phase c f t) = true ∧ fLt (phase c f t) fOne = true ∧
        signedUnits (phase c f t) = signedUnits (fMul c f t) % (unitsPerOne : Int)) ∧
    (isFinite (fMul c f t) = false → isNaN (phase c f t) = true)

/-- 40_generator.md R125: every waveform stays in [-1.0, 1.0]. -/
def Obligations.WaveformsStayInRange : Prop :=
  ∀ (c : Config.At) (f t : F64), isFinite f = true → fLe fZero f = true → isFinite t = true → fLe fZero t = true →
    isFinite (fMul c f t) = true →
      ∀ y ∈ [sineWave c f t, squareWave c f t, triangleWave c f t, sawWave c f t],
        isFinite y = true ∧ fLe fMinusOne y = true ∧ fLe y fOne = true

/-- 40_generator.md R121 to R124: the sine is SIN64 of the one product TWO_PI * p; the three waveforms that call no SIN64 are
exact real functions of the phase p, the sawtooth the one rounding of 2p - 1 (R124's formula; log entry 20 says where its last
sentence disagrees). Where f * t overflows each is a NaN. -/
def Obligations.WaveformsAreTheirFormulas : Prop :=
  ∀ (c : Config.At) (f t : F64), isFinite f = true → fLe fZero f = true → isFinite t = true → fLe fZero t = true →
    (isFinite (fMul c f t) = true →
      let p := realValue (phase c f t)
      sineWave c f t = sin64 (fMul c Config.TWO_PI (phase c f t)) ∧
      realValue (squareWave c f t) = (if p < 1 / 2 then 1 else -1) ∧
      realValue (triangleWave c f t) = (if p < 1 / 4 then 4 * p else if p < 3 / 4 then 2 - 4 * p else 4 * p - 4) ∧
      isNaN (squareWave c f t) = false ∧ isNaN (triangleWave c f t) = false ∧
      roundsTo (sawWave c f t) (2 * p - 1)) ∧
    (isFinite (fMul c f t) = false →
      isNaN (sineWave c f t) = true ∧ isNaN (squareWave c f t) = true ∧ isNaN (triangleWave c f t) = true ∧
        isNaN (sawWave c f t) = true)

/-! ## Filter stages (41_biquad.md, 42_comb_delay.md, 43_stage_control.md) -/

/-- 41_biquad.md R149 with R141 to R148: the five biquad constructions, on parameters that pass the check: the stage gets
the normalized coefficients of its kind with zero memory, or InvalidParameter when one of them is not finite. That the
quotients are the formulas' also where a negative sine makes a0 negative or zero (a band-pass c1 of -0.0 against R152's
corner case; a refusal without an overflow of alpha against R148's parenthesis) is the model's choice (log entry 23). -/
def Obligations.BiquadConstructionDerivesCoefficients : Prop :=
  ∀ (s : State) (v : BitVec 4) (st : BitVec 2) (hv : v.toNat < Config.NV) (hs : st.toNat < Config.NS),
    let c := commandPlace s
    let fc := s.p[0]
    let q := s.p[1]
    s.fs ≠ 0 → isFinite fc = true → fLt fZero fc = true → fLt fc (fDiv c (fOfNat s.fs.toNat) fTwo) = true →
    isFinite q = true → fLt fZero q = true →
    let w0 := fDiv c (fMul c Config.TWO_PI fc) (fOfNat s.fs.toNat)
    let cw := cos64 w0
    let sw := sin64 w0
    let alpha := fDiv c sw (fMul c fTwo q)
    let a0 := fAdd c fOne alpha
    let a1 := fMul c fMinusTwo cw
    let a2 := fSub c fOne alpha
    let built (kind : StageKind) (b0 b1 b2 : F64) : Stage :=
      { kind := kind, c0 := fDiv c b0 a0, c1 := fDiv c b1 a0, c2 := fDiv c b2 a0, c3 := fDiv c a1 a0,
        c4 := fDiv c a2 a0, x1 := 0, x2 := 0, y1 := 0, y2 := 0, g := 0, n := 0, base := 0, w := 0, fsLat := s.fs }
    ∀ row ∈ [(Instr.bqLpf v st, built .lpf (fDiv c (fSub c fOne cw) fTwo) (fSub c fOne cw) (fDiv c (fSub c fOne cw) fTwo)),
      (.bqHpf v st, built .hpf (fDiv c (fAdd c fOne cw) fTwo) (fNeg (fAdd c fOne cw)) (fDiv c (fAdd c fOne cw) fTwo)),
      (.bqBpf v st, built .bpf alpha fZero (fNeg alpha)),
      (.bqBrf v st, built .brf fOne (fMul c fMinusTwo cw) fOne),
      (.bqApf v st, built .apf (fSub c fOne alpha) (fMul c fMinusTwo cw) (fAdd c fOne alpha))],
      ((isFinite row.2.c0 && isFinite row.2.c1 && isFinite row.2.c2 && isFinite row.2.c3 && isFinite row.2.c4) = true →
        exec row.1 s = .next { s with stages := s.stages.set v.toNat (s.stages[v.toNat].set st.toNat row.2) }) ∧
      ((isFinite row.2.c0 && isFinite row.2.c1 && isFinite row.2.c2 && isFinite row.2.c3 && isFinite row.2.c4) = false →
        exec row.1 s = .next (recorded .invalidParameter (encode row.1) s))

/-- 41_biquad.md R141: parameters that fail the check are refused, and nothing but the error record changes. -/
def Obligations.BiquadConstructionRefusesBadParameters : Prop :=
  ∀ (s : State) (v : BitVec 4) (st : BitVec 2), v.toNat < Config.NV → st.toNat < Config.NS →
    (s.fs = 0 ∨ isFinite s.p[0] = false ∨ fLt fZero s.p[0] = false ∨
      fLt s.p[0] (fDiv (commandPlace s) (fOfNat s.fs.toNat) fTwo) = false ∨ isFinite s.p[1] = false ∨
      fLt fZero s.p[1] = false) →
    ∀ i ∈ [Instr.bqLpf v st, .bqHpf v st, .bqBpf v st, .bqBrf v st, .bqApf v st],
      exec i s = .next (recorded .invalidParameter (encode i) s)

/-- 42_comb_delay.md R172 with R171 and 20_memory.md R76: COMB and DELAY on parameters that pass the check: the region is
filled with +0.0, every other RAM word and everything else stays, and the stage is built; on others the command is
refused. -/
def Obligations.CombDelayConstruction : Prop :=
  ∀ (s : State) (v : BitVec 4) (st : BitVec 2) (hv : v.toNat < Config.NV) (hs : st.toNat < Config.NS),
    let n := s.p[1].toNat
    let b := s.p[2].toNat
    let ok := s.fs ≠ 0 ∧ isFinite s.p[0] = true ∧ fLt (fAbs s.p[0]) fOne = true ∧
      (1 ≤ n ∧ b < 65536 ∧ n ≤ 65536 - b) ∧
      ∀ u b2 n2, u ≠ UnitId.stage ⟨v.toNat, hv⟩ ⟨st.toNat, hs⟩ → ownedRegion s u = some (b2, n2) →
        b + n ≤ b2 ∨ b2 + n2 ≤ b
    ∀ row ∈ [(Instr.comb v st, StageKind.comb), (.delay v st, .delay)],
      (ok → ∃ t, exec row.1 s = .next t ∧
        t = { s with
          ram := t.ram
          stages := s.stages.set v.toNat (s.stages[v.toNat].set st.toNat
            { kind := row.2, c0 := 0, c1 := 0, c2 := 0, c3 := 0, c4 := 0, x1 := 0, x2 := 0, y1 := 0, y2 := 0,
              g := s.p[0], n := BitVec.ofNat 32 n, base := BitVec.ofNat 32 b, w := 0, fsLat := s.fs }) } ∧
        ∀ a, ramWord t a = if b ≤ a ∧ a < b + n then 0 else ramWord s a) ∧
      (¬ ok → exec row.1 s = .next (recorded .invalidParameter (encode row.1) s))

/-- 43_stage_control.md R190. -/
def Obligations.BypassRemovesFilter : Prop :=
  ∀ (s : State) (v : BitVec 4) (st : BitVec 2) (hv : v.toNat < Config.NV) (hs : st.toNat < Config.NS),
    exec (.bypass v st) s = .next { s with
      stages := s.stages.set v.toNat (s.stages[v.toNat].set st.toNat
        { kind := .bypass, c0 := 0, c1 := 0, c2 := 0, c3 := 0, c4 := 0, x1 := 0, x2 := 0, y1 := 0, y2 := 0, g := 0,
          n := 0, base := 0, w := 0, fsLat := 0 }) }

/-- 43_stage_control.md R191: CLRST clears the recursion memory alone; a comb or delay buffer inside the RAM is filled with
+0.0. -/
def Obligations.ClrstClearsRecursionMemory : Prop :=
  ∀ (s : State) (v : BitVec 4) (st : BitVec 2) (hv : v.toNat < Config.NV) (hs : st.toNat < Config.NS),
    let r := s.stages[v.toNat][st.toNat]
    (r.kind = .bypass → exec (.clrSt v st) s = .next s) ∧
    (r.kind ∈ [StageKind.lpf, .hpf, .bpf, .brf, .apf] → exec (.clrSt v st) s = .next { s with
      stages := s.stages.set v.toNat (s.stages[v.toNat].set st.toNat { r with x1 := 0, x2 := 0, y1 := 0, y2 := 0 }) }) ∧
    (r.kind ∈ [StageKind.comb, .delay] → r.base.toNat + r.n.toNat ≤ 65536 → ∃ t, exec (.clrSt v st) s = .next t ∧
      t = { s with
        ram := t.ram
        stages := s.stages.set v.toNat (s.stages[v.toNat].set st.toNat { r with w := 0 }) } ∧
      ∀ a, ramWord t a = if r.base.toNat ≤ a ∧ a < r.base.toNat + r.n.toNat then 0 else ramWord s a)

/-- 43_stage_control.md R192, with the codes of 10_state.md R45. -/
def Obligations.RdcoefCopiesDesign : Prop :=
  ∀ (s : State) (v : BitVec 4) (st : BitVec 2) (hv : v.toNat < Config.NV) (hs : st.toNat < Config.NS),
    let r := s.stages[v.toNat][st.toNat]
    exec (.rdCoef v st) s = .next { s with
      p := #v[r.c0, r.c1, r.c2, r.c3, r.c4,
        (match r.kind with
          | .bypass => 0 | .lpf => 1 | .hpf => 2 | .bpf => 3 | .brf => 4 | .apf => 5 | .comb => 6 | .delay => 7),
        r.fsLat.setWidth 64, r.g] }

/-- 43_stage_control.md R193. -/
def Obligations.RdstateCopiesMemory : Prop :=
  ∀ (s : State) (v : BitVec 4) (st : BitVec 2) (hv : v.toNat < Config.NV) (hs : st.toNat < Config.NS),
    let r := s.stages[v.toNat][st.toNat]
    exec (.rdState v st) s = .next { s with
      p := #v[r.x1, r.x2, r.y1, r.y2, r.n.setWidth 64, r.base.setWidth 64, r.w.setWidth 64, 0] }

/-- 43_stage_control.md R194 with 42_comb_delay.md R173, R174 and 41_biquad.md R155: what one stage step returns and what
it changes, for each kind, where the stage's cursor is inside the RAM. That the cursor's address is a u32 sum is the model's
inference (log entry 12, DEDUCED). -/
def Obligations.StageStepByKind : Prop :=
  ∀ (s : State) (tick : Nat) (v : Fin Config.NV) (st : Fin Config.NS) (x : F64),
    let r := s.stages[v.val][st.val]
    let c : Config.At := ⟨tick, .stage v st⟩
    let a := (r.base + r.w).toNat
    let d := ramWord s a
    let y := fAdd c x (fMul c r.g d)
    let w' := if r.w + 1 = r.n then 0 else r.w + 1
    let moved := s.stages.set v.val (s.stages[v.val].set st.val { r with w := w' })
    (r.kind = .bypass → stageStep tick v st x s = .ok (x, s)) ∧
    (r.kind ∈ [StageKind.lpf, .hpf, .bpf, .brf, .apf] →
      let z := fSub c (fSub c (fAdd c (fAdd c (fMul c r.c0 x) (fMul c r.c1 r.x1)) (fMul c r.c2 r.x2)) (fMul c r.c3 r.y1))
        (fMul c r.c4 r.y2)
      stageStep tick v st x s = .ok (z, { s with
        stages := s.stages.set v.val (s.stages[v.val].set st.val { r with x2 := r.x1, x1 := x, y2 := r.y1, y1 := z }) })) ∧
    (r.kind = .comb → a < 65536 → ∃ t, stageStep tick v st x s = .ok (y, t) ∧
      t = { s with ram := t.ram, stages := moved } ∧ ∀ b, ramWord t b = if b = a then y else ramWord s b) ∧
    (r.kind = .delay → a < 65536 → ∃ t, stageStep tick v st x s = .ok (y, t) ∧
      t = { s with ram := t.ram, stages := moved } ∧ ∀ b, ramWord t b = if b = a then x else ramWord s b)

/-! ## Karplus-Strong (44_karplus_strong.md) -/

/-- 44_karplus_strong.md R215 with R213, R214 and R211: OSC_KS on parameters that pass the check: NOISE advances by L
draws, the region holds the drawn values in ascending order, every other RAM word and everything else stays, and the voice
is built; on others the command is refused. -/
def Obligations.KarplusStrongConstruction : Prop :=
  ∀ (s : State) (v : BitVec 4) (hv : v.toNat < Config.NV),
    let c := commandPlace s
    let f := s.p[0]
    let b := s.p[3].toNat
    let ratio := fDiv c (fOfNat s.fs.toNat) f
    let len := (roundHalfAway ratio).toNat
    let ok := s.fs ≠ 0 ∧ (isFinite f = true ∧ fLt fZero f = true) ∧ isFinite s.p[1] = true ∧
      (isFinite s.p[2] = true ∧ fLe fZero s.p[2] = true ∧ fLe s.p[2] fOne = true) ∧ isFinite ratio = true ∧
      2 ≤ roundHalfAway ratio ∧ (b < 65536 ∧ len ≤ 65536 - b) ∧
      (∀ u b2 n2, u ≠ UnitId.voice ⟨v.toNat, hv⟩ → ownedRegion s u = some (b2, n2) → b + len ≤ b2 ∨ b2 + n2 ≤ b) ∧
      s.noise ≠ 0
    (ok → ∃ t, exec (.oscKs v) s = .next t ∧
      t = { s with
        ram := t.ram
        noise := xorshift32^[len] s.noise
        voices := s.voices.set v.toNat
          { kind := .ks, freq := f, gain := s.p[1], decay := s.p[2], base := BitVec.ofNat 32 b,
            len := BitVec.ofNat 32 len, ptr := 0, fsLat := s.fs } } ∧
      ∀ a, ramWord t a =
        if b ≤ a ∧ a < b + len then
          noiseValue c (xorshift32^[a - b + 1] s.noise)
        else ramWord s a) ∧
    (¬ ok → exec (.oscKs v) s = .next (recorded .invalidParameter (encode (.oscKs v)) s))

/-- 44_karplus_strong.md R211: the generator never reaches 0 from a non-zero state. -/
def Obligations.NoiseStaysNonZero : Prop := ∀ x : BitVec 32, xorshift32 x = 0 ↔ x = 0

/-- 44_karplus_strong.md R211: a noise value is the exact quotient sint32(x) / 2^31. -/
def Obligations.NoiseValueIsExact : Prop :=
  ∀ (c : Config.At) (x : BitVec 32),
    isFinite (noiseValue c x) = true ∧ realValue (noiseValue c x) = (x.toInt : ℚ) / 2147483648

/-- 44_karplus_strong.md R212: the first six draws from the reset seed, with the encodings of their values (V-K2 of
95_test_vectors.md). -/
def Obligations.FirstNoiseDraws : Prop :=
  ∀ c : Config.At, State.reset.noise = 1 ∧ (List.range 6).map (fun k => xorshift32^[k + 1] 1) =
      [0x00042021#32, 0x04080601#32, 0x9DCCA8C5#32, 0x1255994F#32, 0x8EF917D1#32, 0x2C6F5BD0#32] ∧
    (List.range 6).map (fun k => noiseValue c (xorshift32^[k + 1] 1)) =
      [0x3F20808400000000#64, 0x3FA0201804000000#64, 0xBFE88CD5CEC00000#64, 0x3FC255994F000000#64,
        0xBFEC41BA0BC00000#64, 0x3FD637ADE8000000#64]

/-- 44_karplus_strong.md R213: 44100 / 440 gives a buffer of 100 samples. -/
def Obligations.KarplusStrongLengthOfA440 : Prop :=
  ∀ c : Config.At, ksLength c 0x407B800000000000#64 44100#32 = 100

/-- 44_karplus_strong.md R216: one step of the string, where its two oldest words are inside the RAM. That a NaN or infinity in
the buffer takes R216's steps, and does not abort the render at the next read as 70_reset_and_hazards.md R353 says, is the
model's choice (log entry 22, DESIGN CHOICE); that the addresses are u32 sums is its inference (log entry 12, DEDUCED). -/
def Obligations.StringStepAveragesOldestTwo : Prop :=
  ∀ (s : State) (tick : Nat) (v : Fin Config.NV),
    let vo := s.voices[v.val]
    let c : Config.At := ⟨tick, .generator v⟩
    let nx := if vo.ptr + 1 = vo.len then 0 else vo.ptr + 1
    let a := ramWord s (vo.base + vo.ptr).toNat
    let b := ramWord s (vo.base + nx).toNat
    (vo.base + vo.ptr).toNat < 65536 → (vo.base + nx).toNat < 65536 →
      ∃ t, ksStep tick v s = .ok (clamp1 a, t) ∧
        t = { s with ram := t.ram, voices := s.voices.set v.val { vo with ptr := nx } } ∧
        ∀ w, ramWord t w =
          if w = (vo.base + vo.ptr).toNat then fMul c vo.decay (fMul c (fAdd c a b) fHalf) else ramWord s w

/-- 44_karplus_strong.md R217: with 0 <= d <= 1 and buffer values in [-1, 1] every value a string writes is in [-1, 1]. -/
def Obligations.StringStaysInRange : Prop :=
  ∀ (c : Config.At) (d a b : F64), isFinite d = true → fLe fZero d = true → fLe d fOne = true →
    inUnitRange a = true → inUnitRange b = true → inUnitRange (ksDamp c d a b) = true

/-! ## The pipeline (45_pipeline.md) -/

/-- 45_pipeline.md R240 with R241: START on a state that passes the render check, and on one that does not. -/
def Obligations.StartLatchesOrRefuses : Prop :=
  ∀ s : State,
    let ok := s.fs ≠ 0 ∧ (2 ≤ s.bits.toNat ∧ s.bits.toNat ≤ 32) ∧
      (isFinite s.headroom = true ∧ fLt fZero s.headroom = true) ∧
      (∀ v : Fin Config.NV, s.voices[v.val].kind = .ks → s.voices[v.val].fsLat = s.fs) ∧
      (∀ (v : Fin Config.NV) (st : Fin Config.NS), s.stages[v.val][st.val].kind ≠ .bypass →
        s.stages[v.val][st.val].fsLat = s.fs)
    let latched : State :=
      { s with runFs := s.fs, runBits := s.bits, runHeadroom := s.headroom, runLength := s.length, sampleIdx := 0,
               pcmLast := 0 }
    (ok → s.length = 0 → exec .start s = .next { latched with runState := .done, irqPend := s.irqPend ||| 2#3 }) ∧
    (ok → s.length ≠ 0 → exec .start s = .next { latched with runState := .running }) ∧
    (¬ ok → exec .start s = .next (recorded .invalidParameter 0x08000000#32 s))

/-- 45_pipeline.md R245: STEP in IDLE or ABORTED records StateError; in DONE, or with n = 0 in RUNNING, it does nothing. -/
def Obligations.StepOutsideRender : Prop :=
  ∀ (s : State) (n : BitVec 20),
    (s.runState = .idle ∨ s.runState = .aborted →
      exec (.step n) s = .next (recorded .stateError (0x0C000000#32 ||| n.setWidth 32) s)) ∧
    (s.runState = .done → exec (.step n) s = .next s) ∧
    (s.runState = .running → n = 0 → exec (.step n) s = .next s)

/-- 45_pipeline.md R245 with R250, R252 and R262: STEP in RUNNING completes: it emits at most n words; it stops RUNNING
with n words, DONE with the render's last word, or ABORTED with the error recorded; the IRQ line keeps its level when words
are emitted (60_exceptions.md R320). It changes nothing but the render state, the stream, the error record, the pending bits,
the recursion memories of the units and the words they own.
`freeTick` is the model's counter of free values (log entry 3), `irqHeld` its hold of the IRQ line (log entry 21). -/
def Obligations.RunningStepCompletes : Prop :=
  ∀ (s : State) (n : BitVec 20), Inv s → s.runState = .running →
    ∃ t ws, exec (.step n) s = .next t ∧
      t = { s with
        stream := s.stream ++ ws, sampleIdx := t.sampleIdx, pcmLast := t.pcmLast, runState := t.runState,
        irqPend := t.irqPend, irqHeld := if ws = [] then s.irqHeld else irqLine s, err := t.err, errOvf := t.errOvf,
        errInfo := t.errInfo, voices := t.voices, stages := t.stages, ram := t.ram,
        freeTick := t.freeTick } ∧
      ws.length ≤ n.toNat ∧ t.sampleIdx.toNat = s.sampleIdx.toNat + ws.length ∧
      (∀ w, ws.getLast? = some w → t.pcmLast = w.signExtend 64) ∧
      (ws = [] → t.pcmLast = s.pcmLast) ∧
      ((t.runState = .running ∧ ws.length = n.toNat ∧ t.irqPend = s.irqPend ∧
          t.err = s.err ∧ t.errOvf = s.errOvf ∧ t.errInfo = s.errInfo) ∨
        (t.runState = .done ∧ t.sampleIdx = s.runLength ∧ t.irqPend = s.irqPend ||| 2#3 ∧
          t.err = s.err ∧ t.errOvf = s.errOvf ∧ t.errInfo = s.errInfo) ∨
        (t.runState = .aborted ∧ ws.length < n.toNat ∧
          t.irqPend = (recorded .numericOverflow (encode (.step n)) s).irqPend ||| 4#3 ∧
          t.err = (recorded .numericOverflow (encode (.step n)) s).err ∧
          t.errOvf = (recorded .numericOverflow (encode (.step n)) s).errOvf ∧
          t.errInfo = (recorded .numericOverflow (encode (.step n)) s).errInfo)) ∧
      (∀ v : Fin Config.NV, t.voices[v.val] = { s.voices[v.val] with ptr := t.voices[v.val].ptr }) ∧
      (∀ (v : Fin Config.NV) (st : Fin Config.NS), t.stages[v.val][st.val] =
        { s.stages[v.val][st.val] with
          x1 := t.stages[v.val][st.val].x1, x2 := t.stages[v.val][st.val].x2, y1 := t.stages[v.val][st.val].y1,
          y2 := t.stages[v.val][st.val].y2, w := t.stages[v.val][st.val].w }) ∧
      (∀ a, unowned s a → ramWord t a = ramWord s a)

/-- 45_pipeline.md R245: asking for a + b samples is asking for a and then for b, unless the second request aborts (the
recorded command word differs then). -/
def Obligations.StepsAddUp : Prop :=
  ∀ (s t u : State) (a b : BitVec 20), a.toNat + b.toNat < 2 ^ 20 → s.runState = .running ∨ s.runState = .done →
    exec (.step a) s = .next t → exec (.step b) t = .next u → u.runState = .running ∨ u.runState = .done →
      exec (.step (a + b)) s = .next u

/-- 45_pipeline.md R250: the end of a sample step, from the mix and the state its units leave: a finite mix is quantized,
emitted and counted; another one aborts the render, keeps the unit updates, and emits nothing (R252, 60_exceptions.md
R304). And 45_pipeline.md R245: in RUNNING and DONE, STEP n is n times that sample step, with its own command word, as long as
the render is RUNNING; so STEP 1 in RUNNING is one sample step.
`irqHeld` is the model's hold of the IRQ line while the STEP is incomplete (log entry 21). -/
def Obligations.SampleStepEmitsOrAborts : Prop :=
  (∀ (w : CmdWord) (s u : State) (m : F64), mixSample s = .ok (m, u) →
    let q := quantize ⟨s.freeTick, .mixer⟩ m u.runBits.toNat
    let last := u.sampleIdx + 1 = u.runLength
    (isFinite m = true → sampleStep w s = .ok { u with
      stream := u.stream ++ [BitVec.ofInt 32 q], irqHeld := irqLine u, pcmLast := BitVec.ofInt 64 q,
      sampleIdx := u.sampleIdx + 1,
      runState := if last then .done else u.runState, irqPend := if last then u.irqPend ||| 2#3 else u.irqPend }) ∧
    (isFinite m = false → sampleStep w s =
      .ok (recorded .numericOverflow w { u with runState := .aborted, irqPend := u.irqPend ||| 4#3 }))) ∧
  (∀ s : State, s.runState = .running → exec (.step 1) s = outcome (sampleStep (encode (.step 1)) s)) ∧
  (∀ (s : State) (n : BitVec 20), s.runState = .running ∨ s.runState = .done →
    let turn (u : State) : Except Fault State :=
      if u.runState = .running then sampleStep (encode (.step n)) u else .ok u
    exec (.step n) s = outcome ((fun r : Except Fault State => r.bind turn)^[n.toNat] (.ok s)))

/-- 45_pipeline.md R250, R251, R255, R256 with 43_stage_control.md R194: in every state, the mix is computed voice by voice in
ascending order from +0.0: an OFF voice is skipped; of any other the generator's value goes through stage 0, its output
through stage 1, the gain is applied after that and the product added; each unit works on the state the one before left. The
sum is divided by RUN_HEADROOM, at t = f64(i) / f64(RUN_FS). With oscillators and bypassed stages alone that is a plain sum.
`freeTick` is the model's counter of free values (log entry 3). -/
def Obligations.OscillatorMixIsOrderedSum : Prop :=
  ∀ s : State,
    let m : Config.At := ⟨s.freeTick, .mixer⟩
    let t := fDiv m (fOfNat s.sampleIdx.toNat) (fOfNat s.runFs.toNat)
    let wave (v : Fin Config.NV) (vo : Voice) : F64 :=
      let c : Config.At := ⟨s.freeTick, .generator v⟩
      match vo.kind with
      | .sine => sineWave c vo.freq t
      | .square => squareWave c vo.freq t
      | .triangle => triangleWave c vo.freq t
      | _ => sawWave c vo.freq t
    let turn (r : F64 × State) (v : Fin Config.NV) : Except Fault (F64 × State) :=
      let vo := r.2.voices[v.val]
      if vo.kind = .off then .ok r
      else
        (if vo.kind = .ks then ksStep s.freeTick v r.2 else .ok (wave v vo, r.2)).bind fun g =>
          (stageStep s.freeTick v 0 g.1 g.2).bind fun a =>
            (stageStep s.freeTick v 1 a.1 a.2).map fun b => (fAdd m r.1 (fMul m b.1 vo.gain), b.2)
    mixSample s = ((List.finRange Config.NV).foldlM turn (fZero, s)).map (fun r =>
        (fDiv m r.1 s.runHeadroom, { r.2 with freeTick := s.freeTick + 1 })) ∧
      ((∀ v : Fin Config.NV, s.voices[v.val].kind ≠ .ks) →
        (∀ (v : Fin Config.NV) (st : Fin Config.NS), s.stages[v.val][st.val].kind = .bypass) →
        let active := (List.finRange Config.NV).filter fun v => s.voices[v.val].kind != .off
        mixSample s = .ok
          (fDiv m (active.foldl (fun acc v => fAdd m acc (fMul m (wave v s.voices[v.val]) s.voices[v.val].gain)) fZero)
            s.runHeadroom, { s with freeTick := s.freeTick + 1 }))

/-- 45_pipeline.md R261: the end points at 16 bits, the range at every depth, and that the quantizer is monotone. -/
def Obligations.QuantizerRangeAndOrder : Prop :=
  ∀ c : Config.At,
    (quantize c fOne 16 = 32767 ∧ quantize c fMinusOne 16 = -32768 ∧ quantize c fTwo 16 = 32767 ∧
      quantize c 0xC01E000000000000#64 16 = -32768) ∧
    (∀ (m : F64) (b : Nat), isFinite m = true → 2 ≤ b → b ≤ 32 →
      -(2 ^ (b - 1) : Int) ≤ quantize c m b ∧ quantize c m b ≤ 2 ^ (b - 1) - 1) ∧
    (∀ (m m' : F64) (b : Nat), isFinite m = true → isFinite m' = true → fLe m m' = true → 2 ≤ b → b ≤ 32 →
      quantize c m b ≤ quantize c m' b)

/-- 45_pipeline.md R260: the quantizer is the rounding, half away from zero, of the exact product of the clamped mix and
2^(B-1), clipped to the integer range. -/
def Obligations.QuantizerRoundsExactProduct : Prop :=
  ∀ (c : Config.At) (m : F64) (b : Nat), isFinite m = true → 2 ≤ b → b ≤ 32 →
    let x : ℚ := max (-1) (min 1 (realValue m)) * 2 ^ (b - 1)
    let r : Int := if 0 ≤ x then ⌊x + 1 / 2⌋ else ⌈x - 1 / 2⌉
    quantize c m b = min (max r (-(2 ^ (b - 1)))) (2 ^ (b - 1) - 1)

/-! ## Arithmetic (00_scope.md R10, R11, R15) -/

/-- 00_scope.md R10: +, -, * and / of finite numbers give the number nearest to the exact result, ties to even (the
division of a non-zero divisor).
A result past the largest finite number is an infinity, as in IEEE 754 (log entry 15, PRESUMED), which counts as
2^1024 (log entry 16). The signs of zeros are those of IEEE 754 too (log entry 15): an exact zero sum is +0.0 unless both
operands are negative zeros, and a product or quotient, a zero one too, has the sign the operands' signs give. -/
def Obligations.ArithmeticRoundsToNearestEven : Prop :=
  ∀ (c : Config.At) (a b : F64), isFinite a = true → isFinite b = true →
    roundsTo (fAdd c a b) (realValue a + realValue b) ∧
    roundsTo (fSub c a b) (realValue a - realValue b) ∧
    roundsTo (fMul c a b) (realValue a * realValue b) ∧
    (isZero b = false → roundsTo (fDiv c a b) (realValue a / realValue b)) ∧
    (realValue a + realValue b = 0 → isZero (fAdd c a b) = true ∧ signBit (fAdd c a b) = (signBit a && signBit b)) ∧
    (realValue a - realValue b = 0 → isZero (fSub c a b) = true ∧ signBit (fSub c a b) = (signBit a && !signBit b)) ∧
    signBit (fMul c a b) = (signBit a != signBit b) ∧
    (isZero b = false → signBit (fDiv c a b) = (signBit a != signBit b))

/-- 00_scope.md R10: floor is exact, comparisons are those of the real numbers (an infinity lies past every finite number,
log entry 16), and a comparison with a NaN is false; the conversion of an integer rounds it to nearest; abs clears the sign
and negation flips it, and nothing else of the encoding.
The special operands, as in IEEE 754 (log entry 15, PRESUMED): a floor, a zero one too, has the sign of its argument, a zero
conversion is +0.0, and the floor of an argument that is not finite is that argument; a NaN operand gives a NaN; infinite
operands and a division by zero give the infinity or zero of the right sign, or a NaN. -/
def Obligations.FloorAndComparisonsAreExact : Prop :=
  (∀ x : F64, isFinite x = true → isFinite (fFloor x) = true ∧ realValue (fFloor x) = (⌊realValue x⌋ : ℚ)) ∧
  (∀ x : F64, signBit (fFloor x) = signBit x ∧ (isFinite x = false → fFloor x = x)) ∧
  (∀ x y : F64, isNaN x = false → isNaN y = false →
    (fLt x y = true ↔ realValue x < realValue y) ∧ (fLe x y = true ↔ realValue x ≤ realValue y)) ∧
  (∀ x y : F64, isNaN x = true ∨ isNaN y = true → fLt x y = false ∧ fLe x y = false) ∧
  (∀ n : Nat, roundsTo (fOfNat n) n ∧ signBit (fOfNat n) = false) ∧
  (∀ n : Int, roundsTo (fOfInt n) n ∧ signBit (fOfInt n) = decide (n < 0)) ∧
  (∀ x : F64, signBit (fAbs x) = false ∧ magBits (fAbs x) = magBits x ∧ signBit (fNeg x) = !signBit x ∧
    magBits (fNeg x) = magBits x) ∧
  (∀ x : F64, isNaN x = false → realValue (fAbs x) = |realValue x| ∧ realValue (fNeg x) = -realValue x) ∧
  (∀ (c : Config.At) (a b : F64), isNaN a = true ∨ isNaN b = true →
    isNaN (fAdd c a b) = true ∧ isNaN (fSub c a b) = true ∧ isNaN (fMul c a b) = true ∧ isNaN (fDiv c a b) = true) ∧
  (∀ (c : Config.At) (a b : F64), isNaN a = false → isNaN b = false →
    let sign := signBit a != signBit b
    fSub c a b = fAdd c a (fNeg b) ∧
    (isInf a = true → isInf b = false → fAdd c a b = a) ∧ (isInf a = false → isInf b = true → fAdd c a b = b) ∧
    (isInf a = true → isInf b = true → if sign then isNaN (fAdd c a b) = true else fAdd c a b = a) ∧
    (isInf a = true ∨ isInf b = true →
      if isZero a || isZero b then isNaN (fMul c a b) = true
      else isInf (fMul c a b) = true ∧ signBit (fMul c a b) = sign) ∧
    (isInf a = true → isInf b = true → isNaN (fDiv c a b) = true) ∧
    (isInf a = true → isInf b = false → isInf (fDiv c a b) = true ∧ signBit (fDiv c a b) = sign) ∧
    (isInf a = false → isInf b = true → isZero (fDiv c a b) = true ∧ signBit (fDiv c a b) = sign) ∧
    (isInf a = false → isZero b = true →
      if isZero a then isNaN (fDiv c a b) = true else isInf (fDiv c a b) = true ∧ signBit (fDiv c a b) = sign))

/-- 00_scope.md R15: what may be assumed of SIN64 and COS64. -/
def Obligations.SineAndCosineMeetTheirBounds : Prop :=
  sin64 fZero = fZero ∧ cos64 fZero = fOne ∧
    ∀ x : F64, isFinite x = true →
      (isFinite (sin64 x) = true ∧ fLe fMinusOne (sin64 x) = true ∧ fLe (sin64 x) fOne = true) ∧
      (isFinite (cos64 x) = true ∧ fLe fMinusOne (cos64 x) = true ∧ fLe (cos64 x) fOne = true)

/-- 00_scope.md R11: clamp1, and that a NaN passes through it unchanged. -/
def Obligations.ClampBoundsAndPassesNaN : Prop :=
  ∀ x : F64, (isNaN x = true → clamp1 x = x) ∧
    (isNaN x = false → inUnitRange (clamp1 x) = true ∧ (inUnitRange x = true → clamp1 x = x) ∧
      (fLt fOne x = true → clamp1 x = fOne) ∧ (fLt x fMinusOne = true → clamp1 x = fMinusOne))
end

