-- ==== Sys2Proof/Laws/State.lean ====
section
/-! SUPPORT. What each update of the state does to each of its fields, so that no later proof unfolds a record update. -/

namespace Sys2Proof.Machine

/-! ### setVoice -/

@[simp] theorem setVoice_p (s : State) (v : Fin Config.NV) (x : Voice) : (s.setVoice v x).p = s.p := rfl
@[simp] theorem setVoice_runState (s : State) (v : Fin Config.NV) (x : Voice) : (s.setVoice v x).runState = s.runState := rfl
@[simp] theorem setVoice_err (s : State) (v : Fin Config.NV) (x : Voice) : (s.setVoice v x).err = s.err := rfl
@[simp] theorem setVoice_errOvf (s : State) (v : Fin Config.NV) (x : Voice) : (s.setVoice v x).errOvf = s.errOvf := rfl
@[simp] theorem setVoice_errInfo (s : State) (v : Fin Config.NV) (x : Voice) : (s.setVoice v x).errInfo = s.errInfo := rfl
@[simp] theorem setVoice_irqEn (s : State) (v : Fin Config.NV) (x : Voice) : (s.setVoice v x).irqEn = s.irqEn := rfl
@[simp] theorem setVoice_irqPend (s : State) (v : Fin Config.NV) (x : Voice) : (s.setVoice v x).irqPend = s.irqPend := rfl
@[simp] theorem setVoice_irqHeld (s : State) (v : Fin Config.NV) (x : Voice) : (s.setVoice v x).irqHeld = s.irqHeld := rfl
@[simp] theorem setVoice_fs (s : State) (v : Fin Config.NV) (x : Voice) : (s.setVoice v x).fs = s.fs := rfl
@[simp] theorem setVoice_bits (s : State) (v : Fin Config.NV) (x : Voice) : (s.setVoice v x).bits = s.bits := rfl
@[simp] theorem setVoice_headroom (s : State) (v : Fin Config.NV) (x : Voice) : (s.setVoice v x).headroom = s.headroom := rfl
@[simp] theorem setVoice_length (s : State) (v : Fin Config.NV) (x : Voice) : (s.setVoice v x).length = s.length := rfl
@[simp] theorem setVoice_noise (s : State) (v : Fin Config.NV) (x : Voice) : (s.setVoice v x).noise = s.noise := rfl
@[simp] theorem setVoice_sampleIdx (s : State) (v : Fin Config.NV) (x : Voice) : (s.setVoice v x).sampleIdx = s.sampleIdx := rfl
@[simp] theorem setVoice_pcmLast (s : State) (v : Fin Config.NV) (x : Voice) : (s.setVoice v x).pcmLast = s.pcmLast := rfl
@[simp] theorem setVoice_runFs (s : State) (v : Fin Config.NV) (x : Voice) : (s.setVoice v x).runFs = s.runFs := rfl
@[simp] theorem setVoice_runBits (s : State) (v : Fin Config.NV) (x : Voice) : (s.setVoice v x).runBits = s.runBits := rfl
@[simp] theorem setVoice_runHeadroom (s : State) (v : Fin Config.NV) (x : Voice) : (s.setVoice v x).runHeadroom = s.runHeadroom := rfl
@[simp] theorem setVoice_runLength (s : State) (v : Fin Config.NV) (x : Voice) : (s.setVoice v x).runLength = s.runLength := rfl
@[simp] theorem setVoice_voices (s : State) (v : Fin Config.NV) (x : Voice) : (s.setVoice v x).voices = s.voices.set v.val x := rfl
@[simp] theorem setVoice_stages (s : State) (v : Fin Config.NV) (x : Voice) : (s.setVoice v x).stages = s.stages := rfl
@[simp] theorem setVoice_ram (s : State) (v : Fin Config.NV) (x : Voice) : (s.setVoice v x).ram = s.ram := rfl
@[simp] theorem setVoice_stream (s : State) (v : Fin Config.NV) (x : Voice) : (s.setVoice v x).stream = s.stream := rfl
@[simp] theorem setVoice_accepted (s : State) (v : Fin Config.NV) (x : Voice) : (s.setVoice v x).accepted = s.accepted := rfl
@[simp] theorem setVoice_hostQueue (s : State) (v : Fin Config.NV) (x : Voice) : (s.setVoice v x).hostQueue = s.hostQueue := rfl
@[simp] theorem setVoice_replies (s : State) (v : Fin Config.NV) (x : Voice) : (s.setVoice v x).replies = s.replies := rfl
@[simp] theorem setVoice_sinkScript (s : State) (v : Fin Config.NV) (x : Voice) : (s.setVoice v x).sinkScript = s.sinkScript := rfl
@[simp] theorem setVoice_sinkRest (s : State) (v : Fin Config.NV) (x : Voice) : (s.setVoice v x).sinkRest = s.sinkRest := rfl
@[simp] theorem setVoice_resetPin (s : State) (v : Fin Config.NV) (x : Voice) : (s.setVoice v x).resetPin = s.resetPin := rfl
@[simp] theorem setVoice_freeTick (s : State) (v : Fin Config.NV) (x : Voice) : (s.setVoice v x).freeTick = s.freeTick := rfl
@[simp] theorem setVoice_powerOns (s : State) (v : Fin Config.NV) (x : Voice) : (s.setVoice v x).powerOns = s.powerOns := rfl

/-! ### setStage -/

@[simp] theorem setStage_p (s : State) (v : Fin Config.NV) (st : Fin Config.NS) (x : Stage) : (s.setStage v st x).p = s.p := rfl
@[simp] theorem setStage_runState (s : State) (v : Fin Config.NV) (st : Fin Config.NS) (x : Stage) : (s.setStage v st x).runState = s.runState := rfl
@[simp] theorem setStage_err (s : State) (v : Fin Config.NV) (st : Fin Config.NS) (x : Stage) : (s.setStage v st x).err = s.err := rfl
@[simp] theorem setStage_errOvf (s : State) (v : Fin Config.NV) (st : Fin Config.NS) (x : Stage) : (s.setStage v st x).errOvf = s.errOvf := rfl
@[simp] theorem setStage_errInfo (s : State) (v : Fin Config.NV) (st : Fin Config.NS) (x : Stage) : (s.setStage v st x).errInfo = s.errInfo := rfl
@[simp] theorem setStage_irqEn (s : State) (v : Fin Config.NV) (st : Fin Config.NS) (x : Stage) : (s.setStage v st x).irqEn = s.irqEn := rfl
@[simp] theorem setStage_irqPend (s : State) (v : Fin Config.NV) (st : Fin Config.NS) (x : Stage) : (s.setStage v st x).irqPend = s.irqPend := rfl
@[simp] theorem setStage_irqHeld (s : State) (v : Fin Config.NV) (st : Fin Config.NS) (x : Stage) : (s.setStage v st x).irqHeld = s.irqHeld := rfl
@[simp] theorem setStage_fs (s : State) (v : Fin Config.NV) (st : Fin Config.NS) (x : Stage) : (s.setStage v st x).fs = s.fs := rfl
@[simp] theorem setStage_bits (s : State) (v : Fin Config.NV) (st : Fin Config.NS) (x : Stage) : (s.setStage v st x).bits = s.bits := rfl
@[simp] theorem setStage_headroom (s : State) (v : Fin Config.NV) (st : Fin Config.NS) (x : Stage) : (s.setStage v st x).headroom = s.headroom := rfl
@[simp] theorem setStage_length (s : State) (v : Fin Config.NV) (st : Fin Config.NS) (x : Stage) : (s.setStage v st x).length = s.length := rfl
@[simp] theorem setStage_noise (s : State) (v : Fin Config.NV) (st : Fin Config.NS) (x : Stage) : (s.setStage v st x).noise = s.noise := rfl
@[simp] theorem setStage_sampleIdx (s : State) (v : Fin Config.NV) (st : Fin Config.NS) (x : Stage) : (s.setStage v st x).sampleIdx = s.sampleIdx := rfl
@[simp] theorem setStage_pcmLast (s : State) (v : Fin Config.NV) (st : Fin Config.NS) (x : Stage) : (s.setStage v st x).pcmLast = s.pcmLast := rfl
@[simp] theorem setStage_runFs (s : State) (v : Fin Config.NV) (st : Fin Config.NS) (x : Stage) : (s.setStage v st x).runFs = s.runFs := rfl
@[simp] theorem setStage_runBits (s : State) (v : Fin Config.NV) (st : Fin Config.NS) (x : Stage) : (s.setStage v st x).runBits = s.runBits := rfl
@[simp] theorem setStage_runHeadroom (s : State) (v : Fin Config.NV) (st : Fin Config.NS) (x : Stage) : (s.setStage v st x).runHeadroom = s.runHeadroom := rfl
@[simp] theorem setStage_runLength (s : State) (v : Fin Config.NV) (st : Fin Config.NS) (x : Stage) : (s.setStage v st x).runLength = s.runLength := rfl
@[simp] theorem setStage_voices (s : State) (v : Fin Config.NV) (st : Fin Config.NS) (x : Stage) : (s.setStage v st x).voices = s.voices := rfl
@[simp] theorem setStage_stages (s : State) (v : Fin Config.NV) (st : Fin Config.NS) (x : Stage) : (s.setStage v st x).stages = s.stages.set v.val (s.stages[v.val].set st.val x) := rfl
@[simp] theorem setStage_ram (s : State) (v : Fin Config.NV) (st : Fin Config.NS) (x : Stage) : (s.setStage v st x).ram = s.ram := rfl
@[simp] theorem setStage_stream (s : State) (v : Fin Config.NV) (st : Fin Config.NS) (x : Stage) : (s.setStage v st x).stream = s.stream := rfl
@[simp] theorem setStage_accepted (s : State) (v : Fin Config.NV) (st : Fin Config.NS) (x : Stage) : (s.setStage v st x).accepted = s.accepted := rfl
@[simp] theorem setStage_hostQueue (s : State) (v : Fin Config.NV) (st : Fin Config.NS) (x : Stage) : (s.setStage v st x).hostQueue = s.hostQueue := rfl
@[simp] theorem setStage_replies (s : State) (v : Fin Config.NV) (st : Fin Config.NS) (x : Stage) : (s.setStage v st x).replies = s.replies := rfl
@[simp] theorem setStage_sinkScript (s : State) (v : Fin Config.NV) (st : Fin Config.NS) (x : Stage) : (s.setStage v st x).sinkScript = s.sinkScript := rfl
@[simp] theorem setStage_sinkRest (s : State) (v : Fin Config.NV) (st : Fin Config.NS) (x : Stage) : (s.setStage v st x).sinkRest = s.sinkRest := rfl
@[simp] theorem setStage_resetPin (s : State) (v : Fin Config.NV) (st : Fin Config.NS) (x : Stage) : (s.setStage v st x).resetPin = s.resetPin := rfl
@[simp] theorem setStage_freeTick (s : State) (v : Fin Config.NV) (st : Fin Config.NS) (x : Stage) : (s.setStage v st x).freeTick = s.freeTick := rfl
@[simp] theorem setStage_powerOns (s : State) (v : Fin Config.NV) (st : Fin Config.NS) (x : Stage) : (s.setStage v st x).powerOns = s.powerOns := rfl

/-! ### setArg -/

@[simp] theorem setArg_p (s : State) (k : Fin 8) (x : Word) : (s.setArg k x).p = s.p.set k.val x := rfl
@[simp] theorem setArg_runState (s : State) (k : Fin 8) (x : Word) : (s.setArg k x).runState = s.runState := rfl
@[simp] theorem setArg_err (s : State) (k : Fin 8) (x : Word) : (s.setArg k x).err = s.err := rfl
@[simp] theorem setArg_errOvf (s : State) (k : Fin 8) (x : Word) : (s.setArg k x).errOvf = s.errOvf := rfl
@[simp] theorem setArg_errInfo (s : State) (k : Fin 8) (x : Word) : (s.setArg k x).errInfo = s.errInfo := rfl
@[simp] theorem setArg_irqEn (s : State) (k : Fin 8) (x : Word) : (s.setArg k x).irqEn = s.irqEn := rfl
@[simp] theorem setArg_irqPend (s : State) (k : Fin 8) (x : Word) : (s.setArg k x).irqPend = s.irqPend := rfl
@[simp] theorem setArg_irqHeld (s : State) (k : Fin 8) (x : Word) : (s.setArg k x).irqHeld = s.irqHeld := rfl
@[simp] theorem setArg_fs (s : State) (k : Fin 8) (x : Word) : (s.setArg k x).fs = s.fs := rfl
@[simp] theorem setArg_bits (s : State) (k : Fin 8) (x : Word) : (s.setArg k x).bits = s.bits := rfl
@[simp] theorem setArg_headroom (s : State) (k : Fin 8) (x : Word) : (s.setArg k x).headroom = s.headroom := rfl
@[simp] theorem setArg_length (s : State) (k : Fin 8) (x : Word) : (s.setArg k x).length = s.length := rfl
@[simp] theorem setArg_noise (s : State) (k : Fin 8) (x : Word) : (s.setArg k x).noise = s.noise := rfl
@[simp] theorem setArg_sampleIdx (s : State) (k : Fin 8) (x : Word) : (s.setArg k x).sampleIdx = s.sampleIdx := rfl
@[simp] theorem setArg_pcmLast (s : State) (k : Fin 8) (x : Word) : (s.setArg k x).pcmLast = s.pcmLast := rfl
@[simp] theorem setArg_runFs (s : State) (k : Fin 8) (x : Word) : (s.setArg k x).runFs = s.runFs := rfl
@[simp] theorem setArg_runBits (s : State) (k : Fin 8) (x : Word) : (s.setArg k x).runBits = s.runBits := rfl
@[simp] theorem setArg_runHeadroom (s : State) (k : Fin 8) (x : Word) : (s.setArg k x).runHeadroom = s.runHeadroom := rfl
@[simp] theorem setArg_runLength (s : State) (k : Fin 8) (x : Word) : (s.setArg k x).runLength = s.runLength := rfl
@[simp] theorem setArg_voices (s : State) (k : Fin 8) (x : Word) : (s.setArg k x).voices = s.voices := rfl
@[simp] theorem setArg_stages (s : State) (k : Fin 8) (x : Word) : (s.setArg k x).stages = s.stages := rfl
@[simp] theorem setArg_ram (s : State) (k : Fin 8) (x : Word) : (s.setArg k x).ram = s.ram := rfl
@[simp] theorem setArg_stream (s : State) (k : Fin 8) (x : Word) : (s.setArg k x).stream = s.stream := rfl
@[simp] theorem setArg_accepted (s : State) (k : Fin 8) (x : Word) : (s.setArg k x).accepted = s.accepted := rfl
@[simp] theorem setArg_hostQueue (s : State) (k : Fin 8) (x : Word) : (s.setArg k x).hostQueue = s.hostQueue := rfl
@[simp] theorem setArg_replies (s : State) (k : Fin 8) (x : Word) : (s.setArg k x).replies = s.replies := rfl
@[simp] theorem setArg_sinkScript (s : State) (k : Fin 8) (x : Word) : (s.setArg k x).sinkScript = s.sinkScript := rfl
@[simp] theorem setArg_sinkRest (s : State) (k : Fin 8) (x : Word) : (s.setArg k x).sinkRest = s.sinkRest := rfl
@[simp] theorem setArg_resetPin (s : State) (k : Fin 8) (x : Word) : (s.setArg k x).resetPin = s.resetPin := rfl
@[simp] theorem setArg_freeTick (s : State) (k : Fin 8) (x : Word) : (s.setArg k x).freeTick = s.freeTick := rfl
@[simp] theorem setArg_powerOns (s : State) (k : Fin 8) (x : Word) : (s.setArg k x).powerOns = s.powerOns := rfl

/-! ### setArgs -/

@[simp] theorem setArgs_p (s : State) (p0 p1 p2 p3 p4 p5 p6 p7 : Word) : (s.setArgs p0 p1 p2 p3 p4 p5 p6 p7).p = #v[p0, p1, p2, p3, p4, p5, p6, p7] := rfl
@[simp] theorem setArgs_runState (s : State) (p0 p1 p2 p3 p4 p5 p6 p7 : Word) : (s.setArgs p0 p1 p2 p3 p4 p5 p6 p7).runState = s.runState := rfl
@[simp] theorem setArgs_err (s : State) (p0 p1 p2 p3 p4 p5 p6 p7 : Word) : (s.setArgs p0 p1 p2 p3 p4 p5 p6 p7).err = s.err := rfl
@[simp] theorem setArgs_errOvf (s : State) (p0 p1 p2 p3 p4 p5 p6 p7 : Word) : (s.setArgs p0 p1 p2 p3 p4 p5 p6 p7).errOvf = s.errOvf := rfl
@[simp] theorem setArgs_errInfo (s : State) (p0 p1 p2 p3 p4 p5 p6 p7 : Word) : (s.setArgs p0 p1 p2 p3 p4 p5 p6 p7).errInfo = s.errInfo := rfl
@[simp] theorem setArgs_irqEn (s : State) (p0 p1 p2 p3 p4 p5 p6 p7 : Word) : (s.setArgs p0 p1 p2 p3 p4 p5 p6 p7).irqEn = s.irqEn := rfl
@[simp] theorem setArgs_irqPend (s : State) (p0 p1 p2 p3 p4 p5 p6 p7 : Word) : (s.setArgs p0 p1 p2 p3 p4 p5 p6 p7).irqPend = s.irqPend := rfl
@[simp] theorem setArgs_irqHeld (s : State) (p0 p1 p2 p3 p4 p5 p6 p7 : Word) : (s.setArgs p0 p1 p2 p3 p4 p5 p6 p7).irqHeld = s.irqHeld := rfl
@[simp] theorem setArgs_fs (s : State) (p0 p1 p2 p3 p4 p5 p6 p7 : Word) : (s.setArgs p0 p1 p2 p3 p4 p5 p6 p7).fs = s.fs := rfl
@[simp] theorem setArgs_bits (s : State) (p0 p1 p2 p3 p4 p5 p6 p7 : Word) : (s.setArgs p0 p1 p2 p3 p4 p5 p6 p7).bits = s.bits := rfl
@[simp] theorem setArgs_headroom (s : State) (p0 p1 p2 p3 p4 p5 p6 p7 : Word) : (s.setArgs p0 p1 p2 p3 p4 p5 p6 p7).headroom = s.headroom := rfl
@[simp] theorem setArgs_length (s : State) (p0 p1 p2 p3 p4 p5 p6 p7 : Word) : (s.setArgs p0 p1 p2 p3 p4 p5 p6 p7).length = s.length := rfl
@[simp] theorem setArgs_noise (s : State) (p0 p1 p2 p3 p4 p5 p6 p7 : Word) : (s.setArgs p0 p1 p2 p3 p4 p5 p6 p7).noise = s.noise := rfl
@[simp] theorem setArgs_sampleIdx (s : State) (p0 p1 p2 p3 p4 p5 p6 p7 : Word) : (s.setArgs p0 p1 p2 p3 p4 p5 p6 p7).sampleIdx = s.sampleIdx := rfl
@[simp] theorem setArgs_pcmLast (s : State) (p0 p1 p2 p3 p4 p5 p6 p7 : Word) : (s.setArgs p0 p1 p2 p3 p4 p5 p6 p7).pcmLast = s.pcmLast := rfl
@[simp] theorem setArgs_runFs (s : State) (p0 p1 p2 p3 p4 p5 p6 p7 : Word) : (s.setArgs p0 p1 p2 p3 p4 p5 p6 p7).runFs = s.runFs := rfl
@[simp] theorem setArgs_runBits (s : State) (p0 p1 p2 p3 p4 p5 p6 p7 : Word) : (s.setArgs p0 p1 p2 p3 p4 p5 p6 p7).runBits = s.runBits := rfl
@[simp] theorem setArgs_runHeadroom (s : State) (p0 p1 p2 p3 p4 p5 p6 p7 : Word) : (s.setArgs p0 p1 p2 p3 p4 p5 p6 p7).runHeadroom = s.runHeadroom := rfl
@[simp] theorem setArgs_runLength (s : State) (p0 p1 p2 p3 p4 p5 p6 p7 : Word) : (s.setArgs p0 p1 p2 p3 p4 p5 p6 p7).runLength = s.runLength := rfl
@[simp] theorem setArgs_voices (s : State) (p0 p1 p2 p3 p4 p5 p6 p7 : Word) : (s.setArgs p0 p1 p2 p3 p4 p5 p6 p7).voices = s.voices := rfl
@[simp] theorem setArgs_stages (s : State) (p0 p1 p2 p3 p4 p5 p6 p7 : Word) : (s.setArgs p0 p1 p2 p3 p4 p5 p6 p7).stages = s.stages := rfl
@[simp] theorem setArgs_ram (s : State) (p0 p1 p2 p3 p4 p5 p6 p7 : Word) : (s.setArgs p0 p1 p2 p3 p4 p5 p6 p7).ram = s.ram := rfl
@[simp] theorem setArgs_stream (s : State) (p0 p1 p2 p3 p4 p5 p6 p7 : Word) : (s.setArgs p0 p1 p2 p3 p4 p5 p6 p7).stream = s.stream := rfl
@[simp] theorem setArgs_accepted (s : State) (p0 p1 p2 p3 p4 p5 p6 p7 : Word) : (s.setArgs p0 p1 p2 p3 p4 p5 p6 p7).accepted = s.accepted := rfl
@[simp] theorem setArgs_hostQueue (s : State) (p0 p1 p2 p3 p4 p5 p6 p7 : Word) : (s.setArgs p0 p1 p2 p3 p4 p5 p6 p7).hostQueue = s.hostQueue := rfl
@[simp] theorem setArgs_replies (s : State) (p0 p1 p2 p3 p4 p5 p6 p7 : Word) : (s.setArgs p0 p1 p2 p3 p4 p5 p6 p7).replies = s.replies := rfl
@[simp] theorem setArgs_sinkScript (s : State) (p0 p1 p2 p3 p4 p5 p6 p7 : Word) : (s.setArgs p0 p1 p2 p3 p4 p5 p6 p7).sinkScript = s.sinkScript := rfl
@[simp] theorem setArgs_sinkRest (s : State) (p0 p1 p2 p3 p4 p5 p6 p7 : Word) : (s.setArgs p0 p1 p2 p3 p4 p5 p6 p7).sinkRest = s.sinkRest := rfl
@[simp] theorem setArgs_resetPin (s : State) (p0 p1 p2 p3 p4 p5 p6 p7 : Word) : (s.setArgs p0 p1 p2 p3 p4 p5 p6 p7).resetPin = s.resetPin := rfl
@[simp] theorem setArgs_freeTick (s : State) (p0 p1 p2 p3 p4 p5 p6 p7 : Word) : (s.setArgs p0 p1 p2 p3 p4 p5 p6 p7).freeTick = s.freeTick := rfl
@[simp] theorem setArgs_powerOns (s : State) (p0 p1 p2 p3 p4 p5 p6 p7 : Word) : (s.setArgs p0 p1 p2 p3 p4 p5 p6 p7).powerOns = s.powerOns := rfl

/-! ### enterDone -/

@[simp] theorem enterDone_p (s : State) : (enterDone s).p = s.p := rfl
@[simp] theorem enterDone_runState (s : State) : (enterDone s).runState = .done := rfl
@[simp] theorem enterDone_err (s : State) : (enterDone s).err = s.err := rfl
@[simp] theorem enterDone_errOvf (s : State) : (enterDone s).errOvf = s.errOvf := rfl
@[simp] theorem enterDone_errInfo (s : State) : (enterDone s).errInfo = s.errInfo := rfl
@[simp] theorem enterDone_irqEn (s : State) : (enterDone s).irqEn = s.irqEn := rfl
@[simp] theorem enterDone_irqPend (s : State) : (enterDone s).irqPend = s.irqPend ||| 2#3 := rfl
@[simp] theorem enterDone_irqHeld (s : State) : (enterDone s).irqHeld = s.irqHeld := rfl
@[simp] theorem enterDone_fs (s : State) : (enterDone s).fs = s.fs := rfl
@[simp] theorem enterDone_bits (s : State) : (enterDone s).bits = s.bits := rfl
@[simp] theorem enterDone_headroom (s : State) : (enterDone s).headroom = s.headroom := rfl
@[simp] theorem enterDone_length (s : State) : (enterDone s).length = s.length := rfl
@[simp] theorem enterDone_noise (s : State) : (enterDone s).noise = s.noise := rfl
@[simp] theorem enterDone_sampleIdx (s : State) : (enterDone s).sampleIdx = s.sampleIdx := rfl
@[simp] theorem enterDone_pcmLast (s : State) : (enterDone s).pcmLast = s.pcmLast := rfl
@[simp] theorem enterDone_runFs (s : State) : (enterDone s).runFs = s.runFs := rfl
@[simp] theorem enterDone_runBits (s : State) : (enterDone s).runBits = s.runBits := rfl
@[simp] theorem enterDone_runHeadroom (s : State) : (enterDone s).runHeadroom = s.runHeadroom := rfl
@[simp] theorem enterDone_runLength (s : State) : (enterDone s).runLength = s.runLength := rfl
@[simp] theorem enterDone_voices (s : State) : (enterDone s).voices = s.voices := rfl
@[simp] theorem enterDone_stages (s : State) : (enterDone s).stages = s.stages := rfl
@[simp] theorem enterDone_ram (s : State) : (enterDone s).ram = s.ram := rfl
@[simp] theorem enterDone_stream (s : State) : (enterDone s).stream = s.stream := rfl
@[simp] theorem enterDone_accepted (s : State) : (enterDone s).accepted = s.accepted := rfl
@[simp] theorem enterDone_hostQueue (s : State) : (enterDone s).hostQueue = s.hostQueue := rfl
@[simp] theorem enterDone_replies (s : State) : (enterDone s).replies = s.replies := rfl
@[simp] theorem enterDone_sinkScript (s : State) : (enterDone s).sinkScript = s.sinkScript := rfl
@[simp] theorem enterDone_sinkRest (s : State) : (enterDone s).sinkRest = s.sinkRest := rfl
@[simp] theorem enterDone_resetPin (s : State) : (enterDone s).resetPin = s.resetPin := rfl
@[simp] theorem enterDone_freeTick (s : State) : (enterDone s).freeTick = s.freeTick := rfl
@[simp] theorem enterDone_powerOns (s : State) : (enterDone s).powerOns = s.powerOns := rfl

/-! ### enterAborted -/

@[simp] theorem enterAborted_p (s : State) : (enterAborted s).p = s.p := rfl
@[simp] theorem enterAborted_runState (s : State) : (enterAborted s).runState = .aborted := rfl
@[simp] theorem enterAborted_err (s : State) : (enterAborted s).err = s.err := rfl
@[simp] theorem enterAborted_errOvf (s : State) : (enterAborted s).errOvf = s.errOvf := rfl
@[simp] theorem enterAborted_errInfo (s : State) : (enterAborted s).errInfo = s.errInfo := rfl
@[simp] theorem enterAborted_irqEn (s : State) : (enterAborted s).irqEn = s.irqEn := rfl
@[simp] theorem enterAborted_irqPend (s : State) : (enterAborted s).irqPend = s.irqPend ||| 4#3 := rfl
@[simp] theorem enterAborted_irqHeld (s : State) : (enterAborted s).irqHeld = s.irqHeld := rfl
@[simp] theorem enterAborted_fs (s : State) : (enterAborted s).fs = s.fs := rfl
@[simp] theorem enterAborted_bits (s : State) : (enterAborted s).bits = s.bits := rfl
@[simp] theorem enterAborted_headroom (s : State) : (enterAborted s).headroom = s.headroom := rfl
@[simp] theorem enterAborted_length (s : State) : (enterAborted s).length = s.length := rfl
@[simp] theorem enterAborted_noise (s : State) : (enterAborted s).noise = s.noise := rfl
@[simp] theorem enterAborted_sampleIdx (s : State) : (enterAborted s).sampleIdx = s.sampleIdx := rfl
@[simp] theorem enterAborted_pcmLast (s : State) : (enterAborted s).pcmLast = s.pcmLast := rfl
@[simp] theorem enterAborted_runFs (s : State) : (enterAborted s).runFs = s.runFs := rfl
@[simp] theorem enterAborted_runBits (s : State) : (enterAborted s).runBits = s.runBits := rfl
@[simp] theorem enterAborted_runHeadroom (s : State) : (enterAborted s).runHeadroom = s.runHeadroom := rfl
@[simp] theorem enterAborted_runLength (s : State) : (enterAborted s).runLength = s.runLength := rfl
@[simp] theorem enterAborted_voices (s : State) : (enterAborted s).voices = s.voices := rfl
@[simp] theorem enterAborted_stages (s : State) : (enterAborted s).stages = s.stages := rfl
@[simp] theorem enterAborted_ram (s : State) : (enterAborted s).ram = s.ram := rfl
@[simp] theorem enterAborted_stream (s : State) : (enterAborted s).stream = s.stream := rfl
@[simp] theorem enterAborted_accepted (s : State) : (enterAborted s).accepted = s.accepted := rfl
@[simp] theorem enterAborted_hostQueue (s : State) : (enterAborted s).hostQueue = s.hostQueue := rfl
@[simp] theorem enterAborted_replies (s : State) : (enterAborted s).replies = s.replies := rfl
@[simp] theorem enterAborted_sinkScript (s : State) : (enterAborted s).sinkScript = s.sinkScript := rfl
@[simp] theorem enterAborted_sinkRest (s : State) : (enterAborted s).sinkRest = s.sinkRest := rfl
@[simp] theorem enterAborted_resetPin (s : State) : (enterAborted s).resetPin = s.resetPin := rfl
@[simp] theorem enterAborted_freeTick (s : State) : (enterAborted s).freeTick = s.freeTick := rfl
@[simp] theorem enterAborted_powerOns (s : State) : (enterAborted s).powerOns = s.powerOns := rfl

/-! ### latchRender -/

@[simp] theorem latchRender_p (s : State) : (latchRender s).p = s.p := rfl
@[simp] theorem latchRender_runState (s : State) : (latchRender s).runState = s.runState := rfl
@[simp] theorem latchRender_err (s : State) : (latchRender s).err = s.err := rfl
@[simp] theorem latchRender_errOvf (s : State) : (latchRender s).errOvf = s.errOvf := rfl
@[simp] theorem latchRender_errInfo (s : State) : (latchRender s).errInfo = s.errInfo := rfl
@[simp] theorem latchRender_irqEn (s : State) : (latchRender s).irqEn = s.irqEn := rfl
@[simp] theorem latchRender_irqPend (s : State) : (latchRender s).irqPend = s.irqPend := rfl
@[simp] theorem latchRender_irqHeld (s : State) : (latchRender s).irqHeld = s.irqHeld := rfl
@[simp] theorem latchRender_fs (s : State) : (latchRender s).fs = s.fs := rfl
@[simp] theorem latchRender_bits (s : State) : (latchRender s).bits = s.bits := rfl
@[simp] theorem latchRender_headroom (s : State) : (latchRender s).headroom = s.headroom := rfl
@[simp] theorem latchRender_length (s : State) : (latchRender s).length = s.length := rfl
@[simp] theorem latchRender_noise (s : State) : (latchRender s).noise = s.noise := rfl
@[simp] theorem latchRender_sampleIdx (s : State) : (latchRender s).sampleIdx = 0 := rfl
@[simp] theorem latchRender_pcmLast (s : State) : (latchRender s).pcmLast = 0 := rfl
@[simp] theorem latchRender_runFs (s : State) : (latchRender s).runFs = s.fs := rfl
@[simp] theorem latchRender_runBits (s : State) : (latchRender s).runBits = s.bits := rfl
@[simp] theorem latchRender_runHeadroom (s : State) : (latchRender s).runHeadroom = s.headroom := rfl
@[simp] theorem latchRender_runLength (s : State) : (latchRender s).runLength = s.length := rfl
@[simp] theorem latchRender_voices (s : State) : (latchRender s).voices = s.voices := rfl
@[simp] theorem latchRender_stages (s : State) : (latchRender s).stages = s.stages := rfl
@[simp] theorem latchRender_ram (s : State) : (latchRender s).ram = s.ram := rfl
@[simp] theorem latchRender_stream (s : State) : (latchRender s).stream = s.stream := rfl
@[simp] theorem latchRender_accepted (s : State) : (latchRender s).accepted = s.accepted := rfl
@[simp] theorem latchRender_hostQueue (s : State) : (latchRender s).hostQueue = s.hostQueue := rfl
@[simp] theorem latchRender_replies (s : State) : (latchRender s).replies = s.replies := rfl
@[simp] theorem latchRender_sinkScript (s : State) : (latchRender s).sinkScript = s.sinkScript := rfl
@[simp] theorem latchRender_sinkRest (s : State) : (latchRender s).sinkRest = s.sinkRest := rfl
@[simp] theorem latchRender_resetPin (s : State) : (latchRender s).resetPin = s.resetPin := rfl
@[simp] theorem latchRender_freeTick (s : State) : (latchRender s).freeTick = s.freeTick := rfl
@[simp] theorem latchRender_powerOns (s : State) : (latchRender s).powerOns = s.powerOns := rfl

/-! ### recordError -/

@[simp] theorem recordError_p (s : State) (code : ErrorCode) (w : CmdWord) : (recordError code w s).p = s.p := by
  unfold recordError; split <;> rfl
@[simp] theorem recordError_runState (s : State) (code : ErrorCode) (w : CmdWord) : (recordError code w s).runState = s.runState := by
  unfold recordError; split <;> rfl
@[simp] theorem recordError_irqEn (s : State) (code : ErrorCode) (w : CmdWord) : (recordError code w s).irqEn = s.irqEn := by
  unfold recordError; split <;> rfl
@[simp] theorem recordError_irqPend (s : State) (code : ErrorCode) (w : CmdWord) : (recordError code w s).irqPend = s.irqPend ||| 1#3 := by
  unfold recordError; split <;> rfl
@[simp] theorem recordError_irqHeld (s : State) (code : ErrorCode) (w : CmdWord) : (recordError code w s).irqHeld = s.irqHeld := by
  unfold recordError; split <;> rfl
@[simp] theorem recordError_fs (s : State) (code : ErrorCode) (w : CmdWord) : (recordError code w s).fs = s.fs := by
  unfold recordError; split <;> rfl
@[simp] theorem recordError_bits (s : State) (code : ErrorCode) (w : CmdWord) : (recordError code w s).bits = s.bits := by
  unfold recordError; split <;> rfl
@[simp] theorem recordError_headroom (s : State) (code : ErrorCode) (w : CmdWord) : (recordError code w s).headroom = s.headroom := by
  unfold recordError; split <;> rfl
@[simp] theorem recordError_length (s : State) (code : ErrorCode) (w : CmdWord) : (recordError code w s).length = s.length := by
  unfold recordError; split <;> rfl
@[simp] theorem recordError_noise (s : State) (code : ErrorCode) (w : CmdWord) : (recordError code w s).noise = s.noise := by
  unfold recordError; split <;> rfl
@[simp] theorem recordError_sampleIdx (s : State) (code : ErrorCode) (w : CmdWord) : (recordError code w s).sampleIdx = s.sampleIdx := by
  unfold recordError; split <;> rfl
@[simp] theorem recordError_pcmLast (s : State) (code : ErrorCode) (w : CmdWord) : (recordError code w s).pcmLast = s.pcmLast := by
  unfold recordError; split <;> rfl
@[simp] theorem recordError_runFs (s : State) (code : ErrorCode) (w : CmdWord) : (recordError code w s).runFs = s.runFs := by
  unfold recordError; split <;> rfl
@[simp] theorem recordError_runBits (s : State) (code : ErrorCode) (w : CmdWord) : (recordError code w s).runBits = s.runBits := by
  unfold recordError; split <;> rfl
@[simp] theorem recordError_runHeadroom (s : State) (code : ErrorCode) (w : CmdWord) : (recordError code w s).runHeadroom = s.runHeadroom := by
  unfold recordError; split <;> rfl
@[simp] theorem recordError_runLength (s : State) (code : ErrorCode) (w : CmdWord) : (recordError code w s).runLength = s.runLength := by
  unfold recordError; split <;> rfl
@[simp] theorem recordError_voices (s : State) (code : ErrorCode) (w : CmdWord) : (recordError code w s).voices = s.voices := by
  unfold recordError; split <;> rfl
@[simp] theorem recordError_stages (s : State) (code : ErrorCode) (w : CmdWord) : (recordError code w s).stages = s.stages := by
  unfold recordError; split <;> rfl
@[simp] theorem recordError_ram (s : State) (code : ErrorCode) (w : CmdWord) : (recordError code w s).ram = s.ram := by
  unfold recordError; split <;> rfl
@[simp] theorem recordError_stream (s : State) (code : ErrorCode) (w : CmdWord) : (recordError code w s).stream = s.stream := by
  unfold recordError; split <;> rfl
@[simp] theorem recordError_accepted (s : State) (code : ErrorCode) (w : CmdWord) : (recordError code w s).accepted = s.accepted := by
  unfold recordError; split <;> rfl
@[simp] theorem recordError_hostQueue (s : State) (code : ErrorCode) (w : CmdWord) : (recordError code w s).hostQueue = s.hostQueue := by
  unfold recordError; split <;> rfl
@[simp] theorem recordError_replies (s : State) (code : ErrorCode) (w : CmdWord) : (recordError code w s).replies = s.replies := by
  unfold recordError; split <;> rfl
@[simp] theorem recordError_sinkScript (s : State) (code : ErrorCode) (w : CmdWord) : (recordError code w s).sinkScript = s.sinkScript := by
  unfold recordError; split <;> rfl
@[simp] theorem recordError_sinkRest (s : State) (code : ErrorCode) (w : CmdWord) : (recordError code w s).sinkRest = s.sinkRest := by
  unfold recordError; split <;> rfl
@[simp] theorem recordError_resetPin (s : State) (code : ErrorCode) (w : CmdWord) : (recordError code w s).resetPin = s.resetPin := by
  unfold recordError; split <;> rfl
@[simp] theorem recordError_freeTick (s : State) (code : ErrorCode) (w : CmdWord) : (recordError code w s).freeTick = s.freeTick := by
  unfold recordError; split <;> rfl
@[simp] theorem recordError_powerOns (s : State) (code : ErrorCode) (w : CmdWord) : (recordError code w s).powerOns = s.powerOns := by
  unfold recordError; split <;> rfl

/-! ### acknowledge -/

@[simp] theorem acknowledge_p (s : State) (w : Word) : (acknowledge w s).p = s.p := by
  unfold acknowledge; split <;> rfl
@[simp] theorem acknowledge_runState (s : State) (w : Word) : (acknowledge w s).runState = s.runState := by
  unfold acknowledge; split <;> rfl
@[simp] theorem acknowledge_irqEn (s : State) (w : Word) : (acknowledge w s).irqEn = s.irqEn := by
  unfold acknowledge; split <;> rfl
@[simp] theorem acknowledge_irqPend (s : State) (w : Word) : (acknowledge w s).irqPend = s.irqPend &&& ~~~(w.setWidth 3) := by
  unfold acknowledge; split <;> rfl
@[simp] theorem acknowledge_irqHeld (s : State) (w : Word) : (acknowledge w s).irqHeld = s.irqHeld := by
  unfold acknowledge; split <;> rfl
@[simp] theorem acknowledge_fs (s : State) (w : Word) : (acknowledge w s).fs = s.fs := by
  unfold acknowledge; split <;> rfl
@[simp] theorem acknowledge_bits (s : State) (w : Word) : (acknowledge w s).bits = s.bits := by
  unfold acknowledge; split <;> rfl
@[simp] theorem acknowledge_headroom (s : State) (w : Word) : (acknowledge w s).headroom = s.headroom := by
  unfold acknowledge; split <;> rfl
@[simp] theorem acknowledge_length (s : State) (w : Word) : (acknowledge w s).length = s.length := by
  unfold acknowledge; split <;> rfl
@[simp] theorem acknowledge_noise (s : State) (w : Word) : (acknowledge w s).noise = s.noise := by
  unfold acknowledge; split <;> rfl
@[simp] theorem acknowledge_sampleIdx (s : State) (w : Word) : (acknowledge w s).sampleIdx = s.sampleIdx := by
  unfold acknowledge; split <;> rfl
@[simp] theorem acknowledge_pcmLast (s : State) (w : Word) : (acknowledge w s).pcmLast = s.pcmLast := by
  unfold acknowledge; split <;> rfl
@[simp] theorem acknowledge_runFs (s : State) (w : Word) : (acknowledge w s).runFs = s.runFs := by
  unfold acknowledge; split <;> rfl
@[simp] theorem acknowledge_runBits (s : State) (w : Word) : (acknowledge w s).runBits = s.runBits := by
  unfold acknowledge; split <;> rfl
@[simp] theorem acknowledge_runHeadroom (s : State) (w : Word) : (acknowledge w s).runHeadroom = s.runHeadroom := by
  unfold acknowledge; split <;> rfl
@[simp] theorem acknowledge_runLength (s : State) (w : Word) : (acknowledge w s).runLength = s.runLength := by
  unfold acknowledge; split <;> rfl
@[simp] theorem acknowledge_voices (s : State) (w : Word) : (acknowledge w s).voices = s.voices := by
  unfold acknowledge; split <;> rfl
@[simp] theorem acknowledge_stages (s : State) (w : Word) : (acknowledge w s).stages = s.stages := by
  unfold acknowledge; split <;> rfl
@[simp] theorem acknowledge_ram (s : State) (w : Word) : (acknowledge w s).ram = s.ram := by
  unfold acknowledge; split <;> rfl
@[simp] theorem acknowledge_stream (s : State) (w : Word) : (acknowledge w s).stream = s.stream := by
  unfold acknowledge; split <;> rfl
@[simp] theorem acknowledge_accepted (s : State) (w : Word) : (acknowledge w s).accepted = s.accepted := by
  unfold acknowledge; split <;> rfl
@[simp] theorem acknowledge_hostQueue (s : State) (w : Word) : (acknowledge w s).hostQueue = s.hostQueue := by
  unfold acknowledge; split <;> rfl
@[simp] theorem acknowledge_replies (s : State) (w : Word) : (acknowledge w s).replies = s.replies := by
  unfold acknowledge; split <;> rfl
@[simp] theorem acknowledge_sinkScript (s : State) (w : Word) : (acknowledge w s).sinkScript = s.sinkScript := by
  unfold acknowledge; split <;> rfl
@[simp] theorem acknowledge_sinkRest (s : State) (w : Word) : (acknowledge w s).sinkRest = s.sinkRest := by
  unfold acknowledge; split <;> rfl
@[simp] theorem acknowledge_resetPin (s : State) (w : Word) : (acknowledge w s).resetPin = s.resetPin := by
  unfold acknowledge; split <;> rfl
@[simp] theorem acknowledge_freeTick (s : State) (w : Word) : (acknowledge w s).freeTick = s.freeTick := by
  unfold acknowledge; split <;> rfl
@[simp] theorem acknowledge_powerOns (s : State) (w : Word) : (acknowledge w s).powerOns = s.powerOns := by
  unfold acknowledge; split <;> rfl

/-! ### Record reads after record writes -/

@[simp] theorem voice_setVoice_same (s : State) (v : Fin Config.NV) (x : Voice) : (s.setVoice v x).voice v = x := by
  simp [State.voice]

theorem voice_setVoice_ne (s : State) {v u : Fin Config.NV} (x : Voice) (h : u ≠ v) :
    (s.setVoice v x).voice u = s.voice u := by
  have h' : v.val ≠ u.val := fun e => h (Fin.ext e.symm)
  simp [State.voice, Vector.getElem_set_ne _ _ h']

@[simp] theorem stage_setVoice (s : State) (v u : Fin Config.NV) (st : Fin Config.NS) (x : Voice) :
    (s.setVoice v x).stage u st = s.stage u st := rfl

@[simp] theorem voice_setStage (s : State) (v u : Fin Config.NV) (st : Fin Config.NS) (x : Stage) :
    (s.setStage v st x).voice u = s.voice u := rfl

@[simp] theorem stage_setStage_same (s : State) (v : Fin Config.NV) (st : Fin Config.NS) (x : Stage) :
    (s.setStage v st x).stage v st = x := by
  simp [State.stage]

theorem stage_setStage_ne (s : State) {v u : Fin Config.NV} {st su : Fin Config.NS} (x : Stage)
    (h : (u, su) ≠ (v, st)) : (s.setStage v st x).stage u su = s.stage u su := by
  unfold State.stage
  by_cases hv : u = v
  · subst hv
    have hs : st.val ≠ su.val := fun e => h (by rw [Fin.ext e])
    simp [Vector.getElem_set_ne _ _ hs]
  · have hv' : v.val ≠ u.val := fun e => hv (Fin.ext e.symm)
    simp [Vector.getElem_set_ne _ _ hv']

@[simp] theorem arg_setArg_same (s : State) (k : Fin 8) (x : Word) : (s.setArg k x).arg k = x := by
  simp [State.arg]

theorem arg_setArg_ne (s : State) {k j : Fin 8} (x : Word) (h : j ≠ k) : (s.setArg k x).arg j = s.arg j := by
  have h' : k.val ≠ j.val := fun e => h (Fin.ext e.symm)
  simp [State.arg, Vector.getElem_set_ne _ _ h']

/-! ### The error record -/

/-- Everything `recordError` does (60_exceptions.md R310), with no case split left. -/
theorem recordError_eq_recorded (code : ErrorCode) (w : CmdWord) (s : State) :
    recordError code w s = recorded code w s := by
  unfold recordError recorded
  cases h : s.err <;> simp

/-- The first error is kept. -/
theorem recordError_err (code : ErrorCode) (w : CmdWord) (s : State) :
    (recordError code w s).err = some (s.err.getD code) := by
  unfold recordError; cases h : s.err <;> simp

/-! ### The IRQ line -/

theorem irqLine_of_empty {s : State} (h : s.stream = []) : irqLine s = pendingEnabled s := if_pos h

theorem irqLine_of_stalled {s : State} (h : s.stream ≠ []) : irqLine s = s.irqHeld := if_neg h

end Sys2Proof.Machine
end

