-- ==== Sys2Proof/Laws/Operands.lean ====
section
/-! SUPPORT. The operand forms: an index in range gives the command's own effect, one out of range the error record; and
what passing the region check says. -/

namespace Sys2Proof.Machine

theorem onVoice_of_lt {i : Instr} {v : BitVec 4} {s : State} {body : Fin Config.NV → Result}
    (h : v.toNat < Config.NV) : onVoice i v s body = body ⟨v.toNat, h⟩ := by
  unfold onVoice; rw [dif_pos h]

theorem onVoice_of_ge {i : Instr} {v : BitVec 4} {s : State} {body : Fin Config.NV → Result}
    (h : ¬ v.toNat < Config.NV) : onVoice i v s body = raise .illegalCommand (encode i) s := by
  unfold onVoice; rw [dif_neg h]

theorem onStage_of_lt {i : Instr} {v : BitVec 4} {st : BitVec 2} {s : State}
    {body : Fin Config.NV → Fin Config.NS → Result} (h : v.toNat < Config.NV) (hs : st.toNat < Config.NS) :
    onStage i v st s body = body ⟨v.toNat, h⟩ ⟨st.toNat, hs⟩ := by
  unfold onStage; rw [onVoice_of_lt h, dif_pos hs]

/-- A command with a voice operand is its own effect at some voice, or an error record. -/
theorem onVoice_cases (i : Instr) (v : BitVec 4) (s : State) (body : Fin Config.NV → Result) :
    (∃ u, onVoice i v s body = body u) ∨ onVoice i v s body = raise .illegalCommand (encode i) s := by
  by_cases h : v.toNat < Config.NV
  · exact .inl ⟨_, onVoice_of_lt h⟩
  · exact .inr (onVoice_of_ge h)

/-- A command with a stage operand is its own effect at some stage, or an error record. -/
theorem onStage_cases (i : Instr) (v : BitVec 4) (st : BitVec 2) (s : State)
    (body : Fin Config.NV → Fin Config.NS → Result) :
    (∃ u su, onStage i v st s body = body u su) ∨ onStage i v st s body = raise .illegalCommand (encode i) s := by
  unfold onStage
  rcases onVoice_cases i v s (fun vi => if h : st.toNat < Config.NS then body vi ⟨st.toNat, h⟩
    else raise .illegalCommand (encode i) s) with ⟨u, h⟩ | h
  · rw [h]
    by_cases hs : st.toNat < Config.NS
    · exact .inl ⟨u, _, dif_pos hs⟩
    · exact .inr (dif_neg hs)
  · exact .inr h

/-- `raise` always answers a next state, with the record made (60_exceptions.md R300, R310). -/
theorem raise_eq (code : ErrorCode) (w : CmdWord) (s : State) : raise code w s = .next (recorded code w s) := by
  rw [raise, recordError_eq_recorded]

theorem mem_allUnits (u : UnitId) : u ∈ allUnits := by
  cases u <;> simp [allUnits]

theorem disjointRegions_iff (b n b2 n2 : Nat) : disjointRegions b n b2 n2 = true ↔ b + n ≤ b2 ∨ b2 + n2 ≤ b := by
  simp [disjointRegions]

/-- What the region check says (20_memory.md R76). -/
theorem regionOK_iff (b n : Nat) (u : UnitId) (s : State) :
    regionOK b n u s = true ↔
      1 ≤ n ∧ b < Config.RAM_WORDS ∧ n ≤ Config.RAM_WORDS - b ∧
        ∀ u2 b2 n2, u2 ≠ u → ownedRegion s u2 = some (b2, n2) → b + n ≤ b2 ∨ b2 + n2 ≤ b := by
  unfold regionOK
  simp only [Bool.and_eq_true, decide_eq_true_eq, List.all_eq_true, Bool.or_eq_true, beq_iff_eq, and_assoc]
  refine and_congr_right fun _ => and_congr_right fun _ => and_congr_right fun _ => ⟨?_, ?_⟩
  · intro h u2 b2 n2 hne ho
    rcases h u2 (mem_allUnits u2) with h | h
    · exact absurd h hne
    · rw [ho] at h; exact (disjointRegions_iff ..).mp h
  · intro h u2 _
    by_cases hne : u2 = u
    · exact .inl hne
    · right
      cases ho : ownedRegion s u2 with
      | none => rfl
      | some r => exact (disjointRegions_iff ..).mpr (h u2 r.1 r.2 hne ho)

/-! ### Owned regions (10_state.md R48) -/

theorem ownedRegion_voice_some {s : State} {v : Fin Config.NV} {b n : Nat} :
    ownedRegion s (.voice v) = some (b, n) ↔
      (s.voice v).kind = .ks ∧ b = (s.voice v).base.toNat ∧ n = (s.voice v).len.toNat := by
  unfold ownedRegion; split <;> simp_all [eq_comm]

theorem ownedRegion_stage_some {s : State} {v : Fin Config.NV} {st : Fin Config.NS} {b n : Nat} :
    ownedRegion s (.stage v st) = some (b, n) ↔
      ((s.stage v st).kind = .comb ∨ (s.stage v st).kind = .delay) ∧ b = (s.stage v st).base.toNat ∧
        n = (s.stage v st).n.toNat := by
  unfold ownedRegion; split <;> simp_all [eq_comm]

/-- The owned regions depend on the records alone. -/
theorem ownedRegion_congr {s t : State} (hv : t.voices = s.voices) (hs : t.stages = s.stages) :
    ownedRegion t = ownedRegion s := by
  funext u
  cases u with
  | voice v =>
    have e : t.voice v = s.voice v := by simp only [State.voice, hv]
    simp only [ownedRegion, e]
  | stage v st =>
    have e : t.stage v st = s.stage v st := by simp only [State.stage, hs]
    simp only [ownedRegion, e]

end Sys2Proof.Machine
end

