-- ==== Sys2Proof/Laws/Checks.lean ====
section
/-! SUPPORT. What passing each parameter check says, as propositions: biquad, comb and delay, Karplus-Strong, render. -/

namespace Sys2Proof.Machine

/-- 41_biquad.md R141. -/
theorem biquadOK_iff (c : Config.At) (fc q : F64) (fs : BitVec 32) :
    biquadOK c fc q fs = true ↔
      fs ≠ 0 ∧ isFinite fc = true ∧ fLt fZero fc = true ∧ fLt fc (fDiv c (fOfNat fs.toNat) fTwo) = true ∧
        isFinite q = true ∧ fLt fZero q = true := by
  unfold biquadOK
  simp only [Bool.and_eq_true, bne_iff_ne, and_assoc]
  exact Iff.rfl

/-- 42_comb_delay.md R171. -/
theorem combOK_iff (g : F64) (n b : Nat) (fs : BitVec 32) (u : UnitId) (s : State) :
    combOK g n b fs u s = true ↔
      fs ≠ 0 ∧ isFinite g = true ∧ fLt (fAbs g) fOne = true ∧ regionOK b n u s = true := by
  unfold combOK
  simp only [Bool.and_eq_true, bne_iff_ne, and_assoc]
  exact Iff.rfl

/-- 44_karplus_strong.md R214. -/
theorem ksOK_iff (c : Config.At) (f g d : F64) (b : Nat) (v : Fin Config.NV) (s : State) :
    ksOK c f g d b v s = true ↔
      s.fs ≠ 0 ∧ (isFinite f = true ∧ fLt fZero f = true) ∧ isFinite g = true ∧
        (isFinite d = true ∧ fLe fZero d = true ∧ fLe d fOne = true) ∧ isFinite (ksRatio c f s.fs) = true ∧
        2 ≤ ksLength c f s.fs ∧ regionOK b (ksLength c f s.fs).toNat (.voice v) s = true ∧ s.noise ≠ 0 := by
  unfold ksOK
  simp only [Bool.and_eq_true, decide_eq_true_eq, bne_iff_ne, and_assoc]
  exact Iff.rfl

/-- 45_pipeline.md R241. -/
theorem renderOK_iff (s : State) :
    renderOK s = true ↔
      s.fs ≠ 0 ∧ (2 ≤ s.bits.toNat ∧ s.bits.toNat ≤ 32) ∧ (isFinite s.headroom = true ∧ fLt fZero s.headroom = true) ∧
        (∀ v, (s.voice v).kind = .ks → (s.voice v).fsLat = s.fs) ∧
        (∀ v st, (s.stage v st).kind ≠ .bypass → (s.stage v st).fsLat = s.fs) := by
  unfold renderOK ratesAgree
  simp only [Bool.and_eq_true, decide_eq_true_eq, bne_iff_ne, and_assoc, List.all_eq_true, List.mem_finRange,
    Bool.or_eq_true, beq_iff_eq, true_implies, ← imp_iff_not_or, ne_eq]
  have e : ∀ (v : Fin Config.NV) (st : Fin Config.NS),
      ((s.stage v st).kind = .bypass ∨ (s.stage v st).fsLat = s.fs) ↔
        (¬ (s.stage v st).kind = .bypass → (s.stage v st).fsLat = s.fs) := fun v st => by tauto
  simp only [e]
  exact Iff.rfl

end Sys2Proof.Machine
end

