-- ==== Sys2Proof/Laws/PerInstr.lean ====
section
/-! SUPPORT. A command word is its four fields, and what a format fixes of them; then what holds of every command as syntax,
one lemma for each constructor: its command word finds its own row of the opcode map, fits the row's format, and its fields
make the command again. -/

namespace Sys2Proof.Laws.EncodeFits

/-- The command word of `i` selects a row of the opcode map (30_encoding.md R94), fits its format (R92), and the row makes
`i` from the word's fields (R93). -/
def Statement (i : Instr) : Prop :=
  match opRow (opField (encode i)) with
  | none => False
  | some row =>
    fitsFormat row.format (encode i) = true ∧
      row.make (voiceField (encode i)) (stageField (encode i)) (countField (encode i)) = i

section Fields
variable (op : BitVec 6) (v : BitVec 4) (st : BitVec 2) (n : BitVec 20)

@[simp] theorem opField_assemble : opField (assemble op v st n) = op := by
  unfold opField assemble
  ext i hi
  simp
  grind

@[simp] theorem voiceField_assemble : voiceField (assemble op v st n) = v := by
  unfold voiceField assemble
  ext i hi
  simp
  grind

@[simp] theorem stageField_assemble : stageField (assemble op v st n) = st := by
  unfold stageField assemble
  ext i hi
  simp
  grind

@[simp] theorem countField_assemble : countField (assemble op v st n) = n := by
  unfold countField assemble
  ext i hi
  simp
  grind

end Fields

/-- A command word is its four fields (30_encoding.md R91). -/
theorem assemble_fields (w : CmdWord) : assemble (opField w) (voiceField w) (stageField w) (countField w) = w := by
  unfold assemble opField voiceField stageField countField
  rw [BitVec.extractLsb'_append_extractLsb'_eq_extractLsb' (by rfl),
    BitVec.extractLsb'_append_extractLsb'_eq_extractLsb' (by rfl),
    BitVec.extractLsb'_append_extractLsb'_eq_extractLsb' (by rfl)]
  simp

theorem assemble_inj {op op' : BitVec 6} {v v' : BitVec 4} {st st' : BitVec 2} {n n' : BitVec 20} :
    assemble op v st n = assemble op' v' st' n' ↔ op = op' ∧ v = v' ∧ st = st' ∧ n = n' := by
  constructor
  · intro h
    exact ⟨by simpa using congrArg opField h, by simpa using congrArg voiceField h,
      by simpa using congrArg stageField h, by simpa using congrArg countField h⟩
  · rintro ⟨rfl, rfl, rfl, rfl⟩; rfl

/-- What it takes to fit a format (30_encoding.md R92): the fields it does not use are 0. -/
theorem fitsFormat_iff (f : Format) (w : CmdWord) :
    fitsFormat f w = true ↔
      (usesVoice f = false → voiceField w = 0) ∧ (usesStage f = false → stageField w = 0) ∧
        (f ≠ .I → countField w = 0) := by
  have e0 : ∀ op : BitVec 6, op ++ 0#26 = assemble op 0#4 0#2 0#20 := by decide
  unfold fitsFormat
  rw [beq_iff_eq, e0]
  conv_lhs => rw [← assemble_fields w]
  simp only [opField_assemble]
  have m : ∀ f, formatMask f = assemble 63#6 (if usesVoice f then 0#4 else 15#4) (if usesStage f then 0#2 else 3#2)
      (if f = .I then 0#20 else 0xFFFFF#20) := by
    intro f; cases f <;> decide
  rw [m f]
  have e1 : ∀ (op op' : BitVec 6) (v v' : BitVec 4) (st st' : BitVec 2) (n n' : BitVec 20),
      assemble op v st n &&& assemble op' v' st' n' = assemble (op &&& op') (v &&& v') (st &&& st') (n &&& n') := by
    intros; unfold assemble; rw [BitVec.and_append, BitVec.and_append, BitVec.and_append]
  rw [e1, assemble_inj]
  have h63 : opField w &&& 63#6 = opField w := by generalize opField w = a; revert a; decide
  have h15 : ∀ v : BitVec 4, v &&& 15#4 = v := by decide
  have h3 : ∀ v : BitVec 2, v &&& 3#2 = v := by decide
  have h20 : ∀ v : BitVec 20, v &&& 0xFFFFF#20 = v := fun v => by
    have : (0xFFFFF#20) = BitVec.allOnes 20 := by decide
    rw [this, BitVec.and_allOnes]
  cases f <;> simp [usesVoice, usesStage, h63, h15, h3, h20]

/-- A word whose unused fields are 0 fits its format. -/
theorem fits_stage (op : BitVec 6) (v : BitVec 4) (st : BitVec 2) : fitsFormat .VS (assemble op v st 0#20) = true := by
  simp [fitsFormat_iff, usesVoice, usesStage]

theorem fits_voice (op : BitVec 6) (v : BitVec 4) : fitsFormat .V (assemble op v 0#2 0#20) = true := by
  simp [fitsFormat_iff, usesVoice, usesStage]

theorem fits_none (op : BitVec 6) : fitsFormat .Z (assemble op 0#4 0#2 0#20) = true := by
  simp [fitsFormat_iff, usesVoice, usesStage]

theorem fits_count (op : BitVec 6) (n : BitVec 20) : fitsFormat .I (assemble op 0#4 0#2 n) = true := by
  simp [fitsFormat_iff, usesVoice, usesStage]

theorem nop : Statement .nop := by
  simp [Statement, encode, opRow, zRow, fits_none]

theorem srst : Statement .srst := by
  simp [Statement, encode, opRow, zRow, fits_none]

theorem start : Statement .start := by
  simp [Statement, encode, opRow, zRow, fits_none]

theorem step (n : BitVec 20) : Statement (.step n) := by
  simp [Statement, encode, opRow, iRow, fits_count]

theorem ramrd : Statement .ramrd := by
  simp [Statement, encode, opRow, zRow, fits_none]

theorem ramwr : Statement .ramwr := by
  simp [Statement, encode, opRow, zRow, fits_none]

theorem oscOff (v : BitVec 4) : Statement (.oscOff v) := by simp [Statement, encode, opRow, vRow, fits_voice]

theorem oscSine (v : BitVec 4) : Statement (.oscSine v) := by simp [Statement, encode, opRow, vRow, fits_voice]

theorem oscSquare (v : BitVec 4) : Statement (.oscSquare v) := by simp [Statement, encode, opRow, vRow, fits_voice]

theorem oscTriangle (v : BitVec 4) : Statement (.oscTriangle v) := by
  simp [Statement, encode, opRow, vRow, fits_voice]

theorem oscSawtooth (v : BitVec 4) : Statement (.oscSawtooth v) := by
  simp [Statement, encode, opRow, vRow, fits_voice]

theorem oscKs (v : BitVec 4) : Statement (.oscKs v) := by simp [Statement, encode, opRow, vRow, fits_voice]

theorem setFreq (v : BitVec 4) : Statement (.setFreq v) := by simp [Statement, encode, opRow, vRow, fits_voice]

theorem setGain (v : BitVec 4) : Statement (.setGain v) := by simp [Statement, encode, opRow, vRow, fits_voice]

theorem rdVoice (v : BitVec 4) : Statement (.rdVoice v) := by simp [Statement, encode, opRow, vRow, fits_voice]

theorem bypass (v : BitVec 4) (st : BitVec 2) : Statement (.bypass v st) := by
  simp [Statement, encode, opRow, vsRow, fits_stage]

theorem bqLpf (v : BitVec 4) (st : BitVec 2) : Statement (.bqLpf v st) := by
  simp [Statement, encode, opRow, vsRow, fits_stage]

theorem bqHpf (v : BitVec 4) (st : BitVec 2) : Statement (.bqHpf v st) := by
  simp [Statement, encode, opRow, vsRow, fits_stage]

theorem bqBpf (v : BitVec 4) (st : BitVec 2) : Statement (.bqBpf v st) := by
  simp [Statement, encode, opRow, vsRow, fits_stage]

theorem bqBrf (v : BitVec 4) (st : BitVec 2) : Statement (.bqBrf v st) := by
  simp [Statement, encode, opRow, vsRow, fits_stage]

theorem bqApf (v : BitVec 4) (st : BitVec 2) : Statement (.bqApf v st) := by
  simp [Statement, encode, opRow, vsRow, fits_stage]

theorem comb (v : BitVec 4) (st : BitVec 2) : Statement (.comb v st) := by
  simp [Statement, encode, opRow, vsRow, fits_stage]

theorem delay (v : BitVec 4) (st : BitVec 2) : Statement (.delay v st) := by
  simp [Statement, encode, opRow, vsRow, fits_stage]

theorem clrSt (v : BitVec 4) (st : BitVec 2) : Statement (.clrSt v st) := by
  simp [Statement, encode, opRow, vsRow, fits_stage]

theorem rdCoef (v : BitVec 4) (st : BitVec 2) : Statement (.rdCoef v st) := by
  simp [Statement, encode, opRow, vsRow, fits_stage]

theorem rdState (v : BitVec 4) (st : BitVec 2) : Statement (.rdState v st) := by
  simp [Statement, encode, opRow, vsRow, fits_stage]

end Sys2Proof.Laws.EncodeFits
end

