-- ==== Sys2Proof/Laws/Decode.lean ====
section
/-! SUPPORT. The decoder and the encoder: what a row of the opcode map makes, and the checks a decoded word has passed. -/

namespace Sys2Proof
open Laws.EncodeFits

/-- A write with upper bits 0 is its low word. -/
theorem upper_zero_iff (x : Word) : x.extractLsb' 32 32 = 0#32 ↔ x.toNat < 2 ^ 32 := by
  rw [← BitVec.toNat_inj, BitVec.extractLsb'_toNat, Nat.shiftRight_eq_div_pow]
  have := x.isLt
  simp only [BitVec.toNat_ofNat]
  omega

theorem lowWord_setWidth {x : Word} (h : x.toNat < 2 ^ 32) : (lowWord x).setWidth 64 = x := by
  unfold lowWord
  apply BitVec.eq_of_toNat_eq
  simp only [BitVec.toNat_setWidth]
  omega

theorem lowWord_of_setWidth (w : CmdWord) : lowWord (w.setWidth 64) = w := by
  unfold lowWord; simp

theorem decode_setWidth (w : CmdWord) : decode (w.setWidth 64) = decodeWord w := by
  unfold decode
  rw [if_neg, lowWord_of_setWidth]
  rw [not_not, upper_zero_iff, BitVec.toNat_setWidth]
  have := w.isLt
  omega

/-- A row of the opcode map makes a command that has the row's indices and op (30_encoding.md R94). -/
theorem opRow_make {op : BitVec 6} {row : OpRow} (h : opRow op = some row) (v : BitVec 4) (st : BitVec 2) (n : BitVec 20) :
    encode (row.make v st n) =
        assemble op (if usesVoice row.format then v else 0) (if usesStage row.format then st else 0)
          (if row.format = .I then n else 0) ∧
      (WellFormed (row.make v st n) ↔
        (usesVoice row.format = true → v.toNat < Config.NV) ∧ (usesStage row.format = true → st.toNat < Config.NS)) := by
  unfold opRow at h
  split at h <;> first
    | (cases h; rename_i e
       have e' : op = BitVec.ofNat 6 op.toNat := by simp
       rw [e] at e'; subst e'
       refine ⟨rfl, ?_⟩
       simp [zRow, vRow, vsRow, iRow, usesVoice, usesStage, WellFormed, wellFormedB, voiceFieldOk, stageFieldOk])
    | cases h

/-- What a decoded command word went through (30_encoding.md R96). -/
theorem decodeWord_ok {w : CmdWord} {i : Instr} (h : decodeWord w = .ok i) :
    ∃ row, opRow (opField w) = some row ∧ fitsFormat row.format w = true ∧
      (usesVoice row.format = true → (voiceField w).toNat < Config.NV) ∧
      (usesStage row.format = true → (stageField w).toNat < Config.NS) ∧
      i = row.make (voiceField w) (stageField w) (countField w) := by
  unfold decodeWord at h
  split at h
  · cases h
  · rename_i row hr
    split_ifs at h with h1 h2 h3
    refine ⟨row, hr, by simpa using h1, fun u => ?_, fun u => ?_, by cases h; rfl⟩
    · by_contra c; exact h2 ⟨u, by omega⟩
    · by_contra c; exact h3 ⟨u, by omega⟩

/-- A word that passes the checks decodes. -/
theorem decodeWord_of_checks {w : CmdWord} {row : OpRow} (h1 : opRow (opField w) = some row)
    (h2 : fitsFormat row.format w = true) (h3 : usesVoice row.format = true → (voiceField w).toNat < Config.NV)
    (h4 : usesStage row.format = true → (stageField w).toNat < Config.NS) :
    decodeWord w = .ok (row.make (voiceField w) (stageField w) (countField w)) := by
  unfold decodeWord
  rw [h1]
  dsimp only
  rw [if_neg (by rw [h2]; decide), if_neg (fun c => by have := h3 c.1; omega), if_neg (fun c => by have := h4 c.1; omega)]

/-- The fields of a written command word, in arithmetic on the written number (30_encoding.md R91). -/
theorem fields_toNat {x : Word} :
    (opField (lowWord x)).toNat = x.toNat / 2 ^ 26 % 64 ∧ (voiceField (lowWord x)).toNat = x.toNat / 2 ^ 22 % 16 ∧
    (stageField (lowWord x)).toNat = x.toNat / 2 ^ 20 % 4 ∧ (countField (lowWord x)).toNat = x.toNat % 2 ^ 20 := by
  have := x.isLt
  unfold opField voiceField stageField countField lowWord
  simp only [BitVec.extractLsb'_toNat, BitVec.toNat_setWidth, Nat.shiftRight_eq_div_pow]
  omega

/-- The format of each defined op (30_encoding.md R94). -/
theorem opRow_format (op : BitVec 6) :
    (opRow op).map (·.format) =
      if op.toNat ≤ 2 ∨ op.toNat = 4 ∨ op.toNat = 5 then some .Z
      else if op.toNat = 3 then some .I
      else if 8 ≤ op.toNat ∧ op.toNat ≤ 0x10 then some .V
      else if 0x18 ≤ op.toNat ∧ op.toNat ≤ 0x22 then some .VS else none := by
  revert op; decide

end Sys2Proof
end

