-- ==== Sys2Proof/Laws/Memory.lean ====
section
/-! SUPPORT. The laws of the sample RAM: reads after writes, the canonical form, and what the loops over RAM do. -/

namespace Sys2Proof.Machine

/-! ### The list -/

theorem lookup_insert_same (m : Memory) (a : Nat) (x : Word) : (m.insert a x).lookup a = some x := by
  induction m with
  | nil => simp [Memory.insert, Memory.lookup]
  | cons c rest ih =>
    obtain ⟨b, y⟩ := c
    unfold Memory.insert
    split
    · simp [Memory.lookup]
    · split
      · simp [Memory.lookup]
      · simp [Memory.lookup, *]

theorem lookup_insert_ne (m : Memory) {a b : Nat} (x : Word) (h : b ≠ a) :
    (m.insert a x).lookup b = m.lookup b := by
  induction m with
  | nil => simp [Memory.insert, Memory.lookup, h]
  | cons c rest ih =>
    obtain ⟨d, y⟩ := c
    unfold Memory.insert
    split
    · simp [Memory.lookup, h]
    · split
      · simp_all [Memory.lookup]
      · simp [Memory.lookup, ih]

theorem risingFrom_insert (m : Memory) : ∀ (lo a : Nat) (x : Word), lo ≤ a → a < Config.RAM_WORDS →
    m.risingFrom lo = true → (m.insert a x).risingFrom lo = true := by
  induction m with
  | nil => intro lo a x h1 h2 _; simp [Memory.insert, Memory.risingFrom, h1, h2]
  | cons c rest ih =>
    obtain ⟨b, y⟩ := c
    intro lo a x h1 h2 h
    simp only [Memory.risingFrom, Bool.and_eq_true, decide_eq_true_eq] at h
    obtain ⟨⟨hb1, hb2⟩, hr⟩ := h
    unfold Memory.insert
    split
    · next hlt => simp [Memory.risingFrom, h1, h2, hb2, hr, Nat.succ_le_of_lt hlt]
    · split
      · next heq => subst heq; simp [Memory.risingFrom, h1, h2, hr]
      · next hlt hne =>
        simp only [Memory.risingFrom, Bool.and_eq_true, decide_eq_true_eq]
        exact ⟨⟨hb1, hb2⟩, ih (b + 1) a x (by omega) h2 hr⟩

/-- A write to an existing address keeps the canonical form. -/
theorem wf_insert {m : Memory} {a : Nat} (x : Word) (ha : a < Config.RAM_WORDS) (h : m.wf = true) :
    (m.insert a x).wf = true := risingFrom_insert m 0 a x (Nat.zero_le a) ha h

/-- Below the bound nothing is listed. -/
theorem lookup_below (m : Memory) : ∀ {lo a : Nat}, m.risingFrom lo = true → a < lo → m.lookup a = none := by
  induction m with
  | nil => intro lo a _ _; rfl
  | cons c rest ih =>
    obtain ⟨b, y⟩ := c
    intro lo a h ha
    simp only [Memory.risingFrom, Bool.and_eq_true, decide_eq_true_eq] at h
    have hne : a ≠ b := by omega
    simp only [Memory.lookup, hne, if_false]
    exact ih h.2 (by omega)

theorem risingFrom_ext (m : Memory) : ∀ (m' : Memory) {lo : Nat}, m.risingFrom lo = true → m'.risingFrom lo = true →
    (∀ a, m.lookup a = m'.lookup a) → m = m' := by
  induction m with
  | nil =>
    intro m' lo _ _ h
    cases m' with
    | nil => rfl
    | cons c rest => have := h c.1; simp [Memory.lookup] at this
  | cons c rest ih =>
    obtain ⟨b, y⟩ := c
    intro m' lo h1 h2 h
    cases m' with
    | nil => have := h b; simp [Memory.lookup] at this
    | cons c' rest' =>
      obtain ⟨b', y'⟩ := c'
      simp only [Memory.risingFrom, Bool.and_eq_true, decide_eq_true_eq] at h1 h2
      have hb : b = b' := by
        by_contra hne
        rcases Nat.lt_or_gt_of_ne hne with hlt | hgt
        · have e := h b
          simp only [Memory.lookup, hne, if_true, if_false] at e
          rw [lookup_below rest' h2.2 (by omega)] at e
          cases e
        · have e := h b'
          simp only [Memory.lookup, Ne.symm hne, if_true, if_false] at e
          rw [lookup_below rest h1.2 (by omega)] at e
          cases e
      subst hb
      have hy : y = y' := by have := h b; simpa [Memory.lookup] using this
      subst hy
      have : rest = rest' := by
        refine ih rest' h1.2 h2.2 fun a => ?_
        by_cases ha : a = b
        · subst ha; rw [lookup_below rest h1.2 (by omega), lookup_below rest' h2.2 (by omega)]
        · have := h a; simpa [Memory.lookup, ha] using this
      rw [this]

/-- Equal memories are equal data: two canonical memories with the same written words are one list. -/
theorem memory_ext {m m' : Memory} (h : m.wf = true) (h' : m'.wf = true) (e : ∀ a, m.lookup a = m'.lookup a) :
    m = m' := risingFrom_ext m m' h h' e

/-! ### The primitives (20_memory.md R72) -/

theorem memRead_of_lt {a : Nat} {s : State} (h : a < Config.RAM_WORDS) : memRead a s = .ok (ramWord s a) := by
  simp [memRead, h]

theorem memRead_of_ge {a : Nat} {s : State} (h : ¬ a < Config.RAM_WORDS) : memRead a s = .error (.noSuchRamWord a) := by
  simp [memRead, h]

/-- The one thing a successful RAM write does. -/
theorem memWrite_ok_iff {a : Nat} {x : Word} {s t : State} :
    memWrite a x s = .ok t ↔ a < Config.RAM_WORDS ∧ t = { s with ram := s.ram.insert a x } := by
  unfold memWrite
  split <;> simp_all [eq_comm]

theorem memWrite_of_lt {a : Nat} {s : State} (x : Word) (h : a < Config.RAM_WORDS) :
    memWrite a x s = .ok { s with ram := s.ram.insert a x } := memWrite_ok_iff.mpr ⟨h, rfl⟩

/-- A word's content depends on the RAM and the power-on count alone. -/
theorem ramWord_congr {s t : State} (h1 : t.ram = s.ram) (h2 : t.powerOns = s.powerOns) (a : Nat) :
    ramWord t a = ramWord s a := by unfold ramWord; rw [h1, h2]

@[simp] theorem ramWord_insert_same (s : State) (a : Nat) (x : Word) :
    ramWord { s with ram := s.ram.insert a x } a = x := by simp [ramWord, lookup_insert_same]

theorem ramWord_insert_ne (s : State) {a b : Nat} (x : Word) (h : b ≠ a) :
    ramWord { s with ram := s.ram.insert a x } b = ramWord s b := by simp [ramWord, lookup_insert_ne _ _ h]

@[simp] theorem ramWord_setVoice (s : State) (v : Fin Config.NV) (x : Voice) (a : Nat) :
    ramWord (s.setVoice v x) a = ramWord s a := rfl

@[simp] theorem ramWord_setStage (s : State) (v : Fin Config.NV) (st : Fin Config.NS) (x : Stage) (a : Nat) :
    ramWord (s.setStage v st x) a = ramWord s a := rfl

/-! ### The loops -/

/-- Everything a zero fill inside the RAM does (42_comb_delay.md R172): it succeeds, only the RAM changes, the words of
the region read +0.0, every other word reads as before, and the canonical form stays. -/
theorem zeroFill_spec (n : Nat) : ∀ (b : Nat) (s : State), b + n ≤ Config.RAM_WORDS →
    ∃ m, zeroFill n b s = .ok { s with ram := m } ∧
      (∀ a, ramWord { s with ram := m } a = if b ≤ a ∧ a < b + n then 0 else ramWord s a) ∧
      (s.ram.wf = true → m.wf = true) := by
  induction n with
  | zero =>
    intro b s _
    refine ⟨s.ram, rfl, fun a => ?_, id⟩
    rw [if_neg (by omega)]
  | succ n ih =>
    intro b s h
    obtain ⟨m, h1, h2, h3⟩ := ih (b + 1) { s with ram := s.ram.insert b 0 } (by omega)
    refine ⟨m, ?_, fun a => ?_, fun hw => h3 (wf_insert _ (by omega) hw)⟩
    · simp only [zeroFill, memWrite_of_lt (s := s) 0 (show b < Config.RAM_WORDS by omega), Except.bind]
      exact h1
    · have e := h2 a
      rw [show ramWord { s with ram := m } a = ramWord { { s with ram := s.ram.insert b 0 } with ram := m } a from rfl, e]
      by_cases hab : a = b
      · subst hab
        rw [if_neg (by omega), if_pos (by omega), ramWord_insert_same]
      · rw [ramWord_insert_ne s 0 hab]
        congr 1
        apply propext
        constructor <;> intro hh <;> omega

/-- The place of a command's operations does not depend on the registers. -/
@[simp] theorem commandPlace_noise (s : State) (x : BitVec 32) : commandPlace { s with noise := x } = commandPlace s := rfl

/-- Everything a noise fill inside the RAM does (44_karplus_strong.md R215): NOISE advances once a word, word `b + k`
holds the value of the (k+1)-th draw, and every other word reads as before. -/
theorem noiseFill_spec (n : Nat) : ∀ (b : Nat) (s : State), b + n ≤ Config.RAM_WORDS →
    ∃ m, noiseFill n b s = .ok { s with ram := m, noise := xorshift32^[n] s.noise } ∧
      (∀ a, ramWord { s with ram := m, noise := xorshift32^[n] s.noise } a =
        if b ≤ a ∧ a < b + n then noiseValue (commandPlace s) (xorshift32^[a - b + 1] s.noise) else ramWord s a) ∧
      (s.ram.wf = true → m.wf = true) := by
  induction n with
  | zero =>
    intro b s _
    refine ⟨s.ram, rfl, fun a => ?_, id⟩
    rw [if_neg (by omega)]
    rfl
  | succ n ih =>
    intro b s h
    have hb : b < Config.RAM_WORDS := by omega
    obtain ⟨m, h1, h2, h3⟩ :=
      ih (b + 1) { s with noise := xorshift32 s.noise, ram := s.ram.insert b (noiseDraw s).1 } (by omega)
    refine ⟨m, ?_, fun a => ?_, fun hw => h3 (wf_insert _ hb hw)⟩
    · simp only [noiseFill, memWrite_of_lt _ hb, Except.bind]
      exact h1
    · have e1 : ∀ a, ramWord { s with noise := xorshift32 s.noise, ram := s.ram.insert b (noiseDraw s).1 } a =
        ramWord { s with ram := s.ram.insert b (noiseDraw s).1 } a := fun _ => rfl
      refine Eq.trans (ramWord_congr rfl rfl a) ((h2 a).trans ?_)
      rw [e1]
      by_cases hab : a = b
      · subst hab
        rw [if_neg (by omega), if_pos (by omega), ramWord_insert_same]
        simp [noiseDraw]
      · rw [ramWord_insert_ne s _ hab]
        by_cases hin : b + 1 ≤ a ∧ a < b + 1 + n
        · rw [if_pos hin, if_pos (by omega)]
          have : a - b + 1 = (a - (b + 1) + 1) + 1 := by omega
          rw [this, Function.iterate_succ_apply (f := xorshift32) (n := a - (b + 1) + 1)]
          rfl
        · rw [if_neg hin, if_neg (by omega)]

end Sys2Proof.Machine
end

