-- ==== Sys2Proof/Laws/F64.lean ====
section
/-! SUPPORT. The laws of the binary64 arithmetic: fields of a packed number, the order of magnitudes, and that the one
rounding is to nearest with ties to even. -/

namespace Sys2Proof.Machine

/-! ### Fields of a packed number -/

theorem magBits_lt (x : F64) : magBits x < 2 ^ 63 := Nat.mod_lt _ (by norm_num)

theorem infBits_lt : infBits < 2 ^ 63 := by norm_num [infBits]

theorem magBits_pack (neg : Bool) {m : Nat} (h : m < 2 ^ 63) : magBits (pack neg m) = m := by
  unfold magBits pack
  rw [BitVec.toNat_ofNat]
  cases neg
  · simp; omega
  · simp only [if_true]; omega

theorem signBit_pack (neg : Bool) {m : Nat} (h : m < 2 ^ 63) : signBit (pack neg m) = neg := by
  unfold signBit pack
  rw [BitVec.msb_eq_decide, BitVec.toNat_ofNat]
  cases neg
  · simp; omega
  · simp only [if_true, decide_eq_true_eq]; omega

/-- A word is its sign and its magnitude field. -/
theorem pack_eta (x : F64) : pack (signBit x) (magBits x) = x := by
  apply BitVec.eq_of_toNat_eq
  have hx := x.isLt
  unfold pack signBit magBits
  rw [BitVec.msb_eq_decide, BitVec.toNat_ofNat]
  by_cases h : 2 ^ (64 - 1) ≤ x.toNat
  · simp only [h, decide_true, if_true]; omega
  · simp only [h, decide_false]; simp; omega

theorem ext_fields {x y : F64} (h1 : signBit x = signBit y) (h2 : magBits x = magBits y) : x = y := by
  rw [← pack_eta x, ← pack_eta y, h1, h2]

theorem fNeg_eq (x : F64) : fNeg x = pack (!signBit x) (magBits x) := by
  apply ext_fields
  · rw [signBit_pack _ (magBits_lt x)]
    simp [signBit, fNeg, BitVec.msb_xor]
    cases x.msb <;> decide
  · rw [magBits_pack _ (magBits_lt x)]
    unfold magBits fNeg
    rw [BitVec.toNat_xor, Nat.xor_mod_two_pow]
    have : (0x8000000000000000#64).toNat % 2 ^ 63 = 0 := by decide
    rw [this, Nat.xor_zero]

@[simp] theorem magBits_fNeg (x : F64) : magBits (fNeg x) = magBits x := by
  rw [fNeg_eq, magBits_pack _ (magBits_lt x)]

@[simp] theorem signBit_fNeg (x : F64) : signBit (fNeg x) = !signBit x := by
  rw [fNeg_eq, signBit_pack _ (magBits_lt x)]

theorem fAbs_eq (x : F64) : fAbs x = pack false (magBits x) := by
  apply BitVec.eq_of_toNat_eq
  have e : (fAbs x).toNat = x.toNat &&& (2 ^ 63 - 1) := BitVec.toNat_and ..
  rw [e, Nat.and_two_pow_sub_one_eq_mod]
  unfold pack magBits
  rw [BitVec.toNat_ofNat]
  simp
  omega

@[simp] theorem magBits_fAbs (x : F64) : magBits (fAbs x) = magBits x := by
  rw [fAbs_eq, magBits_pack _ (magBits_lt x)]

@[simp] theorem signBit_fAbs (x : F64) : signBit (fAbs x) = false := by
  rw [fAbs_eq, signBit_pack _ (magBits_lt x)]

/-! ### Classes -/

theorem isFinite_iff (x : F64) : isFinite x = true ↔ magBits x < infBits := by simp [isFinite]

theorem isNaN_iff (x : F64) : isNaN x = true ↔ infBits < magBits x := by simp [isNaN]

theorem isNaN_of_finite {x : F64} (h : isFinite x = true) : isNaN x = false := by
  rw [isFinite_iff] at h
  simp only [isNaN, decide_eq_false_iff_not]
  omega

theorem isInf_of_finite {x : F64} (h : isFinite x = true) : isInf x = false := by
  rw [isFinite_iff] at h
  simp only [isInf, beq_eq_false_iff_ne]
  omega

/-- A NaN made from free bits is a NaN, whatever the bits (00_scope.md R10). -/
theorem isNaN_nanFrom (w : Word) : isNaN (nanFrom w) = true := by
  have hf : fracField w < 2 ^ 52 := Nat.mod_lt _ (by norm_num)
  have h : infBits + (if fracField w = 0 then 1 else fracField w) < 2 ^ 63 := by
    unfold infBits; split <;> omega
  rw [isNaN_iff, nanFrom, magBits_pack _ h]
  split <;> omega

/-- Every NaN is made from some bits (its own): no NaN is left out. -/
theorem nanFrom_surjective (x : F64) (h : isNaN x = true) : nanFrom x = x := by
  rw [isNaN_iff] at h
  have h1 := magBits_lt x
  unfold infBits at h
  have hfrac : fracField x = magBits x - 0x7FF0000000000000 := by
    unfold fracField
    omega
  have hne : fracField x ≠ 0 := by omega
  have hsum : infBits + fracField x = magBits x := by rw [hfrac]; unfold infBits; omega
  unfold nanFrom
  rw [if_neg hne, hsum, pack_eta]

/-! ### The order of magnitudes -/

theorem unitsOfMag_small {m : Nat} (h : m < 2 ^ 52) : unitsOfMag m = m := by
  unfold unitsOfMag
  rw [if_pos (Nat.div_eq_of_lt h), Nat.mod_eq_of_lt h]

/-- A significand `m` at exponent step `k`, the carry into the next binade included. -/
theorem unitsOfMag_step {k m : Nat} (hk : k = 0 ∨ 2 ^ 52 ≤ m) (hm : m ≤ 2 ^ 53) :
    unitsOfMag (k * 2 ^ 52 + m) = m * 2 ^ k := by
  rcases Nat.lt_or_ge m (2 ^ 52) with h | h
  · rcases hk with rfl | hk
    · simp [unitsOfMag_small h]
    · omega
  · rcases Nat.eq_or_lt_of_le hm with rfl | h2
    · unfold unitsOfMag
      have e1 : (k * 2 ^ 52 + 2 ^ 53) / 2 ^ 52 = k + 2 := by omega
      have e2 : (k * 2 ^ 52 + 2 ^ 53) % 2 ^ 52 = 0 := by omega
      rw [e1, e2, if_neg (by omega), show k + 2 - 1 = k + 1 by omega, pow_succ 2 k]
      ring
    · unfold unitsOfMag
      have e1 : (k * 2 ^ 52 + m) / 2 ^ 52 = k + 1 := by omega
      have e2 : (k * 2 ^ 52 + m) % 2 ^ 52 = m - 2 ^ 52 := by omega
      rw [e1, e2, if_neg (by omega), show k + 1 - 1 = k by omega,
        show 2 ^ 52 + (m - 2 ^ 52) = m by omega]

theorem unitsOfMag_lt_succ (m : Nat) : unitsOfMag m < unitsOfMag (m + 1) := by
  rcases Nat.lt_or_ge m (2 ^ 52) with h | h
  · have a := unitsOfMag_step (k := 0) (m := m) (.inl rfl) (by omega)
    have b := unitsOfMag_step (k := 0) (m := m + 1) (.inl rfl) (by omega)
    simp only [Nat.zero_mul, Nat.zero_add, pow_zero, Nat.mul_one] at a b
    omega
  · obtain ⟨k, r, hr, rfl⟩ : ∃ k r, (2 ^ 52 ≤ r ∧ r < 2 ^ 53) ∧ m = k * 2 ^ 52 + r :=
      ⟨m / 2 ^ 52 - 1, m - (m / 2 ^ 52 - 1) * 2 ^ 52, by omega, by omega⟩
    rw [Nat.add_assoc, unitsOfMag_step (.inr hr.1) (by omega), unitsOfMag_step (.inr (by omega)) (by omega)]
    exact Nat.mul_lt_mul_of_pos_right (Nat.lt_succ_self r) (by positivity)

theorem unitsOfMag_strictMono : StrictMono unitsOfMag := strictMono_nat_of_lt_succ unitsOfMag_lt_succ

theorem unitsOfMag_le_iff {a b : Nat} : unitsOfMag a ≤ unitsOfMag b ↔ a ≤ b := unitsOfMag_strictMono.le_iff_le

theorem unitsOfMag_lt_iff {a b : Nat} : unitsOfMag a < unitsOfMag b ↔ a < b := unitsOfMag_strictMono.lt_iff_lt

/-! ### The rounding -/

/-- `nearestEven` is no further from the quotient than any other integer, and even in a tie. -/
theorem nearestEven_spec (p : Nat) {d : Nat} (hd : 0 < d) (n : Nat) :
    |(nearestEven p d * d : Int) - p| ≤ |(n * d : Int) - p| ∧
      (|(nearestEven p d * d : Int) - p| = |(n * d : Int) - p| → n ≠ nearestEven p d → nearestEven p d % 2 = 0) := by
  have hp : p = p / d * d + p % d := by rw [Nat.mul_comm]; exact (Nat.div_add_mod p d).symm
  have hr : p % d < d := Nat.mod_lt p hd
  generalize hQ : p / d = Q at *
  generalize hR : p % d = R at *
  have key : ∀ N : Nat, ((N * d : Int) - p) = ((N : Int) - Q) * d - R := by
    intro N
    have : (p : Int) = Q * d + R := by exact_mod_cast hp
    rw [this]; ring
  have cases_n : n < Q ∨ n = Q ∨ n = Q + 1 ∨ Q + 1 < n := by omega
  have hdI : (0 : Int) < d := by exact_mod_cast hd
  have hrI : (R : Int) < d := by exact_mod_cast hr
  have far_lo : n < Q → (d : Int) + R ≤ |(n * d : Int) - p| := by
    intro h
    rw [key]
    have h1 : ((n : Int) - Q) ≤ -1 := by omega
    have h2 : ((n : Int) - Q) * d ≤ -1 * d := by nlinarith
    rw [abs_of_nonpos (by omega)]
    omega
  have far_hi : Q + 1 < n → 2 * (d : Int) - R ≤ |(n * d : Int) - p| := by
    intro h
    rw [key]
    have h1 : 2 ≤ ((n : Int) - Q) := by omega
    have h2 : 2 * (d : Int) ≤ ((n : Int) - Q) * d := by nlinarith
    rw [abs_of_nonneg (by omega)]
    omega
  have at_Q : |((Q : Nat) * d : Int) - p| = R := by rw [key]; simp
  have at_Q1 : |((Q + 1 : Nat) * d : Int) - p| = d - R := by
    rw [key]
    have : (((Q + 1 : Nat) : Int) - Q) * d - R = d - R := by push_cast; ring
    rw [this, abs_of_nonneg (by omega)]
  unfold nearestEven
  rw [hQ, hR]
  by_cases c : d < 2 * R ∨ 2 * R = d ∧ Q % 2 = 1
  · rw [if_pos c, at_Q1]
    rcases cases_n with h | rfl | rfl | h
    · have := far_lo h
      refine ⟨by omega, fun e => by omega⟩
    · rw [at_Q]
      refine ⟨by omega, fun e _ => by omega⟩
    · rw [at_Q1]
      exact ⟨le_refl _, fun _ h => absurd rfl h⟩
    · have := far_hi h
      refine ⟨by omega, fun e => by omega⟩
  · rw [if_neg c, at_Q]
    rcases cases_n with h | rfl | rfl | h
    · have := far_lo h
      refine ⟨by omega, fun e => by omega⟩
    · rw [at_Q]
      exact ⟨le_refl _, fun _ h => absurd rfl h⟩
    · rw [at_Q1]
      refine ⟨by omega, fun e _ => by omega⟩
    · have := far_hi h
      refine ⟨by omega, fun e => by omega⟩

theorem nearestEven_between {p d lo hi : Nat} (hd : 0 < d) (h1 : lo * d ≤ p) (h2 : p ≤ hi * d) :
    lo ≤ nearestEven p d ∧ nearestEven p d ≤ hi := by
  have a : lo ≤ p / d := (Nat.le_div_iff_mul_le hd).mpr h1
  have b : p / d ≤ hi := Nat.div_le_of_le_mul (by rw [Nat.mul_comm]; exact h2)
  unfold nearestEven
  split
  · next c =>
    refine ⟨by omega, ?_⟩
    rcases Nat.lt_or_ge (p / d) hi with h | h
    · omega
    · exfalso
      have e : p / d = hi := by omega
      have hp := Nat.div_add_mod p d
      rw [e, Nat.mul_comm] at hp
      have : p % d = 0 := by omega
      rw [this] at c
      omega
  · exact ⟨a, b⟩

/-- The bounds that `ulpShift` picks: the significand has at most 53 bits, and exactly 53 above the lowest binade. -/
theorem ulpShift_bounds {p q : Nat} (hq : 0 < q) :
    (ulpShift p q = 0 ∨ 2 ^ 52 * (q * 2 ^ ulpShift p q) ≤ p) ∧ p < 2 ^ 53 * (q * 2 ^ ulpShift p q) := by
  unfold ulpShift
  have hp : p < (p / q + 1) * q := by
    have := Nat.div_add_mod p q
    have := Nat.mod_lt p hq
    nlinarith
  have hp2 : p / q * q ≤ p := Nat.div_mul_le_self p q
  have hlog : p / q < 2 ^ (Nat.log2 (p / q) + 1) := Nat.lt_log2_self
  rcases Nat.lt_or_ge (Nat.log2 (p / q)) 53 with h | h
  · have e : Nat.log2 (p / q) - 52 = 0 := by omega
    rw [e]
    refine ⟨.inl rfl, ?_⟩
    have : (2 : Nat) ^ (Nat.log2 (p / q) + 1) ≤ 2 ^ 53 := Nat.pow_le_pow_right (by norm_num) (by omega)
    have : p / q + 1 ≤ 2 ^ 53 := by omega
    calc p < (p / q + 1) * q := hp
      _ ≤ 2 ^ 53 * q := Nat.mul_le_mul_right _ this
      _ = 2 ^ 53 * (q * 2 ^ 0) := by ring
  · have hne : p / q ≠ 0 := by
      intro h0; rw [h0] at h; simp at h
    have hlog2 : 2 ^ Nat.log2 (p / q) ≤ p / q := Nat.log2_self_le hne
    obtain ⟨k, hk⟩ : ∃ k, Nat.log2 (p / q) = 52 + k := ⟨Nat.log2 (p / q) - 52, by omega⟩
    rw [hk] at hlog hlog2 ⊢
    have e : 52 + k - 52 = k := by omega
    rw [e]
    refine ⟨.inr ?_, ?_⟩
    · calc 2 ^ 52 * (q * 2 ^ k) = 2 ^ (52 + k) * q := by rw [pow_add]; ring
        _ ≤ p / q * q := Nat.mul_le_mul_right _ hlog2
        _ ≤ p := hp2
    · calc p < (p / q + 1) * q := hp
        _ ≤ 2 ^ (52 + k + 1) * q := Nat.mul_le_mul_right _ hlog
        _ = 2 ^ 53 * (q * 2 ^ k) := by rw [show 52 + k + 1 = 53 + k by omega, pow_add]; ring

/-- The significand of a rounding. -/
theorem roundSignificand_bounds {p q : Nat} (hq : 0 < q) :
    (ulpShift p q = 0 ∨ 2 ^ 52 ≤ nearestEven p (q * 2 ^ ulpShift p q)) ∧
      nearestEven p (q * 2 ^ ulpShift p q) ≤ 2 ^ 53 := by
  obtain ⟨h1, h2⟩ := ulpShift_bounds (p := p) hq
  have hd : 0 < q * 2 ^ ulpShift p q := by positivity
  refine ⟨?_, (nearestEven_between (lo := 0) hd (by omega) h2.le).2⟩
  rcases h1 with h | h
  · exact .inl h
  · exact .inr (nearestEven_between hd h h2.le).1

theorem roundMag_le (p q : Nat) : roundMag p q ≤ infBits := Nat.min_le_left _ _

theorem roundMag_lt (p q : Nat) : roundMag p q < 2 ^ 63 := lt_of_le_of_lt (roundMag_le p q) infBits_lt

theorem unitsOfMag_infBits : unitsOfMag infBits = 2 ^ 52 * 2 ^ 2046 := by
  have := unitsOfMag_step (k := 2046) (m := 2 ^ 52) (.inr (le_refl _)) (Nat.pow_le_pow_right (by norm_num) (by norm_num))
  rwa [show 2046 * 2 ^ 52 + 2 ^ 52 = infBits by norm_num [infBits]] at this

/-- A magnitude at or above the binade of step `k` is a multiple of `2^k`. -/
theorem unitsOfMag_multiple {k m : Nat} (h : 2 ^ 52 * 2 ^ k ≤ unitsOfMag m) : ∃ n, unitsOfMag m = n * 2 ^ k := by
  have e := unitsOfMag_step (k := k) (m := 2 ^ 52) (.inr (le_refl _)) (by norm_num)
  rw [← e, unitsOfMag_le_iff] at h
  refine ⟨(2 ^ 52 + m % 2 ^ 52) * 2 ^ (m / 2 ^ 52 - 1 - k), ?_⟩
  unfold unitsOfMag
  rw [if_neg (by omega), Nat.mul_assoc, ← pow_add]
  congr 2
  omega

/-- THE ROUNDING IS TO NEAREST, TIES TO EVEN (00_scope.md R10): no magnitude up to infinity (counted as 2^1024) is closer
to `p / q` units than `roundMag p q`, and one that is as close leaves it even. -/
theorem roundMag_nearest {p q : Nat} (hq : 0 < q) {m : Nat} (hm : m ≤ infBits) :
    |(unitsOfMag (roundMag p q) * q : Int) - p| ≤ |(unitsOfMag m * q : Int) - p| ∧
      (|(unitsOfMag (roundMag p q) * q : Int) - p| = |(unitsOfMag m * q : Int) - p| → m ≠ roundMag p q →
        roundMag p q % 2 = 0) := by
  obtain ⟨hb1, hb2⟩ := ulpShift_bounds (p := p) hq
  obtain ⟨hs1, hs2⟩ := roundSignificand_bounds (p := p) hq
  have hd : 0 < q * 2 ^ ulpShift p q := by positivity
  have hspec := fun n => nearestEven_spec p hd n
  have hround : roundMag p q = min infBits (ulpShift p q * 2 ^ 52 + nearestEven p (q * 2 ^ ulpShift p q)) := rfl
  generalize ulpShift p q = k at *
  generalize nearestEven p (q * 2 ^ k) = M at *
  have hqI : (0 : Int) < q := by exact_mod_cast hq
  by_cases hover : infBits < k * 2 ^ 52 + M
  · -- past infinity: every magnitude lies below the quotient
    rw [hround, min_eq_left hover.le]
    have hk : 2046 ≤ k := by
      by_contra hlt
      have : k * 2 ^ 52 + M ≤ 2045 * 2 ^ 52 + 2 ^ 53 := by omega
      norm_num [infBits] at hover this
      omega
    have hpinf : unitsOfMag infBits * q ≤ p := by
      rcases hb1 with h | h
      · omega
      · rw [unitsOfMag_infBits]
        calc 2 ^ 52 * 2 ^ 2046 * q = 2 ^ 52 * (q * 2 ^ 2046) := by rw [Nat.mul_assoc, Nat.mul_comm (2 ^ 2046) q]
          _ ≤ 2 ^ 52 * (q * 2 ^ k) :=
            Nat.mul_le_mul_left _ (Nat.mul_le_mul_left _ (Nat.pow_le_pow_right (by norm_num) hk))
          _ ≤ p := h
    have hmu : unitsOfMag m * q ≤ unitsOfMag infBits * q := Nat.mul_le_mul_right _ (unitsOfMag_le_iff.mpr hm)
    have a1 : (unitsOfMag infBits * q : Int) ≤ p := by exact_mod_cast hpinf
    have a2 : (unitsOfMag m * q : Int) ≤ unitsOfMag infBits * q := by exact_mod_cast hmu
    rw [abs_of_nonpos (by linarith), abs_of_nonpos (by linarith)]
    refine ⟨by linarith, fun _ _ => by norm_num [infBits]⟩
  · have hle : k * 2 ^ 52 + M ≤ infBits := by omega
    rw [hround, min_eq_right hle, unitsOfMag_step hs1 hs2]
    have toSpec : ∀ n : Nat, ((n * 2 ^ k : Nat) * q : Int) - p = (n * (q * 2 ^ k : Nat) : Int) - p := by
      intro n; push_cast; ring
    rcases hb1 with rfl | hpk
    · -- the lowest binade: every magnitude is an integer there
      have := hspec (unitsOfMag m)
      simp only [pow_zero, Nat.mul_one] at this ⊢
      refine ⟨this.1, fun e hne => ?_⟩
      have hne' : unitsOfMag m ≠ M := by
        intro hc
        apply hne
        apply unitsOfMag_strictMono.injective
        rw [hc, unitsOfMag_step (.inl rfl) hs2, pow_zero, Nat.mul_one]
      have := this.2 e hne'
      omega
    · rcases Nat.lt_or_ge (unitsOfMag m) (2 ^ 52 * 2 ^ k) with hlow | hhigh
      · -- below the binade of the quotient, whose lower end is itself a candidate
        have hlo := (hspec (2 ^ 52)).1
        rw [← toSpec, ← toSpec] at hlo
        have hpk' : 2 ^ 52 * 2 ^ k * q ≤ p := by
          calc 2 ^ 52 * 2 ^ k * q = 2 ^ 52 * (q * 2 ^ k) := by ring
            _ ≤ p := hpk
        have b1 : ((2 ^ 52 * 2 ^ k : Nat) * q : Int) ≤ p := by exact_mod_cast hpk'
        have b2 : (unitsOfMag m * q : Int) < ((2 ^ 52 * 2 ^ k : Nat) : Int) * q := by
          have : (unitsOfMag m : Int) < ((2 ^ 52 * 2 ^ k : Nat) : Int) := by exact_mod_cast hlow
          nlinarith
        rw [abs_of_nonpos (a := ((2 ^ 52 * 2 ^ k : Nat) * q : Int) - p) (by linarith)] at hlo
        rw [abs_of_nonpos (a := (unitsOfMag m * q : Int) - p) (by linarith)]
        refine ⟨by linarith, fun e _ => ?_⟩
        linarith
      · obtain ⟨n, hn⟩ := unitsOfMag_multiple hhigh
        rw [hn]
        have := hspec n
        rw [← toSpec, ← toSpec] at this
        refine ⟨this.1, fun e hne => ?_⟩
        have hne' : n ≠ M := by
          rintro rfl
          apply hne
          apply unitsOfMag_strictMono.injective
          rw [hn, unitsOfMag_step hs1 hs2]
        have := this.2 e hne'
        omega

end Sys2Proof.Machine
end

