-- ==== Sys2Proof/Laws/Units.lean ====
section
/-! SUPPORT. What a unit can do in a sample step: it moves its own cursor or recursion memory and writes words of its own
region, and nothing else; and with its record as the commands leave it, it always completes. -/

namespace Sys2Proof.Machine

/-! ### Cursors (20_memory.md R73) -/

/-- The cursor stays inside the buffer. -/
theorem nextCursor_lt {w n : BitVec 32} (h : w.toNat < n.toNat) : (nextCursor w n).toNat < n.toNat := by
  unfold nextCursor
  split
  · exact Nat.lt_of_le_of_lt (Nat.zero_le _) h
  · rename_i hn
    have h2 : (w + 1).toNat = w.toNat + 1 := by
      have := n.isLt
      rw [BitVec.toNat_add]
      exact Nat.mod_eq_of_lt (by show w.toNat + 1 < 2 ^ 32; omega)
    have h3 : (w + 1).toNat ≠ n.toNat := fun e => hn (BitVec.eq_of_toNat_eq e)
    omega

/-- A buffer inside the RAM: its word addresses do not wrap. -/
theorem address_eq {base w n : BitVec 32} (h1 : base.toNat + n.toNat ≤ Config.RAM_WORDS) (h2 : w.toNat < n.toNat) :
    (base + w).toNat = base.toNat + w.toNat := by
  rw [BitVec.toNat_add]
  exact Nat.mod_eq_of_lt (by unfold Config.RAM_WORDS at h1; omega)

/-! ### What units may change -/

/-- `t` is `s` after some units have run: the render registers and everything the host sees stay; in the voice records only
the string cursors move, in the stage records only the recursion memory; words no unit owns stay. -/
structure UnitsMoved (s t : State) : Prop where
  frame : t = { s with voices := t.voices, stages := t.stages, ram := t.ram }
  voices : ∀ v, t.voice v = { s.voice v with ptr := (t.voice v).ptr }
  stages : ∀ v st, t.stage v st =
    { s.stage v st with x1 := (t.stage v st).x1, x2 := (t.stage v st).x2, y1 := (t.stage v st).y1,
                        y2 := (t.stage v st).y2, w := (t.stage v st).w }
  outside : ∀ a, unowned s a → ramWord t a = ramWord s a

/-- The part of the invariant that the units keep. -/
structure UnitInv (s : State) : Prop where
  memory : s.ram.wf = true
  voices : ∀ v, voiceOk (s.voice v)
  stages : ∀ v st, stageOk (s.stage v st)
  regions : regionsDisjoint s

theorem Inv.units {s : State} (h : Inv s) : UnitInv s := ⟨h.memory, h.voices, h.stages, h.regions⟩

theorem UnitsMoved.refl (s : State) : UnitsMoved s s := ⟨rfl, fun _ => rfl, fun _ _ => rfl, fun _ _ => rfl⟩

/-- Moving on does not change who owns what. -/
theorem UnitsMoved.ownedRegion_eq {s t : State} (h : UnitsMoved s t) : ownedRegion t = ownedRegion s := by
  funext u
  cases u with
  | voice v =>
    have e := h.voices v
    have k : (t.voice v).kind = (s.voice v).kind := by rw [e]
    have b : (t.voice v).base = (s.voice v).base := by rw [e]
    have l : (t.voice v).len = (s.voice v).len := by rw [e]
    simp only [ownedRegion, k, b, l]
  | stage v st =>
    have e := h.stages v st
    have k : (t.stage v st).kind = (s.stage v st).kind := by rw [e]
    have b : (t.stage v st).base = (s.stage v st).base := by rw [e]
    have l : (t.stage v st).n = (s.stage v st).n := by rw [e]
    simp only [ownedRegion, k, b, l]

theorem UnitsMoved.unowned_iff {s t : State} (h : UnitsMoved s t) (a : Nat) : unowned t a ↔ unowned s a := by
  unfold unowned; rw [h.ownedRegion_eq]

theorem UnitsMoved.regions {s t : State} (h : UnitsMoved s t) (hr : regionsDisjoint s) : regionsDisjoint t := by
  unfold regionsDisjoint; rw [h.ownedRegion_eq]; exact hr

theorem UnitsMoved.trans {s t u : State} (h : UnitsMoved s t) (k : UnitsMoved t u) : UnitsMoved s u where
  frame := by rw [k.frame, h.frame]
  voices v := by rw [k.voices v, h.voices v]
  stages v st := by rw [k.stages v st, h.stages v st]
  outside a ha := (k.outside a ((h.unowned_iff a).mpr ha)).trans (h.outside a ha)

/-! ### The string (44_karplus_strong.md R216) -/

/-- Everything a string step does where its two words exist. -/
theorem ksStep_eq {tick : Nat} {v : Fin Config.NV} {s : State} (h1 : ksOldest (s.voice v) < Config.RAM_WORDS)
    (h2 : ksNext (s.voice v) < Config.RAM_WORDS) :
    ksStep tick v s = .ok (clamp1 (ramWord s (ksOldest (s.voice v))),
      { s with
        ram := s.ram.insert (ksOldest (s.voice v)) (ksDamp ⟨tick, .generator v⟩ (s.voice v).decay
          (ramWord s (ksOldest (s.voice v))) (ramWord s (ksNext (s.voice v)))) }.setVoice v
        { s.voice v with ptr := nextCursor (s.voice v).ptr (s.voice v).len }) := by
  unfold ksStep
  simp only [memRead_of_lt h1, memRead_of_lt h2, memWrite_of_lt _ h1, Except.bind, Except.map]

/-- A string as OSC_KS leaves it. -/
theorem voiceOk_ks {vo : Voice} (h : voiceOk vo) (hk : vo.kind = .ks) :
    2 ≤ vo.len.toNat ∧ vo.ptr.toNat < vo.len.toNat ∧ vo.base.toNat + vo.len.toNat ≤ Config.RAM_WORDS ∧
      ksOldest vo = vo.base.toNat + vo.ptr.toNat ∧ ksNext vo = vo.base.toNat + (nextCursor vo.ptr vo.len).toNat := by
  obtain ⟨_, _, h⟩ := h
  rw [if_pos hk] at h
  obtain ⟨_, _, _, _, h5, h6, h7, _⟩ := h
  exact ⟨h5, h6, h7, address_eq h7 h6, address_eq h7 (nextCursor_lt h6)⟩

/-- Writing one owned word and moving the unit's own cursor. -/
theorem unitsMoved_of_write {s : State} {a : Nat} {x : Word} {u : UnitId} {b n : Nat}
    (ho : ownedRegion s u = some (b, n)) (ha : b ≤ a ∧ a < b + n) {t : State}
    (ht : t = { s with voices := t.voices, stages := t.stages, ram := s.ram.insert a x })
    (hv : ∀ v, t.voice v = { s.voice v with ptr := (t.voice v).ptr })
    (hs : ∀ v st, t.stage v st =
      { s.stage v st with x1 := (t.stage v st).x1, x2 := (t.stage v st).x2, y1 := (t.stage v st).y1,
                          y2 := (t.stage v st).y2, w := (t.stage v st).w }) : UnitsMoved s t where
  frame := by
    have : t.ram = s.ram.insert a x := by rw [ht]
    rw [this]; exact ht
  voices := hv
  stages := hs
  outside c hc := by
    have hne : c ≠ a := fun e => hc u b n ho (e ▸ ha)
    have e1 : t.ram = ({ s with ram := s.ram.insert a x } : State).ram := by rw [ht]
    have e2 : t.powerOns = ({ s with ram := s.ram.insert a x } : State).powerOns := by rw [ht]
    rw [ramWord_congr e1 e2, ramWord_insert_ne s x hne]

/-- A string step completes and moves its own unit alone. -/
theorem ksStep_moves {tick : Nat} {v : Fin Config.NV} {s : State} (hi : UnitInv s) (hk : (s.voice v).kind = .ks) :
    ∃ y t, ksStep tick v s = .ok (y, t) ∧ UnitsMoved s t ∧ UnitInv t := by
  obtain ⟨h5, h6, h7, e1, e2⟩ := voiceOk_ks (hi.voices v) hk
  have hc := nextCursor_lt h6
  have l1 : ksOldest (s.voice v) < Config.RAM_WORDS := by omega
  have l2 : ksNext (s.voice v) < Config.RAM_WORDS := by omega
  refine ⟨_, _, ksStep_eq l1 l2, ?_⟩
  set x := ksDamp ⟨tick, .generator v⟩ (s.voice v).decay (ramWord s (ksOldest (s.voice v)))
    (ramWord s (ksNext (s.voice v)))
  have hm : UnitsMoved s ({ s with ram := s.ram.insert (ksOldest (s.voice v)) x }.setVoice v
        { s.voice v with ptr := nextCursor (s.voice v).ptr (s.voice v).len }) := by
    refine unitsMoved_of_write (u := .voice v) (ownedRegion_voice_some.mpr ⟨hk, rfl, rfl⟩) (by omega) rfl ?_ ?_
    · intro u
      by_cases e : u = v
      · subst e; rw [voice_setVoice_same]
      · rw [voice_setVoice_ne _ _ e]; rfl
    · intro u su; rfl
  refine ⟨hm, ⟨wf_insert _ l1 hi.memory, ?_, hi.stages, hm.regions hi.regions⟩⟩
  intro u
  by_cases e : u = v
  · subst e
    rw [voice_setVoice_same]
    obtain ⟨g1, g2, g3⟩ := hi.voices u
    refine ⟨g1, g2, ?_⟩
    rw [if_pos hk] at g3
    show if (s.voice u).kind = .ks then _ else _
    rw [if_pos hk]
    exact ⟨g3.1, g3.2.1, g3.2.2.1, g3.2.2.2.1, h5, hc, h7, g3.2.2.2.2.2.2.2⟩
  · rw [voice_setVoice_ne _ _ e]; exact hi.voices u

/-! ### The stages (43_stage_control.md R194) -/

/-- Everything a comb step does where its word exists (42_comb_delay.md R173). -/
theorem combStep_eq {c : Config.At} {v : Fin Config.NV} {st : Fin Config.NS} {x : F64} {s : State}
    (h : cursorAddress (s.stage v st) < Config.RAM_WORDS) :
    combStep c v st x s =
      .ok (combOutput c (s.stage v st).g x (ramWord s (cursorAddress (s.stage v st))),
        { s with
          ram := s.ram.insert (cursorAddress (s.stage v st))
            (combOutput c (s.stage v st).g x (ramWord s (cursorAddress (s.stage v st)))) }.setStage v st
          { s.stage v st with w := nextCursor (s.stage v st).w (s.stage v st).n }) := by
  unfold combStep
  simp only [memRead_of_lt h, memWrite_of_lt _ h, Except.bind, Except.map]

/-- Everything a delay step does where its word exists (42_comb_delay.md R174). -/
theorem delayStep_eq {c : Config.At} {v : Fin Config.NV} {st : Fin Config.NS} {x : F64} {s : State}
    (h : cursorAddress (s.stage v st) < Config.RAM_WORDS) :
    delayStep c v st x s =
      .ok (combOutput c (s.stage v st).g x (ramWord s (cursorAddress (s.stage v st))),
        { s with ram := s.ram.insert (cursorAddress (s.stage v st)) x }.setStage v st
          { s.stage v st with w := nextCursor (s.stage v st).w (s.stage v st).n }) := by
  unfold delayStep
  simp only [memRead_of_lt h, memWrite_of_lt _ h, Except.bind, Except.map]

/-- A buffer stage as COMB and DELAY leave it. -/
theorem stageOk_buffer {r : Stage} (h : stageOk r) (hk : r.kind = .comb ∨ r.kind = .delay) :
    r.w.toNat < r.n.toNat ∧ r.base.toNat + r.n.toNat ≤ Config.RAM_WORDS ∧
      cursorAddress r = r.base.toNat + r.w.toNat := by
  unfold stageOk at h
  rcases hk with hk | hk <;> rw [hk] at h <;> obtain ⟨_, _, _, _, _, h6, h7, _⟩ := h <;>
    exact ⟨h6, h7, address_eq h7 h6⟩

/-- Moving the cursor of a buffer stage keeps its record legal. -/
theorem stageOk_cursor {r : Stage} (h : stageOk r) (hk : r.kind = .comb ∨ r.kind = .delay) {w : BitVec 32}
    (hw : w.toNat < r.n.toNat) : stageOk { r with w := w } := by
  unfold stageOk at h ⊢
  rcases hk with hk | hk <;> simp only [hk] at h ⊢ <;>
    exact ⟨h.1, h.2.1, h.2.2.1, h.2.2.2.1, h.2.2.2.2.1, hw, h.2.2.2.2.2.2⟩

/-- One word of a buffer stage written and its cursor moved. -/
theorem buffer_moves {v : Fin Config.NV} {st : Fin Config.NS} {s : State} (hi : UnitInv s)
    (hk : (s.stage v st).kind = .comb ∨ (s.stage v st).kind = .delay) (x : Word) :
    let t := { s with ram := s.ram.insert (cursorAddress (s.stage v st)) x }.setStage v st
      { s.stage v st with w := nextCursor (s.stage v st).w (s.stage v st).n }
    UnitsMoved s t ∧ UnitInv t := by
  obtain ⟨h6, h7, e⟩ := stageOk_buffer (hi.stages v st) hk
  have hc := nextCursor_lt h6
  have l1 : cursorAddress (s.stage v st) < Config.RAM_WORDS := by omega
  have hm : UnitsMoved s ({ s with ram := s.ram.insert (cursorAddress (s.stage v st)) x }.setStage v st
        { s.stage v st with w := nextCursor (s.stage v st).w (s.stage v st).n }) := by
    refine unitsMoved_of_write (u := .stage v st) (ownedRegion_stage_some.mpr ⟨hk, rfl, rfl⟩) (by omega) rfl ?_ ?_
    · intro u; rfl
    · intro u su
      by_cases e : (u, su) = (v, st)
      · cases e; rw [stage_setStage_same]
      · rw [stage_setStage_ne _ _ e]; rfl
  refine ⟨hm, ⟨wf_insert _ l1 hi.memory, hi.voices, ?_, hm.regions hi.regions⟩⟩
  intro u su
  by_cases e : (u, su) = (v, st)
  · cases e; rw [stage_setStage_same]; exact stageOk_cursor (hi.stages _ _) hk hc
  · rw [stage_setStage_ne _ _ e]; exact hi.stages u su

/-- A biquad's recursion memory may hold anything. -/
theorem stageOk_biquad {r : Stage} (h : stageOk r) (hk : r.kind ∈ [StageKind.lpf, .hpf, .bpf, .brf, .apf])
    (x1 x2 y1 y2 : F64) : stageOk { r with x1 := x1, x2 := x2, y1 := y1, y2 := y2 } := by
  simp only [List.mem_cons, List.not_mem_nil, or_false] at hk
  unfold stageOk at h ⊢
  rcases hk with hk | hk | hk | hk | hk <;> simp only [hk] at h ⊢ <;> exact h

/-- The recursion memory of a stage replaced. -/
theorem memory_moves {v : Fin Config.NV} {st : Fin Config.NS} {s : State} (hi : UnitInv s) (x1 x2 y1 y2 : F64)
    (hk : (s.stage v st).kind ∈ [StageKind.lpf, .hpf, .bpf, .brf, .apf]) :
    let t := s.setStage v st { s.stage v st with x1 := x1, x2 := x2, y1 := y1, y2 := y2 }
    UnitsMoved s t ∧ UnitInv t := by
  have hm : UnitsMoved s (s.setStage v st { s.stage v st with x1 := x1, x2 := x2, y1 := y1, y2 := y2 }) := by
    refine ⟨rfl, fun _ => rfl, ?_, fun _ _ => rfl⟩
    intro u su
    by_cases e : (u, su) = (v, st)
    · cases e; rw [stage_setStage_same]
    · rw [stage_setStage_ne _ _ e]
  refine ⟨hm, hi.memory, hi.voices, ?_, hm.regions hi.regions⟩
  intro u su
  by_cases e : (u, su) = (v, st)
  · cases e; rw [stage_setStage_same]; exact stageOk_biquad (hi.stages _ _) hk _ _ _ _
  · rw [stage_setStage_ne _ _ e]; exact hi.stages u su

/-- Everything a biquad step does (41_biquad.md R155). -/
theorem stageStep_biquad {tick : Nat} {v : Fin Config.NV} {st : Fin Config.NS} {x : F64} {s : State}
    (h : (s.stage v st).kind ∈ [StageKind.lpf, .hpf, .bpf, .brf, .apf]) :
    stageStep tick v st x s = .ok ((biquadStep ⟨tick, .stage v st⟩ (s.stage v st) x).1,
      s.setStage v st (biquadStep ⟨tick, .stage v st⟩ (s.stage v st) x).2) := by
  simp only [List.mem_cons, List.not_mem_nil, or_false] at h
  unfold stageStep
  rcases h with h | h | h | h | h <;> rw [h]

theorem stageStep_comb {tick : Nat} {v : Fin Config.NV} {st : Fin Config.NS} {x : F64} {s : State}
    (h : (s.stage v st).kind = .comb) : stageStep tick v st x s = combStep ⟨tick, .stage v st⟩ v st x s := by
  unfold stageStep; rw [h]

theorem stageStep_delay {tick : Nat} {v : Fin Config.NV} {st : Fin Config.NS} {x : F64} {s : State}
    (h : (s.stage v st).kind = .delay) : stageStep tick v st x s = delayStep ⟨tick, .stage v st⟩ v st x s := by
  unfold stageStep; rw [h]

/-- A stage step completes and moves its own unit alone. -/
theorem stageStep_moves {tick : Nat} {v : Fin Config.NV} {st : Fin Config.NS} {x : F64} {s : State} (hi : UnitInv s) :
    ∃ y t, stageStep tick v st x s = .ok (y, t) ∧ UnitsMoved s t ∧ UnitInv t := by
  unfold stageStep
  cases hk : (s.stage v st).kind
  case bypass => exact ⟨_, _, rfl, UnitsMoved.refl s, hi⟩
  case comb =>
    obtain ⟨h6, h7, e⟩ := stageOk_buffer (hi.stages v st) (.inl hk)
    exact ⟨_, _, combStep_eq (by omega), buffer_moves hi (.inl hk) _⟩
  case delay =>
    obtain ⟨h6, h7, e⟩ := stageOk_buffer (hi.stages v st) (.inr hk)
    exact ⟨_, _, delayStep_eq (by omega), buffer_moves hi (.inr hk) _⟩
  all_goals exact ⟨_, _, rfl, memory_moves hi _ _ _ _ (by rw [hk]; decide)⟩

theorem stageChain_moves {tick : Nat} {v : Fin Config.NV} (l : List (Fin Config.NS)) : ∀ {x : F64} {s : State},
    UnitInv s → ∃ y t, stageChain tick v l x s = .ok (y, t) ∧ UnitsMoved s t ∧ UnitInv t := by
  induction l with
  | nil => intro x s hi; exact ⟨x, s, rfl, UnitsMoved.refl s, hi⟩
  | cons st rest ih =>
    intro x s hi
    obtain ⟨y, t, h1, m1, i1⟩ := stageStep_moves (tick := tick) (v := v) (st := st) (x := x) hi
    obtain ⟨z, u, h2, m2, i2⟩ := ih (x := y) i1
    exact ⟨z, u, by simp only [stageChain, h1, Except.bind, h2], m1.trans m2, i2⟩

/-! ### The voices (45_pipeline.md R250) -/

theorem voiceTurn_moves {tick : Nat} {t : F64} {v : Fin Config.NV} {acc : F64} {s : State} (hi : UnitInv s) :
    ∃ y u, voiceTurn tick t v acc s = .ok (y, u) ∧ UnitsMoved s u ∧ UnitInv u := by
  unfold voiceTurn
  have key : ∀ (g : F64) (w : State), UnitsMoved s w → UnitInv w →
      ∃ y u, ((Except.ok (g, w) : Except Fault (F64 × State)).bind fun g =>
        (stageChain tick v (List.finRange Config.NS) g.1 g.2).map fun y =>
          (mixIn tick acc y.1 (y.2.voice v).gain, y.2)) = .ok (y, u) ∧ UnitsMoved s u ∧ UnitInv u := by
    intro g w m i
    obtain ⟨y, u, h, m2, i2⟩ := stageChain_moves (tick := tick) (v := v) (List.finRange Config.NS) (x := g) i
    refine ⟨mixIn tick acc y (u.voice v).gain, u, ?_, m.trans m2, i2⟩
    simp only [Except.bind, h, Except.map]
  unfold genValue
  cases hk : (s.voice v).kind
  case off => exact ⟨acc, s, rfl, UnitsMoved.refl s, hi⟩
  case ks =>
    obtain ⟨y, w, h, m, i⟩ := ksStep_moves (tick := tick) hi hk
    simp only [h]
    exact key y w m i
  all_goals exact key _ s (UnitsMoved.refl s) hi

theorem voiceLoop_moves {tick : Nat} {t : F64} (l : List (Fin Config.NV)) : ∀ {acc : F64} {s : State},
    UnitInv s → ∃ y u, voiceLoop tick t l acc s = .ok (y, u) ∧ UnitsMoved s u ∧ UnitInv u := by
  induction l with
  | nil => intro acc s hi; exact ⟨acc, s, rfl, UnitsMoved.refl s, hi⟩
  | cons v rest ih =>
    intro acc s hi
    obtain ⟨y, w, h1, m1, i1⟩ := voiceTurn_moves (tick := tick) (t := t) (v := v) (acc := acc) hi
    obtain ⟨z, u, h2, m2, i2⟩ := ih (acc := y) i1
    exact ⟨z, u, by simp only [voiceLoop, h1, Except.bind, h2], m1.trans m2, i2⟩

/-- The mix of a sample step always exists; the units have moved and nothing else has. -/
theorem mixSample_moves {s : State} (hi : UnitInv s) :
    ∃ m u, mixSample s = .ok (m, { u with freeTick := s.freeTick + 1 }) ∧ UnitsMoved s u ∧ UnitInv u := by
  obtain ⟨y, u, h, m, i⟩ := voiceLoop_moves (tick := s.freeTick) (t := sampleTime s) (List.finRange Config.NV)
    (acc := fZero) hi
  refine ⟨fDiv ⟨s.freeTick, .mixer⟩ y u.runHeadroom, u, ?_, m, i⟩
  unfold mixSample
  simp only [h, Except.map]

/-! ### What a completed run of units leaves alone, in any state -/

/-- Only the records and the RAM differ. -/
def UnitFrame (s t : State) : Prop := t = { s with voices := t.voices, stages := t.stages, ram := t.ram }

theorem UnitFrame.trans {s t u : State} (h : UnitFrame s t) (k : UnitFrame t u) : UnitFrame s u := by
  unfold UnitFrame at *; rw [k, h]

/-- A bind that answers went through both of its parts. -/
theorem bind_ok {α β : Type} {x : Except Fault α} {f : α → Except Fault β} {b : β} (h : x.bind f = .ok b) :
    ∃ a, x = .ok a ∧ f a = .ok b := by
  cases x with
  | error e => cases h
  | ok a => exact ⟨a, rfl, h⟩

theorem map_ok {α β : Type} {x : Except Fault α} {f : α → β} {b : β} (h : x.map f = .ok b) :
    ∃ a, x = .ok a ∧ f a = b := by
  cases x with
  | error e => cases h
  | ok a => cases h; exact ⟨a, rfl, rfl⟩

theorem bind_congr_ok {α β : Type} {x : Except Fault α} {f g : α → Except Fault β} (h : ∀ a, x = .ok a → f a = g a) :
    x.bind f = x.bind g := by
  cases x with
  | error e => rfl
  | ok a => exact h a rfl

theorem map_congr_ok {α β : Type} {x : Except Fault α} {f g : α → β} (h : ∀ a, x = .ok a → f a = g a) :
    x.map f = x.map g := by
  cases x with
  | error e => rfl
  | ok a => exact congrArg Except.ok (h a rfl)

theorem map_of_bind {α β γ : Type} (x : Except Fault α) (f : α → Except Fault β) (g : β → γ) :
    (x.bind f).map g = x.bind fun a => (f a).map g := by
  cases x <;> rfl

/-- The two stages in ascending order, the second on the first one's output (43_stage_control.md R194). -/
theorem stageChain_two (tick : Nat) (v : Fin Config.NV) (x : F64) (s : State) :
    stageChain tick v (List.finRange Config.NS) x s =
      (stageStep tick v 0 x s).bind fun a => stageStep tick v 1 a.1 a.2 := by
  rw [show List.finRange Config.NS = [0, 1] by decide, stageChain]
  refine bind_congr_ok fun a _ => ?_
  rw [stageChain]
  cases stageStep tick v 1 a.1 a.2 <;> rfl

theorem ksStep_frame {tick : Nat} {v : Fin Config.NV} {s u : State} {y : F64} (h : ksStep tick v s = .ok (y, u)) :
    UnitFrame s u := by
  unfold ksStep at h
  obtain ⟨a, _, h⟩ := bind_ok h
  obtain ⟨c, _, h⟩ := bind_ok h
  obtain ⟨t, hw, h⟩ := map_ok h
  cases h
  rw [memWrite_ok_iff] at hw
  obtain ⟨_, rfl⟩ := hw
  rfl

theorem stageStep_frame {tick : Nat} {v : Fin Config.NV} {st : Fin Config.NS} {x y : F64} {s u : State}
    (h : stageStep tick v st x s = .ok (y, u)) : UnitFrame s u := by
  have buf : ∀ {g : F64 → Except Fault State} {f : F64 → State → F64 × State} {a : Nat},
      ((memRead a s).bind fun d => (g d).map (f d)) = .ok (y, u) → ∃ d t, g d = .ok t ∧ f d t = (y, u) := by
    intro g f a h
    obtain ⟨d, _, h⟩ := bind_ok h
    obtain ⟨t, hw, h⟩ := map_ok h
    exact ⟨d, t, hw, h⟩
  unfold stageStep at h
  cases hk : (s.stage v st).kind <;> rw [hk] at h
  case bypass => cases h; rfl
  case comb =>
    obtain ⟨d, t, hw, h⟩ := buf h
    cases h
    rw [memWrite_ok_iff] at hw
    obtain ⟨_, rfl⟩ := hw
    rfl
  case delay =>
    obtain ⟨d, t, hw, h⟩ := buf h
    cases h
    rw [memWrite_ok_iff] at hw
    obtain ⟨_, rfl⟩ := hw
    rfl
  all_goals cases h; rfl

theorem stageChain_frame {tick : Nat} {v : Fin Config.NV} (l : List (Fin Config.NS)) : ∀ {x y : F64} {s u : State},
    stageChain tick v l x s = .ok (y, u) → UnitFrame s u := by
  induction l with
  | nil => intro x y s u h; cases h; rfl
  | cons st rest ih =>
    intro x y s u h
    obtain ⟨⟨z, t⟩, h1, h2⟩ := bind_ok h
    exact (stageStep_frame h1).trans (ih h2)

theorem voiceTurn_frame {tick : Nat} {t acc y : F64} {v : Fin Config.NV} {s u : State}
    (h : voiceTurn tick t v acc s = .ok (y, u)) : UnitFrame s u := by
  have gen : ∀ {r : Except Fault (F64 × State)}, genValue tick v t s = some r → ∀ {z w}, r = .ok (z, w) →
      UnitFrame s w := by
    intro r hr z w hz
    subst hz
    unfold genValue at hr
    dsimp only at hr
    split at hr <;> first | cases hr; rfl | (exact ksStep_frame (Option.some.inj hr)) | cases hr
  unfold voiceTurn at h
  split at h
  · cases h; rfl
  · rename_i r hr
    obtain ⟨⟨z, w⟩, h1, h2⟩ := bind_ok h
    obtain ⟨⟨z2, w2⟩, h3, h4⟩ := map_ok h2
    cases h4
    exact (gen hr h1).trans (stageChain_frame _ h3)

theorem voiceLoop_frame {tick : Nat} {t : F64} (l : List (Fin Config.NV)) : ∀ {acc y : F64} {s u : State},
    voiceLoop tick t l acc s = .ok (y, u) → UnitFrame s u := by
  induction l with
  | nil => intro acc y s u h; cases h; rfl
  | cons v rest ih =>
    intro acc y s u h
    obtain ⟨⟨z, w⟩, h1, h2⟩ := bind_ok h
    exact (voiceTurn_frame h1).trans (ih h2)

/-- A mix that exists leaves everything but the records, the RAM and the counter of free values alone. -/
theorem mixSample_frame {s u : State} {m : F64} (h : mixSample s = .ok (m, u)) :
    u = { s with voices := u.voices, stages := u.stages, ram := u.ram, freeTick := s.freeTick + 1 } := by
  obtain ⟨⟨z, w⟩, h1, h2⟩ := map_ok h
  cases h2
  have := voiceLoop_frame _ h1
  unfold UnitFrame at this
  dsimp only
  rw [this]

end Sys2Proof.Machine
end

