-- ==== Sys2Proof/Laws/Invariant.lean ====
section
/-! SUPPORT. How the shared operations keep the invariant: the error record, the acknowledgement, the RAM, one record
replaced, the fields no clause reads, and the end of a sample step. -/

namespace Sys2Proof.Machine

/-- The fields no clause of the invariant reads may hold anything. -/
theorem Inv.env {s : State} (h : Inv s) (p : Vector Word 8) (en : BitVec 3) (fs : BitVec 32) (bits : BitVec 8)
    (hr : F64) (len : BitVec 64) (noise : BitVec 32) (stream acc : List (BitVec 32)) (q : List HostTxn)
    (rep : List Word) (sc : List Bool) (rest : Bool) (pin : List Bool) (tick po : Nat) :
    Inv { s with p := p, irqEn := en, fs := fs, bits := bits, headroom := hr, length := len, noise := noise,
                 stream := stream, accepted := acc, hostQueue := q, replies := rep, sinkScript := sc,
                 sinkRest := rest, resetPin := pin, freeTick := tick, powerOns := po } :=
  ⟨h.memory, h.voices, h.stages, h.regions, h.errorRecord, h.renderParams, h.sampleIndex, h.pcmLast⟩

/-- A RAM in canonical form. -/
theorem Inv.ram {s : State} (h : Inv s) {m : Memory} (hm : m.wf = true) : Inv { s with ram := m } :=
  ⟨hm, h.voices, h.stages, h.regions, h.errorRecord, h.renderParams, h.sampleIndex, h.pcmLast⟩

/-- Any error but the reserved one may be recorded. -/
theorem Inv.recorded {s : State} (h : Inv s) {code : ErrorCode} (hc : code ≠ .malformedEventStream) (w : CmdWord) :
    Inv (recorded code w s) := by
  refine ⟨h.memory, h.voices, h.stages, h.regions, ?_, h.renderParams, h.sampleIndex, h.pcmLast⟩
  obtain ⟨h1, h2, h3⟩ := h.errorRecord
  unfold errorRecordOk Machine.recorded
  dsimp only
  cases he : s.err with
  | none => simp [hc]
  | some e => rw [he] at h2; simp; simpa using h2

/-- The host's acknowledgement clears the record and its pending bit together. -/
theorem Inv.acknowledge {s : State} (h : Inv s) (w : Word) : Inv (acknowledge w s) := by
  obtain ⟨h1, h2, h3⟩ := h.errorRecord
  unfold Machine.acknowledge
  dsimp only
  cases hw : w.getLsbD 0 with
  | true =>
    rw [if_pos rfl]
    refine ⟨h.memory, h.voices, h.stages, h.regions, ?_, h.renderParams, h.sampleIndex, h.pcmLast⟩
    unfold errorRecordOk
    simp at hw
    simp [hw]
  | false =>
    rw [if_neg (by decide)]
    refine ⟨h.memory, h.voices, h.stages, h.regions, ⟨h1, h2, ?_⟩, h.renderParams, h.sampleIndex, h.pcmLast⟩
    rw [← h3]
    simp at hw
    simp [hw]

/-- Regions stay disjoint when one unit's region is replaced by one that keeps clear of every other. -/
theorem regionsDisjoint_replace {s t : State} (h : regionsDisjoint s) (u : UnitId)
    (hother : ∀ u2, u2 ≠ u → ownedRegion t u2 = ownedRegion s u2)
    (hu : ∀ b n, ownedRegion t u = some (b, n) → ∀ u2 b2 n2, u2 ≠ u → ownedRegion s u2 = some (b2, n2) →
      b + n ≤ b2 ∨ b2 + n2 ≤ b) : regionsDisjoint t := by
  intro u1 u2 hne b1 n1 b2 n2 h1 h2
  by_cases e1 : u1 = u
  · subst e1
    exact hu b1 n1 h1 u2 b2 n2 (Ne.symm hne) (by rwa [hother u2 (Ne.symm hne)] at h2)
  · rw [hother u1 e1] at h1
    by_cases e2 : u2 = u
    · subst e2
      exact (hu b2 n2 h2 u1 b1 n1 hne h1).symm
    · rw [hother u2 e2] at h2
      exact h u1 u2 hne b1 n1 b2 n2 h1 h2

theorem ownedRegion_setVoice_ne {s : State} {v : Fin Config.NV} {x : Voice} {u : UnitId} (h : u ≠ .voice v) :
    ownedRegion (s.setVoice v x) u = ownedRegion s u := by
  cases u with
  | voice w =>
    have e : (s.setVoice v x).voice w = s.voice w := voice_setVoice_ne s x (fun e => h (by rw [e]))
    simp only [ownedRegion, e]
  | stage w st => rfl

theorem ownedRegion_setStage_ne {s : State} {v : Fin Config.NV} {st : Fin Config.NS} {x : Stage} {u : UnitId}
    (h : u ≠ .stage v st) : ownedRegion (s.setStage v st x) u = ownedRegion s u := by
  cases u with
  | voice w => rfl
  | stage w su =>
    have e : (s.setStage v st x).stage w su = s.stage w su :=
      stage_setStage_ne s x (fun e => h (by cases e; rfl))
    simp only [ownedRegion, e]

/-- A voice record replaced by a legal one whose region, if it has one, keeps clear of every other. -/
theorem Inv.setVoice {s : State} (h : Inv s) {v : Fin Config.NV} {x : Voice} (hx : voiceOk x)
    (hr : x.kind = .ks → ∀ u2 b2 n2, u2 ≠ .voice v → ownedRegion s u2 = some (b2, n2) →
      x.base.toNat + x.len.toNat ≤ b2 ∨ b2 + n2 ≤ x.base.toNat) : Inv (s.setVoice v x) := by
  refine ⟨h.memory, ?_, h.stages, ?_, h.errorRecord, h.renderParams, h.sampleIndex, h.pcmLast⟩
  · intro u
    by_cases e : u = v
    · subst e; rw [voice_setVoice_same]; exact hx
    · rw [voice_setVoice_ne _ _ e]; exact h.voices u
  · refine regionsDisjoint_replace h.regions (.voice v) (fun u2 hne => ownedRegion_setVoice_ne hne) ?_
    intro b n ho
    rw [ownedRegion_voice_some, voice_setVoice_same] at ho
    obtain ⟨hk, rfl, rfl⟩ := ho
    exact hr hk

/-- A stage record replaced by a legal one whose region, if it has one, keeps clear of every other. -/
theorem Inv.setStage {s : State} (h : Inv s) {v : Fin Config.NV} {st : Fin Config.NS} {x : Stage} (hx : stageOk x)
    (hr : x.kind = .comb ∨ x.kind = .delay → ∀ u2 b2 n2, u2 ≠ .stage v st → ownedRegion s u2 = some (b2, n2) →
      x.base.toNat + x.n.toNat ≤ b2 ∨ b2 + n2 ≤ x.base.toNat) : Inv (s.setStage v st x) := by
  refine ⟨h.memory, h.voices, ?_, ?_, h.errorRecord, h.renderParams, h.sampleIndex, h.pcmLast⟩
  · intro u su
    by_cases e : (u, su) = (v, st)
    · cases e; rw [stage_setStage_same]; exact hx
    · rw [stage_setStage_ne _ _ e]; exact h.stages u su
  · refine regionsDisjoint_replace h.regions (.stage v st) (fun u2 hne => ownedRegion_setStage_ne hne) ?_
    intro b n ho
    rw [ownedRegion_stage_some, stage_setStage_same] at ho
    obtain ⟨hk, rfl, rfl⟩ := ho
    exact hr hk

/-- The units of a state moved on, with the rest of the state as it was. -/
theorem Inv.moved {s u : State} (h : Inv s) (hm : UnitsMoved s u) (hu : UnitInv u) : Inv u := by
  refine ⟨hu.memory, hu.voices, hu.stages, hu.regions, ?_, ?_, ?_, ?_⟩ <;> rw [hm.frame]
  exacts [h.errorRecord, h.renderParams, h.sampleIndex, h.pcmLast]

/-! ### The end of a sample step -/

/-- The quantizer's clip (45_pipeline.md R260). -/
theorem quantize_range (c : Config.At) (m : F64) (b : Nat) :
    -(fullScale b : Int) ≤ quantize c m b ∧ quantize c m b < (fullScale b : Int) := by
  have : 0 < fullScale b := Nat.pow_pos (by norm_num)
  unfold quantize
  dsimp only
  omega

theorem fullScale_le {b : Nat} (h : b ≤ 32) : fullScale b ≤ 2 ^ 31 :=
  Nat.pow_le_pow_right (by norm_num) (by omega)

theorem toInt_ofInt_pcm {q : Int} {b : Nat} (hb : b ≤ 32) (h1 : -(fullScale b : Int) ≤ q) (h2 : q < fullScale b) :
    (BitVec.ofInt 64 q).toInt = q := by
  have := fullScale_le hb
  rw [BitVec.toInt_ofInt, Int.bmod_eq_of_le] <;> omega

/-- A PCM word is the low 32 bits of PCM_LAST, sign extended (45_pipeline.md R262). -/
theorem signExtend_ofInt {q : Int} {b : Nat} (hb : b ≤ 32) (h1 : -(fullScale b : Int) ≤ q) (h2 : q < fullScale b) :
    (BitVec.ofInt 32 q).signExtend 64 = BitVec.ofInt 64 q := by
  have := fullScale_le hb
  apply BitVec.eq_of_toInt_eq
  rw [BitVec.toInt_signExtend_of_le (by norm_num), toInt_ofInt_pcm hb h1 h2, BitVec.toInt_ofInt, Int.bmod_eq_of_le] <;>
    omega

/-- The end of a sample step that reaches the latched LENGTH (45_pipeline.md R250). -/
theorem finishSample_last {q : Int} {s : State} (h : s.sampleIdx + 1 = s.runLength) :
    finishSample q s = { s with stream := s.stream ++ [BitVec.ofInt 32 q], irqHeld := irqLine s, pcmLast := BitVec.ofInt 64 q,
                                sampleIdx := s.sampleIdx + 1, runState := .done, irqPend := s.irqPend ||| 2#3 } := by
  simp only [finishSample, emit, h, if_true, enterDone]

/-- The end of a sample step before it. -/
theorem finishSample_more {q : Int} {s : State} (h : s.sampleIdx + 1 ≠ s.runLength) :
    finishSample q s = { s with stream := s.stream ++ [BitVec.ofInt 32 q], irqHeld := irqLine s, pcmLast := BitVec.ofInt 64 q,
                                sampleIdx := s.sampleIdx + 1 } := by
  simp only [finishSample, emit, h, if_false]

/-- The end of a sample step whose mix overflows (45_pipeline.md R252). -/
theorem overflowSample_eq (w : CmdWord) (s : State) :
    overflowSample w s =
      recorded .numericOverflow w { s with runState := .aborted, irqPend := s.irqPend ||| 4#3 } := by
  unfold overflowSample; rw [recordError_eq_recorded]; rfl

/-- A sample emitted in a running render keeps the invariant. -/
theorem Inv.finishSample {s : State} (h : Inv s) (hrun : s.runState = .running) {q : Int}
    (h1 : -(fullScale s.runBits.toNat : Int) ≤ q) (h2 : q < fullScale s.runBits.toNat) : Inv (finishSample q s) := by
  have hidx := h.sampleIndex
  unfold sampleIndexOk at hidx
  rw [hrun] at hidx
  dsimp only at hidx
  have hadd : (s.sampleIdx + 1).toNat = s.sampleIdx.toNat + 1 := by
    have := s.runLength.isLt
    rw [BitVec.toNat_add]
    exact Nat.mod_eq_of_lt (by show s.sampleIdx.toNat + 1 < 2 ^ 64; omega)
  have hp : pcmLastOk { s with pcmLast := BitVec.ofInt 64 q } := by
    unfold pcmLastOk
    rw [toInt_ofInt_pcm h.renderParams.2.2.1 h1 h2]
    exact ⟨h1, h2⟩
  unfold Machine.finishSample
  dsimp only
  split
  · rename_i he
    refine ⟨h.memory, h.voices, h.stages, h.regions, ?_, h.renderParams, he, hp⟩
    obtain ⟨g1, g2, g3⟩ := h.errorRecord
    refine ⟨g1, g2, ?_⟩
    show (s.irqPend ||| 2#3).getLsbD 0 = s.err.isSome
    rw [← g3]
    simp
  · rename_i he
    refine ⟨h.memory, h.voices, h.stages, h.regions, h.errorRecord, h.renderParams, ?_, hp⟩
    have hne : (s.sampleIdx + 1).toNat ≠ s.runLength.toNat := fun e => he (BitVec.eq_of_toNat_eq e)
    have hr : (emit q s).runState = .running := hrun
    unfold sampleIndexOk
    dsimp only
    rw [hr]
    show (s.sampleIdx + 1).toNat < s.runLength.toNat
    omega

/-- A render that aborts keeps the invariant. -/
theorem Inv.overflowSample {s : State} (h : Inv s) (hrun : s.runState = .running) (w : CmdWord) :
    Inv (overflowSample w s) := by
  unfold Machine.overflowSample
  rw [recordError_eq_recorded]
  refine Inv.recorded ?_ (by decide) w
  have hidx := h.sampleIndex
  unfold sampleIndexOk at hidx
  rw [hrun] at hidx
  refine ⟨h.memory, h.voices, h.stages, h.regions, ?_, h.renderParams, hidx, h.pcmLast⟩
  obtain ⟨g1, g2, g3⟩ := h.errorRecord
  refine ⟨g1, g2, ?_⟩
  rw [enterAborted_err, enterAborted_irqPend, ← g3]
  simp

/-- One sample step of a running render always completes: it emits a word of the render's width, or the render aborts; the
units have moved on before either. -/
theorem sampleStep_cases (w : CmdWord) {s : State} (hi : UnitInv s) :
    ∃ u, UnitsMoved s u ∧ UnitInv u ∧
      ((∃ q, -(fullScale s.runBits.toNat : Int) ≤ q ∧ q < fullScale s.runBits.toNat ∧
          sampleStep w s = .ok (finishSample q { u with freeTick := s.freeTick + 1 })) ∨
        sampleStep w s = .ok (overflowSample w { u with freeTick := s.freeTick + 1 })) := by
  obtain ⟨m, u, h, hm, hu⟩ := mixSample_moves hi
  refine ⟨u, hm, hu, ?_⟩
  unfold sampleStep
  rw [h]
  have hb : u.runBits = s.runBits := by rw [hm.frame]
  cases hf : isFinite m with
  | true =>
    left
    refine ⟨quantize ⟨s.freeTick, .mixer⟩ m u.runBits.toNat, ?_, ?_, ?_⟩
    · rw [← hb]; exact (quantize_range _ _ _).1
    · rw [← hb]; exact (quantize_range _ _ _).2
    · simp only [Except.map, hf, if_true]
  | false =>
    right
    simp [Except.map, hf]

end Sys2Proof.Machine
end

