-- ==== Sys2Proof/Laws/Real.lean ====
section
/-! SUPPORT. The binary64 operations as operations on the real numbers the encodings stand for: order, representable
numbers, what the one rounding gives, and what a rounded result inherits from bounds on the exact one. -/

namespace Sys2Proof.Machine

/-! ### The unit -/

theorem unitsPerOne_eq : unitsPerOne = 2 ^ 1074 := rfl

theorem unitsPerOne_pos : 0 < unitsPerOne := by unfold unitsPerOne; positivity

theorem unitsPerOne_posQ : (0 : ℚ) < (unitsPerOne : ℚ) := by exact_mod_cast unitsPerOne_pos

/-! ### Signed magnitudes -/

theorem unitsOfMag_zero : unitsOfMag 0 = 0 := unitsOfMag_small (by norm_num)

theorem signedUnits_pack (neg : Bool) {m : Nat} (h : m < 2 ^ 63) :
    signedUnits (pack neg m) = if neg then -(unitsOfMag m : Int) else (unitsOfMag m : Int) := by
  unfold signedUnits units
  rw [signBit_pack _ h, magBits_pack _ h]

theorem signedUnits_fNeg (x : F64) : signedUnits (fNeg x) = -signedUnits x := by
  unfold signedUnits units
  rw [signBit_fNeg, magBits_fNeg]
  cases signBit x <;> simp

theorem natAbs_signedUnits (x : F64) : (signedUnits x).natAbs = units x := by
  unfold signedUnits; split <;> simp

theorem isNaN_false_iff (x : F64) : isNaN x = false ↔ magBits x ≤ infBits := by
  simp [isNaN]

theorem isFinite_fNeg (x : F64) : isFinite (fNeg x) = isFinite x := by unfold isFinite; rw [magBits_fNeg]

theorem isNaN_fNeg (x : F64) : isNaN (fNeg x) = isNaN x := by unfold isNaN; rw [magBits_fNeg]

/-! ### Order -/

/-- The order of the encodings is the order of the numbers. -/
theorem orderKey_lt_iff (x y : F64) : orderKey x < orderKey y ↔ signedUnits x < signedUnits y := by
  have h0 : ∀ m, unitsOfMag m = 0 ↔ m = 0 := by
    intro m
    rw [← unitsOfMag_zero]
    exact unitsOfMag_strictMono.injective.eq_iff
  have h1 := unitsOfMag_lt_iff (a := magBits x) (b := magBits y)
  have h2 := unitsOfMag_lt_iff (a := magBits y) (b := magBits x)
  have hx := h0 (magBits x)
  have hy := h0 (magBits y)
  unfold orderKey signedUnits units
  generalize unitsOfMag (magBits x) = a at *
  generalize unitsOfMag (magBits y) = b at *
  cases signBit x <;> cases signBit y <;> simp only [if_true, if_false, Bool.false_eq_true] <;> omega

theorem orderKey_le_iff (x y : F64) : orderKey x ≤ orderKey y ↔ signedUnits x ≤ signedUnits y := by
  have := orderKey_lt_iff y x
  omega

theorem realValue_le_iff (x y : F64) : realValue x ≤ realValue y ↔ signedUnits x ≤ signedUnits y := by
  unfold realValue
  rw [div_le_div_iff_of_pos_right unitsPerOne_posQ]
  exact Int.cast_le

theorem realValue_lt_iff (x y : F64) : realValue x < realValue y ↔ signedUnits x < signedUnits y := by
  rw [← not_le, realValue_le_iff, not_le]

theorem realValue_inj {x y : F64} (h : realValue x = realValue y) : signedUnits x = signedUnits y :=
  le_antisymm ((realValue_le_iff x y).mp h.le) ((realValue_le_iff y x).mp h.ge)

/-- A comparison of numbers is the comparison of their values (00_scope.md R10). -/
theorem fLt_iff {x y : F64} (hx : isNaN x = false) (hy : isNaN y = false) :
    fLt x y = true ↔ realValue x < realValue y := by
  unfold fLt
  rw [hx, hy, realValue_lt_iff, ← orderKey_lt_iff]
  simp

theorem fLe_iff {x y : F64} (hx : isNaN x = false) (hy : isNaN y = false) :
    fLe x y = true ↔ realValue x ≤ realValue y := by
  unfold fLe
  rw [hx, hy, realValue_le_iff, ← orderKey_le_iff]
  simp

theorem realValue_fNeg (x : F64) : realValue (fNeg x) = -realValue x := by
  unfold realValue; rw [signedUnits_fNeg]; push_cast; ring

theorem units_fAbs (x : F64) : units (fAbs x) = units x := by unfold units; rw [magBits_fAbs]

theorem realValue_eq_zero_iff {x : F64} : realValue x = 0 ↔ signedUnits x = 0 := by
  unfold realValue
  rw [div_eq_zero_iff, or_iff_left unitsPerOne_posQ.ne', Int.cast_eq_zero]

theorem realValue_zero {x : F64} (h : signedUnits x = 0) : realValue x = 0 := realValue_eq_zero_iff.mpr h

/-! ### Constants -/

/-- The units of a power of two. -/
theorem unitsOfMag_pow (k : Nat) : unitsOfMag (k * 2 ^ 52 + 2 ^ 52) = 2 ^ (52 + k) := by
  rw [unitsOfMag_step (.inr (le_refl _)) (by norm_num), pow_add]

theorem realValue_of_units {x : F64} {n d : Nat} (hs : signBit x = false) (h : units x * d = n * unitsPerOne)
    (hd : 0 < d) : realValue x = (n : ℚ) / d := by
  unfold realValue signedUnits
  rw [hs, if_neg (by decide), div_eq_div_iff unitsPerOne_posQ.ne' (by exact_mod_cast hd.ne')]
  exact_mod_cast h

theorem units_fOne : units fOne = 2 ^ 1074 := by
  unfold units
  rw [show magBits fOne = 1022 * 2 ^ 52 + 2 ^ 52 by decide, unitsOfMag_pow]

theorem units_fTwo : units fTwo = 2 ^ 1075 := by
  unfold units
  rw [show magBits fTwo = 1023 * 2 ^ 52 + 2 ^ 52 by decide, unitsOfMag_pow]

theorem units_fFour : units fFour = 2 ^ 1076 := by
  unfold units
  rw [show magBits fFour = 1024 * 2 ^ 52 + 2 ^ 52 by decide, unitsOfMag_pow]

theorem units_fHalf : units fHalf = 2 ^ 1073 := by
  unfold units
  rw [show magBits fHalf = 1021 * 2 ^ 52 + 2 ^ 52 by decide, unitsOfMag_pow]

theorem units_fQuarter : units fQuarter = 2 ^ 1072 := by
  unfold units
  rw [show magBits fQuarter = 1020 * 2 ^ 52 + 2 ^ 52 by decide, unitsOfMag_pow]

theorem units_fThreeQuarters : units fThreeQuarters = 3 * 2 ^ 1072 := by
  unfold units
  rw [show magBits fThreeQuarters = 1021 * 2 ^ 52 + 3 * 2 ^ 51 by decide,
    unitsOfMag_step (.inr (by norm_num)) (by norm_num)]
  rw [Nat.mul_assoc, ← pow_add]

theorem units_fTwo31 : units fTwo31 = 2 ^ 1105 := by
  unfold units
  rw [show magBits fTwo31 = 1053 * 2 ^ 52 + 2 ^ 52 by decide, unitsOfMag_pow]

@[simp] theorem realValue_fZero : realValue fZero = 0 := realValue_zero (by
  unfold signedUnits units
  rw [show magBits fZero = 0 by decide, unitsOfMag_zero]
  decide)

@[simp] theorem realValue_fOne : realValue fOne = 1 := by
  have := realValue_of_units (x := fOne) (n := 1) (d := 1) (by decide)
    (by rw [units_fOne, unitsPerOne_eq, Nat.mul_one, Nat.one_mul]) (by norm_num)
  simpa using this

@[simp] theorem realValue_fTwo : realValue fTwo = 2 := by
  have := realValue_of_units (x := fTwo) (n := 2) (d := 1) (by decide)
    (by rw [units_fTwo, unitsPerOne_eq, Nat.mul_one, ← pow_succ']) (by norm_num)
  simpa using this

@[simp] theorem realValue_fFour : realValue fFour = 4 := by
  have := realValue_of_units (x := fFour) (n := 4) (d := 1) (by decide)
    (by rw [units_fFour, unitsPerOne_eq, Nat.mul_one, show (4 : Nat) = 2 ^ 2 by norm_num, ← pow_add]) (by norm_num)
  simpa using this

@[simp] theorem realValue_fHalf : realValue fHalf = 1 / 2 := by
  have := realValue_of_units (x := fHalf) (n := 1) (d := 2) (by decide)
    (by rw [units_fHalf, unitsPerOne_eq, Nat.one_mul, ← pow_succ]) (by norm_num)
  simpa using this

@[simp] theorem realValue_fQuarter : realValue fQuarter = 1 / 4 := by
  have := realValue_of_units (x := fQuarter) (n := 1) (d := 4) (by decide)
    (by rw [units_fQuarter, unitsPerOne_eq, Nat.one_mul, show (4 : Nat) = 2 ^ 2 by norm_num, ← pow_add]) (by norm_num)
  simpa using this

@[simp] theorem realValue_fThreeQuarters : realValue fThreeQuarters = 3 / 4 := by
  have := realValue_of_units (x := fThreeQuarters) (n := 3) (d := 4) (by decide)
    (by rw [units_fThreeQuarters, unitsPerOne_eq, Nat.mul_assoc, show (4 : Nat) = 2 ^ 2 by norm_num, ← pow_add])
    (by norm_num)
  simpa using this

@[simp] theorem realValue_fTwo31 : realValue fTwo31 = 2147483648 := by
  have := realValue_of_units (x := fTwo31) (n := 2147483648) (d := 1) (by decide)
    (by rw [units_fTwo31, unitsPerOne_eq, Nat.mul_one, show (2147483648 : Nat) = 2 ^ 31 by norm_num, ← pow_add])
    (by norm_num)
  simpa using this

@[simp] theorem realValue_fMinusOne : realValue fMinusOne = -1 := by
  rw [show fMinusOne = fNeg fOne by decide, realValue_fNeg, realValue_fOne]

@[simp] theorem realValue_fMinusTwo : realValue fMinusTwo = -2 := by
  rw [show fMinusTwo = fNeg fTwo by decide, realValue_fNeg, realValue_fTwo]

/-! ### Numbers that are representable -/

/-- A finite number is an integer below 2^53 times a power of two; the power follows from its exponent field. -/
theorem units_decomp (x : F64) : ∃ M, M < 2 ^ 53 ∧ units x = M * 2 ^ (magBits x / 2 ^ 52 - 1) := by
  unfold units unitsOfMag
  split
  · exact ⟨magBits x % 2 ^ 52, by omega, by rw [‹magBits x / 2 ^ 52 = 0›]; simp⟩
  · exact ⟨2 ^ 52 + magBits x % 2 ^ 52, by omega, rfl⟩

/-- An integer up to 2^53 times a power of two is a magnitude. -/
theorem representable : ∀ (k : Nat) {M : Nat}, M ≤ 2 ^ 53 → k ≤ 2045 → ∃ m, m ≤ infBits ∧ unitsOfMag m = M * 2 ^ k
  | 0, M, hM, _ => ⟨M, by norm_num [infBits]; omega, by
      have := unitsOfMag_step (k := 0) (m := M) (.inl rfl) hM
      simpa using this⟩
  | k + 1, M, hM, hk => by
    rcases Nat.lt_or_ge M (2 ^ 52) with h | h
    · obtain ⟨m, h1, h2⟩ := representable k (M := 2 * M) (by omega) (by omega)
      exact ⟨m, h1, by rw [h2, pow_succ]; ring⟩
    · refine ⟨(k + 1) * 2 ^ 52 + M, ?_, unitsOfMag_step (.inr h) hM⟩
      unfold infBits
      omega

/-- The same as an encoding of either sign. -/
theorem exists_number (neg : Bool) (k : Nat) {M : Nat} (hM : M ≤ 2 ^ 53) (hk : k ≤ 2045) :
    ∃ z, isNaN z = false ∧ signedUnits z = (if neg then -1 else 1) * ((M * 2 ^ k : Nat) : Int) := by
  obtain ⟨m, h1, h2⟩ := representable k hM hk
  have hm : m < 2 ^ 63 := lt_of_le_of_lt h1 infBits_lt
  refine ⟨pack neg m, by rw [isNaN_false_iff, magBits_pack _ hm]; exact h1, ?_⟩
  rw [signedUnits_pack _ hm, h2]
  cases neg <;> simp

/-- An integer multiple of 2^k of at most 2^53 steps is the signed magnitude of some encoding. -/
theorem exists_number_int (k : Nat) {n : Int} (hn : |n| ≤ 2 ^ 53) (hk : k ≤ 2045) :
    ∃ z, isNaN z = false ∧ signedUnits z = n * ((2 ^ k : Nat) : Int) := by
  have hM : n.natAbs ≤ 2 ^ 53 := by rw [Int.abs_eq_natAbs] at hn; omega
  obtain ⟨z, h1, h2⟩ := exists_number (decide (n < 0)) k hM hk
  refine ⟨z, h1, h2.trans ?_⟩
  push_cast
  by_cases h : n < 0
  · simp only [h, decide_true, if_true, abs_of_neg]; ring
  · simp only [h, decide_false, Bool.false_eq_true, if_false, abs_of_nonneg (not_lt.mp h)]; ring

/-! ### The rounding -/

theorem getLsbD_pack_zero (neg : Bool) (m : Nat) : (pack neg m).getLsbD 0 = decide (m % 2 = 1) := by
  unfold pack
  rw [BitVec.getLsbD_ofNat, Nat.testBit_zero]
  cases neg
  · simp
  · simp; omega

theorem signBit_roundUnits (neg : Bool) (p q : Nat) : signBit (roundUnits neg p q) = neg := signBit_pack neg (roundMag_lt p q)

/-- The one rounding gives the nearest number, ties to even (00_scope.md R10). -/
theorem roundUnits_roundsTo (neg : Bool) (p : Nat) {q : Nat} (hq : 0 < q) :
    roundsTo (roundUnits neg p q) ((if neg then -1 else 1) * ((p : ℚ) / q / unitsPerOne)) := by
  have hU := unitsPerOne_posQ
  have hqQ : (0 : ℚ) < q := by exact_mod_cast hq
  have hr := roundMag_lt p q
  have hrv : realValue (roundUnits neg p q) = (if neg then -1 else 1) * ((unitsOfMag (roundMag p q) : ℚ) / unitsPerOne) := by
    unfold realValue roundUnits
    rw [signedUnits_pack _ hr]
    generalize (unitsPerOne : ℚ) = U
    cases neg
    · simp
    · simp only [if_true, Int.cast_neg, Int.cast_natCast]; ring
  -- distances, scaled by q and by the unit
  have dist : ∀ a : ℚ, |a / unitsPerOne - (p : ℚ) / q / unitsPerOne| = |a * q - p| / (q * unitsPerOne) := by
    intro a
    generalize (unitsPerOne : ℚ) = U at hU
    rw [show a / U - (p : ℚ) / q / U = (a * q - p) / (q * U) by field_simp, abs_div, abs_of_pos (mul_pos hqQ hU)]
  have sgn : ∀ a e : ℚ, |(if neg then -1 else 1) * a - (if neg then -1 else 1) * e| = |a - e| := by
    intro a e
    cases neg
    · simp
    · simp only [if_true]
      rw [show (-1 : ℚ) * a - -1 * e = -(a - e) by ring, abs_neg]
  refine ⟨by rw [roundUnits, isNaN_false_iff, magBits_pack _ hr]; exact roundMag_le p q, ?_⟩
  intro z hz
  rw [isNaN_false_iff] at hz
  -- a candidate of the same sign is compared directly, one of the other sign is no better than zero
  have same : ∀ m : Nat, m ≤ infBits →
      |((unitsOfMag (roundMag p q) : ℚ)) / unitsPerOne - (p : ℚ) / q / unitsPerOne| ≤
        |(unitsOfMag m : ℚ) / unitsPerOne - (p : ℚ) / q / unitsPerOne| ∧
      (|((unitsOfMag (roundMag p q) : ℚ)) / unitsPerOne - (p : ℚ) / q / unitsPerOne| =
        |(unitsOfMag m : ℚ) / unitsPerOne - (p : ℚ) / q / unitsPerOne| → m ≠ roundMag p q → roundMag p q % 2 = 0) := by
    intro m hm
    obtain ⟨h1, h2⟩ := roundMag_nearest (p := p) hq hm
    rw [dist, dist]
    have c : ∀ n : Nat, |(unitsOfMag n : ℚ) * q - p| = ((|(unitsOfMag n * q : Int) - p| : Int) : ℚ) := by
      intro n; push_cast; rfl
    rw [c, c]
    refine ⟨(div_le_div_iff_of_pos_right (mul_pos hqQ hU)).mpr (by exact_mod_cast h1), fun e hne => h2 ?_ hne⟩
    have := (div_left_inj' (mul_pos hqQ hU).ne').mp e
    exact_mod_cast this
  have even : roundMag p q % 2 = 0 → (roundUnits neg p q).getLsbD 0 = false := by
    intro h
    rw [roundUnits, getLsbD_pack_zero, h]; rfl
  rw [hrv, sgn]
  have hzv : realValue z = (if neg then -1 else 1) *
      ((if signBit z = neg then (1 : ℚ) else -1) * ((unitsOfMag (magBits z) : ℚ) / unitsPerOne)) := by
    unfold realValue signedUnits units
    generalize (unitsPerOne : ℚ) = U
    cases neg <;> cases signBit z <;> simp only [if_true, if_false, Bool.false_eq_true, reduceCtorEq, Int.cast_neg,
      Int.cast_natCast] <;> ring
  rw [hzv, sgn]
  by_cases hs : signBit z = neg
  · rw [if_pos hs, one_mul]
    obtain ⟨h1, h2⟩ := same _ hz
    refine ⟨h1, fun e hne => even (h2 e fun em => hne ?_)⟩
    rw [em]
  · rw [if_neg hs]
    obtain ⟨h1, h2⟩ := same 0 (Nat.zero_le _)
    rw [unitsOfMag_zero] at h1 h2
    generalize (unitsPerOne : ℚ) = U at *
    have hp : (0 : ℚ) ≤ (p : ℚ) / q / U := by positivity
    have hm : (0 : ℚ) ≤ (unitsOfMag (magBits z) : ℚ) / U := by positivity
    have d0 : |((0 : Nat) : ℚ) / U - (p : ℚ) / q / U| = (p : ℚ) / q / U := by
      rw [Nat.cast_zero, zero_div, zero_sub, abs_neg, abs_of_nonneg hp]
    have dz : |-1 * ((unitsOfMag (magBits z) : ℚ) / U) - (p : ℚ) / q / U| =
        (unitsOfMag (magBits z) : ℚ) / U + (p : ℚ) / q / U := by
      rw [show -1 * ((unitsOfMag (magBits z) : ℚ) / U) - (p : ℚ) / q / U =
        -((unitsOfMag (magBits z) : ℚ) / U + (p : ℚ) / q / U) by ring, abs_neg,
        abs_of_nonneg (add_nonneg hm hp)]
    rw [d0] at h1 h2
    rw [dz]
    refine ⟨by linarith, fun e hne => ?_⟩
    have z0 : (unitsOfMag (magBits z) : ℚ) / U = 0 := le_antisymm (by linarith) hm
    apply even
    by_cases hr0 : (0 : Nat) = roundMag p q
    · rw [← hr0]
    · exact h2 (by linarith) hr0

/-! ### What a rounded result inherits -/

/-- A number within the exact value rounds to itself. -/
theorem roundsTo_exact {r z : F64} {e : ℚ} (h : roundsTo r e) (hz : isNaN z = false) (he : realValue z = e) :
    realValue r = e := by
  have := (h.2 z hz).1
  rw [he, sub_self, abs_zero] at this
  have := abs_nonpos_iff.mp this
  linarith

theorem roundsTo_self {r : F64} (hr : isNaN r = false) : roundsTo r (realValue r) := by
  refine ⟨hr, fun z _ => ⟨by simp, fun e hne => absurd ?_ hne⟩⟩
  rw [sub_self, abs_zero] at e
  have := abs_eq_zero.mp e.symm
  linarith

/-- Rounding does not cross a number. -/
theorem roundsTo_ge {r z : F64} {e : ℚ} (h : roundsTo r e) (hz : isNaN z = false) (he : realValue z ≤ e) :
    realValue z ≤ realValue r := by
  by_contra hlt
  have := (h.2 z hz).1
  rw [abs_of_nonpos (by linarith), abs_of_nonpos (by linarith)] at this
  linarith

theorem roundsTo_le {r z : F64} {e : ℚ} (h : roundsTo r e) (hz : isNaN z = false) (he : e ≤ realValue z) :
    realValue r ≤ realValue z := by
  by_contra hlt
  have := (h.2 z hz).1
  rw [abs_of_nonneg (by linarith), abs_of_nonneg (by linarith)] at this
  linarith

/-- A number of magnitude below 2^1024 is finite. -/
theorem isFinite_of_abs_le {r : F64} (hr : isNaN r = false) {k : Nat} (hk : k < 1024) (h : |realValue r| ≤ 2 ^ k) :
    isFinite r = true := by
  rw [isFinite_iff]
  rw [isNaN_false_iff] at hr
  rcases Nat.lt_or_ge (magBits r) infBits with h1 | h1
  · exact h1
  · exfalso
    have e : magBits r = infBits := le_antisymm hr h1
    have hu : units r = 2 ^ 52 * 2 ^ 2046 := by unfold units; rw [e, unitsOfMag_infBits]
    have : |realValue r| = (units r : ℚ) / unitsPerOne := by
      unfold realValue
      rw [abs_div, abs_of_pos unitsPerOne_posQ, ← natAbs_signedUnits]
      congr 1
      rw [Nat.cast_natAbs, Int.cast_abs]
    rw [this, hu, div_le_iff₀ unitsPerOne_posQ, unitsPerOne_eq] at h
    rw [Nat.cast_mul, Nat.cast_pow, Nat.cast_pow, Nat.cast_pow, Nat.cast_ofNat, ← pow_add, ← pow_add] at h
    have := (pow_le_pow_iff_right₀ (by norm_num : (1 : ℚ) < 2)).mp h
    omega

/-! ### The operations on finite numbers, as one rounding each -/

theorem fMul_of_finite {c : Config.At} {a b : F64} (ha : isFinite a = true) (hb : isFinite b = true) :
    fMul c a b = roundUnits (signXor a b) (units a * units b) unitsPerOne := by
  unfold fMul
  simp [isNaN_of_finite ha, isNaN_of_finite hb, isInf_of_finite ha, isInf_of_finite hb]

theorem fAdd_of_finite {c : Config.At} {a b : F64} (ha : isFinite a = true) (hb : isFinite b = true) :
    fAdd c a b = if signedUnits a + signedUnits b = 0 then pack (signBit a && signBit b) 0
      else roundUnits (decide (signedUnits a + signedUnits b < 0)) (signedUnits a + signedUnits b).natAbs 1 := by
  unfold fAdd
  simp [isNaN_of_finite ha, isNaN_of_finite hb, isInf_of_finite ha, isInf_of_finite hb]

theorem fSub_of_finite {c : Config.At} {a b : F64} (ha : isFinite a = true) (hb : isFinite b = true) :
    fSub c a b = fAdd c a (fNeg b) := by
  unfold fSub
  simp [isNaN_of_finite ha, isNaN_of_finite hb]

theorem fDiv_of_finite {c : Config.At} {a b : F64} (ha : isFinite a = true) (hb : isFinite b = true)
    (hz : isZero b = false) : fDiv c a b = roundUnits (signXor a b) (units a * unitsPerOne) (units b) := by
  unfold fDiv
  simp [isNaN_of_finite ha, isNaN_of_finite hb, isInf_of_finite ha, isInf_of_finite hb, hz]

theorem units_pos_of_nonzero {b : F64} (hz : isZero b = false) : 0 < units b := by
  have h : magBits b ≠ 0 := by
    intro e; unfold isZero at hz; rw [e] at hz; exact absurd hz (by decide)
  unfold units
  have := unitsOfMag_lt_iff (a := 0) (b := magBits b)
  rw [unitsOfMag_zero] at this
  exact this.mpr (by omega)

end Sys2Proof.Machine
end

