-- ==== Sys2Proof/Laws/Numbers.lean ====
section
/-! SUPPORT. More of binary64 as real numbers: the size of a finite number, which integers, floors, fractions and scaled
numbers are numbers, the conversions of integers, the rounding half away from zero, the unit interval, and the special
operands. -/

namespace Sys2Proof.Machine

/-! ### The value as sign and magnitude -/

theorem realValue_units (x : F64) :
    realValue x = (if signBit x then -1 else 1) * ((units x : ℚ) / unitsPerOne) := by
  unfold realValue signedUnits
  generalize (unitsPerOne : ℚ) = U
  cases signBit x
  · simp
  · simp only [if_true, Int.cast_neg, Int.cast_natCast]; ring

theorem abs_realValue (x : F64) : |realValue x| = (units x : ℚ) / unitsPerOne := by
  rw [realValue_units, abs_mul, abs_of_nonneg (div_nonneg (Nat.cast_nonneg (units x)) unitsPerOne_posQ.le)]
  have : |(if signBit x = true then (-1 : ℚ) else 1)| = 1 := by split <;> norm_num
  rw [this, one_mul]

theorem realValue_fAbs (x : F64) : realValue (fAbs x) = |realValue x| := by
  rw [abs_realValue, realValue_units, units_fAbs, signBit_fAbs, if_neg (by decide), one_mul]

theorem sign_signXor (a b : F64) : (if signXor a b = true then (-1 : ℚ) else 1) =
    (if signBit a then -1 else 1) * (if signBit b then -1 else 1) := by
  unfold signXor; cases signBit a <;> cases signBit b <;> norm_num

/-! ### The size of a finite number -/

theorem abs_realValue_lt_of_finite {x : F64} (hx : isFinite x = true) : |realValue x| < 2 ^ 1024 := by
  rw [isFinite_iff] at hx
  have h2 : units x < 2 ^ 52 * 2 ^ 2046 := by
    rw [← unitsOfMag_infBits]; exact unitsOfMag_lt_iff.mpr hx
  rw [abs_realValue, div_lt_iff₀ unitsPerOne_posQ, unitsPerOne_eq, Nat.cast_pow, Nat.cast_ofNat, ← pow_add]
  rw [← pow_add, show 52 + 2046 = 1024 + 1074 by norm_num] at h2
  exact_mod_cast h2

/-- A pattern that is no NaN is a finite number when its value is below 2^1024. -/
theorem isFinite_iff_abs_lt {x : F64} (hx : isNaN x = false) : isFinite x = true ↔ |realValue x| < 2 ^ 1024 := by
  refine ⟨abs_realValue_lt_of_finite, fun h => ?_⟩
  by_contra hc
  have hm : magBits x = infBits := by
    rw [isFinite_iff] at hc
    rw [isNaN_false_iff] at hx
    omega
  have hu : units x = 2 ^ 52 * 2 ^ 2046 := by unfold units; rw [hm, unitsOfMag_infBits]
  rw [abs_realValue, div_lt_iff₀ unitsPerOne_posQ, hu, unitsPerOne_eq, Nat.cast_pow, Nat.cast_mul, Nat.cast_pow,
    Nat.cast_pow, Nat.cast_ofNat, ← pow_add, ← pow_add] at h
  exact lt_irrefl _ h

/-! ### Exact results that are numbers -/

/-- An integer up to 2^53 is a number. -/
theorem number_int {n : Int} (hn : |n| ≤ 2 ^ 53) : ∃ z, isNaN z = false ∧ realValue z = (n : ℚ) := by
  obtain ⟨z, h1, h2⟩ := exists_number_int 1074 hn (by norm_num)
  refine ⟨z, h1, ?_⟩
  have hU := unitsPerOne_posQ
  unfold realValue
  rw [h2, ← unitsPerOne_eq]
  generalize unitsPerOne = U at *
  push_cast
  field_simp

theorem floorInt_eq_floor (x : F64) : floorInt x = ⌊realValue x⌋ := by
  unfold floorInt realValue
  rw [Int.fdiv_eq_ediv_of_nonneg _ (by exact_mod_cast Nat.zero_le _)]
  exact_mod_cast (Rat.floor_intCast_div_natCast (signedUnits x) unitsPerOne).symm

/-- The floor of a finite number is a finite number. -/
theorem number_floor {x : F64} (hx : isFinite x = true) :
    ∃ z, isFinite z = true ∧ realValue z = ((floorInt x : Int) : ℚ) := by
  obtain ⟨M, hM, hu⟩ := units_decomp x
  generalize hk : magBits x / 2 ^ 52 - 1 = k at hu
  have hU := unitsPerOne_posQ
  rcases Nat.lt_or_ge k 1074 with h | h
  · have fin : |floorInt x| ≤ 2 ^ 53 → ∃ z, isFinite z = true ∧ realValue z = ((floorInt x : Int) : ℚ) := by
      intro hb
      obtain ⟨z, z1, z2⟩ := number_int hb
      refine ⟨z, isFinite_of_abs_le z1 (k := 53) (by norm_num) ?_, z2⟩
      rw [z2]; exact_mod_cast hb
    apply fin
    rw [floorInt_eq_floor]
    have hle : (|realValue x| : ℚ) ≤ M := by
      rw [abs_realValue, div_le_iff₀ hU, hu]
      have : (M * 2 ^ k : ℕ) ≤ M * unitsPerOne := by
        rw [unitsPerOne_eq]
        exact Nat.mul_le_mul_left _ (Nat.pow_le_pow_right (by norm_num) h.le)
      exact_mod_cast this
    rw [abs_le] at hle ⊢
    have hM2 : (M : ℤ) ≤ 2 ^ 53 := by exact_mod_cast hM.le
    constructor
    · have : -(M : ℤ) ≤ ⌊realValue x⌋ := Int.le_floor.mpr (by push_cast; exact hle.1)
      linarith
    · have : (⌊realValue x⌋ : ℚ) ≤ M := (Int.floor_le _).trans hle.2
      have : ⌊realValue x⌋ ≤ (M : ℤ) := by exact_mod_cast this
      linarith
  · refine ⟨x, hx, ?_⟩
    obtain ⟨n, hn⟩ : ∃ n : ℤ, signedUnits x = n * unitsPerOne := by
      have : unitsPerOne ∣ units x := by
        rw [hu, unitsPerOne_eq]
        exact Dvd.dvd.mul_left (pow_dvd_pow 2 h) M
      obtain ⟨d, hd⟩ := this
      refine ⟨if signBit x then -(d : ℤ) else d, ?_⟩
      unfold signedUnits
      rw [hd]
      split <;> (push_cast; ring)
    have e : realValue x = (n : ℚ) := by
      unfold realValue; rw [hn]
      generalize unitsPerOne = U at *
      push_cast
      field_simp
    rw [floorInt_eq_floor, e, Int.floor_intCast]

/-- The fractional part of a non-negative finite number is a number. -/
theorem number_fract {x : F64} (h0 : 0 ≤ realValue x) :
    ∃ z, isNaN z = false ∧ realValue z = realValue x - ⌊realValue x⌋ := by
  obtain ⟨M, hM, hu⟩ := units_decomp x
  generalize hk : magBits x / 2 ^ 52 - 1 = k at hu
  have hU := unitsPerOne_posQ
  have hs : signedUnits x = units x := by
    have h1 : (0 : Int) ≤ signedUnits x := by
      have := (realValue_le_iff fZero x).mp (by rw [realValue_fZero]; exact h0)
      have e : signedUnits fZero = 0 := by
        unfold signedUnits units; rw [show magBits fZero = 0 by decide, unitsOfMag_zero]; decide
      omega
    rw [← natAbs_signedUnits]; omega
  have hf : (⌊realValue x⌋ : ℚ) = ((units x / unitsPerOne : ℕ) : ℚ) := by
    rw [← floorInt_eq_floor]
    unfold floorInt
    rw [hs, Int.fdiv_eq_ediv_of_nonneg _ (by exact_mod_cast Nat.zero_le _)]
    generalize unitsPerOne = U
    rw [← Int.natCast_div, Int.cast_natCast]
  have hsub : realValue x - ⌊realValue x⌋ = ((units x % unitsPerOne : ℕ) : ℚ) / unitsPerOne := by
    rw [hf]
    unfold realValue
    rw [hs]
    have := Nat.div_add_mod (units x) unitsPerOne
    generalize unitsPerOne = U at *
    have e : (units x : ℚ) = U * ((units x / U : ℕ) : ℚ) + ((units x % U : ℕ) : ℚ) := by exact_mod_cast this.symm
    rw [Int.cast_natCast]
    generalize ((units x / U : ℕ) : ℚ) = D at *
    rw [e]
    field_simp
    ring
  rw [hsub]
  have rep : ∃ z, isNaN z = false ∧ signedUnits z = ((units x % unitsPerOne : ℕ) : Int) := by
    rcases Nat.lt_or_ge k 1074 with h | h
    · have e : units x % unitsPerOne = (M % 2 ^ (1074 - k)) * 2 ^ k := by
        have e : (2 : ℕ) ^ 1074 = 2 ^ (1074 - k) * 2 ^ k := (pow_sub_mul_pow 2 h.le).symm
        rw [hu, unitsPerOne_eq, e, Nat.mul_mod_mul_right]
      obtain ⟨z, z1, z2⟩ := exists_number false k (M := M % 2 ^ (1074 - k)) ((Nat.mod_le _ _).trans hM.le) (by omega)
      exact ⟨z, z1, by rw [z2, e]; simp⟩
    · have : units x % unitsPerOne = 0 := by
        rw [hu, unitsPerOne_eq]
        exact Nat.mod_eq_zero_of_dvd (Dvd.dvd.mul_left (pow_dvd_pow 2 h) M)
      obtain ⟨z, z1, z2⟩ := exists_number false 0 (M := 0) (by norm_num) (by norm_num)
      exact ⟨z, z1, by rw [z2, this]; simp⟩
  obtain ⟨z, z1, z2⟩ := rep
  exact ⟨z, z1, by unfold realValue; rw [z2, Int.cast_natCast]⟩

/-- A number of magnitude up to 1, times a power of two up to 2^40, is a number. -/
theorem number_scaled {x : F64} (j : Nat) (hj : j ≤ 40) (hb : magBits x ≤ 1023 * 2 ^ 52) :
    ∃ z, isNaN z = false ∧ realValue z = realValue x * 2 ^ j := by
  obtain ⟨M, hM, hu⟩ := units_decomp x
  have hk : magBits x / 2 ^ 52 - 1 ≤ 1022 := by omega
  generalize magBits x / 2 ^ 52 - 1 = k at *
  obtain ⟨z, z1, z2⟩ := exists_number (signBit x) (k + j) (M := M) hM.le (by omega)
  refine ⟨z, z1, ?_⟩
  rw [realValue_units x, hu]
  unfold realValue
  rw [z2, pow_add, ← Nat.mul_assoc]
  generalize (unitsPerOne : ℚ) = U
  generalize M * 2 ^ k = N
  push_cast
  split <;> ring

theorem magBits_le_of_abs_le_one {x : F64} (h : |realValue x| ≤ 1) : magBits x ≤ 1023 * 2 ^ 52 := by
  rw [abs_realValue, div_le_one unitsPerOne_posQ] at h
  have h' : units x ≤ unitsPerOne := by exact_mod_cast h
  rw [unitsPerOne_eq, ← units_fOne] at h'
  have := unitsOfMag_le_iff.mp h'
  rwa [show magBits fOne = 1023 * 2 ^ 52 by decide] at this

/-- A number from 1/4 up is a whole number of 2^1020 units. -/
theorem quarter_multiple {p : F64} (h0 : 1 / 4 ≤ realValue p) : ∃ M : Int, signedUnits p = M * ((2 ^ 1020 : ℕ) : Int) := by
  have hm : 1021 * 2 ^ 52 ≤ magBits p := by
    have h := (realValue_le_iff fQuarter p).mp (by rw [realValue_fQuarter]; exact h0)
    have hq : signedUnits fQuarter = units fQuarter := by
      unfold signedUnits; rw [show signBit fQuarter = false by decide]; rfl
    have hp' : signedUnits p ≤ units p := by unfold signedUnits; split <;> omega
    rw [hq] at h
    have h' : units fQuarter ≤ units p := by exact_mod_cast h.trans hp'
    have := unitsOfMag_le_iff.mp h'
    rwa [show magBits fQuarter = 1021 * 2 ^ 52 by decide] at this
  obtain ⟨M, hM, hu⟩ := units_decomp p
  have hk : 1020 ≤ magBits p / 2 ^ 52 - 1 := by omega
  generalize magBits p / 2 ^ 52 - 1 = k at *
  obtain ⟨j, rfl⟩ := Nat.exists_eq_add_of_le hk
  refine ⟨if signBit p then -((M * 2 ^ j : ℕ) : Int) else ((M * 2 ^ j : ℕ) : Int), ?_⟩
  unfold signedUnits
  rw [hu]
  have e : M * 2 ^ (1020 + j) = M * 2 ^ j * 2 ^ 1020 := by rw [pow_add]; ring
  rw [e]
  split <;> push_cast <;> ring

/-! ### Conversions of integers -/

theorem fOfInt_roundsTo (n : Int) : roundsTo (fOfInt n) (n : ℚ) := by
  unfold fOfInt
  have hU := unitsPerOne_posQ
  have := roundUnits_roundsTo (decide (n < 0)) (n.natAbs * unitsPerOne) (q := 1) (by norm_num)
  convert this using 1
  rw [Nat.cast_mul, Nat.cast_one, div_one]
  generalize (unitsPerOne : ℚ) = U at *
  rw [Nat.cast_natAbs, mul_div_assoc, div_self hU.ne', mul_one]
  by_cases h : n < 0
  · simp only [h, decide_true, if_true, abs_of_neg, Int.cast_neg]; ring
  · simp only [h, decide_false, Bool.false_eq_true, if_false, abs_of_nonneg (not_lt.mp h)]; ring

theorem fOfNat_roundsTo (n : Nat) : roundsTo (fOfNat n) (n : ℚ) := by
  unfold fOfNat
  have hU := unitsPerOne_posQ
  have := roundUnits_roundsTo false (n * unitsPerOne) (q := 1) (by norm_num)
  convert this using 1
  rw [Nat.cast_mul, Nat.cast_one, div_one]
  generalize (unitsPerOne : ℚ) = U at *
  rw [mul_div_assoc, div_self hU.ne', mul_one]
  simp

theorem fOfNat_pow {b : Nat} (hb : b ≤ 40) :
    isFinite (fOfNat (2 ^ b)) = true ∧ realValue (fOfNat (2 ^ b)) = 2 ^ b := by
  have hle : (2 : Int) ^ b ≤ 2 ^ 40 := pow_le_pow_right₀ (by norm_num) hb
  obtain ⟨z, z1, z2⟩ := number_int (n := 2 ^ b) (by rw [abs_of_pos (by positivity)]; linarith)
  have r := fOfNat_roundsTo (2 ^ b)
  have e := roundsTo_exact r z1 (by rw [z2]; push_cast; rfl)
  push_cast at e
  exact ⟨isFinite_of_abs_le r.1 (k := 40) (by norm_num) (by rw [e, abs_of_pos (by positivity)]; exact_mod_cast hle), e⟩

/-! ### Rounding half away from zero -/

theorem roundHalfAway_eq (x : F64) :
    roundHalfAway x = if 0 ≤ realValue x then ⌊realValue x + 1 / 2⌋ else ⌈realValue x - 1 / 2⌉ := by
  have hU := unitsPerOne_posQ
  have hn : ∀ u : Nat, ((nearestHalfUp u : Int)) = ⌊(u : ℚ) / unitsPerOne + 1 / 2⌋ := by
    intro u
    unfold nearestHalfUp
    have : (u : ℚ) / unitsPerOne + 1 / 2 = ((2 * u + unitsPerOne : ℕ) : ℚ) / ((2 * unitsPerOne : ℕ) : ℚ) := by
      generalize unitsPerOne = U at *
      push_cast
      field_simp
    rw [this]
    generalize unitsPerOne = U
    have h := (Rat.floor_intCast_div_natCast ((2 * u + U : ℕ) : Int) (2 * U))
    rw [Int.cast_natCast] at h
    rw [h, ← Int.natCast_div]
  unfold roundHalfAway
  rw [realValue_units x]
  cases hs : signBit x
  · simp only [Bool.false_eq_true, if_false, one_mul]
    rw [if_pos (div_nonneg (Nat.cast_nonneg _) hU.le), hn]
  · simp only [if_true]
    rw [hn]
    generalize (unitsPerOne : ℚ) = U at hU ⊢
    by_cases h0 : units x = 0
    · rw [h0, Nat.cast_zero, zero_div]; norm_num
    · have hpos : (0 : ℚ) < (units x : ℚ) / U := div_pos (by exact_mod_cast Nat.pos_of_ne_zero h0) hU
      rw [if_neg (by linarith), ← Int.ceil_neg]
      congr 1; ring

/-- The rounding half away from zero is monotone. -/
theorem halfAway_mono {x y : ℚ} (h : x ≤ y) :
    (if 0 ≤ x then ⌊x + 1 / 2⌋ else ⌈x - 1 / 2⌉) ≤ (if 0 ≤ y then ⌊y + 1 / 2⌋ else ⌈y - 1 / 2⌉) := by
  split
  · rw [if_pos (by linarith)]
    exact Int.floor_le_floor (by linarith)
  · rename_i hx
    split
    · rw [not_le] at hx
      have a : ⌈x - 1 / 2⌉ ≤ 0 := Int.ceil_le.mpr (by push_cast; linarith)
      have b : 0 ≤ ⌊y + 1 / 2⌋ := Int.le_floor.mpr (by push_cast; linarith)
      omega
    · exact Int.ceil_le_ceil (by linarith)

/-! ### Bounds on a rounded result, and the unit interval -/

/-- A rounded result is no larger than a number the exact value does not exceed. -/
theorem roundsTo_abs_le {r z : F64} {e : ℚ} (h : roundsTo r e) (hz : isNaN z = false) (he : |e| ≤ realValue z) :
    |realValue r| ≤ realValue z := by
  rw [abs_le] at he ⊢
  have hz' : isNaN (fNeg z) = false := by rw [isNaN_fNeg]; exact hz
  have h1 := roundsTo_ge h hz' (by rw [realValue_fNeg]; exact he.1)
  rw [realValue_fNeg] at h1
  exact ⟨h1, roundsTo_le h hz he.2⟩

theorem inUnitRange_iff {x : F64} (hx : isNaN x = false) : inUnitRange x = true ↔ |realValue x| ≤ 1 := by
  have n1 : isNaN fOne = false := by decide
  have nm : isNaN fMinusOne = false := by decide
  unfold inUnitRange
  simp only [Bool.and_eq_true, fLe_iff nm hx, fLe_iff hx n1, realValue_fOne, realValue_fMinusOne, abs_le]
  constructor
  · rintro ⟨⟨_, a⟩, b⟩; exact ⟨a, b⟩
  · rintro ⟨a, b⟩
    exact ⟨⟨isFinite_of_abs_le hx (k := 0) (by norm_num) (by rw [abs_le]; norm_num; exact ⟨a, b⟩), a⟩, b⟩

theorem finite_of_inUnitRange {x : F64} (h : inUnitRange x = true) : isFinite x = true ∧ |realValue x| ≤ 1 := by
  have hf : isFinite x = true := by unfold inUnitRange at h; simp at h; exact h.1.1
  exact ⟨hf, (inUnitRange_iff (isNaN_of_finite hf)).mp h⟩

/-! ### Special operands (00_scope.md R10; log entry 15)

Each equation rewrites the tests away one by one: closing such a goal by `rfl` makes the kernel compute `2 ^ 1074`. -/

theorem isNaN_nanAt (c : Config.At) (op : Config.FloatOp) (a b : F64) : isNaN (nanAt c op a b) = true := isNaN_nanFrom _

theorem isInf_pack_infBits (neg : Bool) : isInf (pack neg infBits) = true := by
  unfold isInf; rw [magBits_pack _ infBits_lt]; exact beq_self_eq_true _

theorem isZero_pack_zero (neg : Bool) : isZero (pack neg 0) = true := by
  unfold isZero; rw [magBits_pack _ (by norm_num)]; exact beq_self_eq_true _

theorem isZero_of_isInf {x : F64} (h : isInf x = true) : isZero x = false := by
  unfold isInf at h
  unfold isZero
  rw [eq_of_beq h]
  decide

theorem fSub_eq_fAdd_fNeg {c : Config.At} {a b : F64} (ha : isNaN a = false) (hb : isNaN b = false) :
    fSub c a b = fAdd c a (fNeg b) := by
  unfold fSub; rw [ha, hb, Bool.or_self, if_neg (by decide)]

theorem fAdd_of_isInf_left {c : Config.At} {a b : F64} (ha : isNaN a = false) (hb : isNaN b = false)
    (h : isInf a = true) : fAdd c a b = if isInf b && signXor a b then nanAt c .add a b else a := by
  unfold fAdd; rw [ha, hb, h, Bool.or_self, if_neg (by decide), if_pos rfl]

theorem fAdd_of_isInf_right {c : Config.At} {a b : F64} (ha : isNaN a = false) (hb : isNaN b = false)
    (h : isInf a = false) (h' : isInf b = true) : fAdd c a b = b := by
  unfold fAdd; rw [ha, hb, h, h', Bool.or_self, if_neg (by decide), if_neg (by decide), if_pos rfl]

theorem fMul_of_isInf {c : Config.At} {a b : F64} (ha : isNaN a = false) (hb : isNaN b = false)
    (h : (isInf a || isInf b) = true) :
    fMul c a b = if isZero a || isZero b then nanAt c .mul a b else pack (signXor a b) infBits := by
  unfold fMul; rw [ha, hb, h, Bool.or_self, if_neg (by decide), if_pos rfl]

theorem fDiv_of_isInf_left {c : Config.At} {a b : F64} (ha : isNaN a = false) (hb : isNaN b = false)
    (h : isInf a = true) : fDiv c a b = if isInf b then nanAt c .div a b else pack (signXor a b) infBits := by
  unfold fDiv; rw [ha, hb, h, Bool.or_self, if_neg (by decide), if_pos rfl]

theorem fDiv_of_isInf_right {c : Config.At} {a b : F64} (ha : isNaN a = false) (hb : isNaN b = false)
    (h : isInf a = false) (h' : isInf b = true) : fDiv c a b = pack (signXor a b) 0 := by
  unfold fDiv; rw [ha, hb, h, h', Bool.or_self, if_neg (by decide), if_neg (by decide), if_pos rfl]

theorem fDiv_of_isZero_right {c : Config.At} {a b : F64} (ha : isNaN a = false) (hb : isNaN b = false)
    (h : isInf a = false) (h' : isZero b = true) :
    fDiv c a b = if isZero a then nanAt c .div a b else pack (signXor a b) infBits := by
  have hi : isInf b = false := by
    cases e : isInf b
    · rfl
    · rw [isZero_of_isInf e] at h'; cases h'
  unfold fDiv
  rw [ha, hb, h, hi, h', Bool.or_self, if_neg (by decide), if_neg (by decide), if_neg (by decide), if_pos rfl]

end Sys2Proof.Machine
end

