-- ==== Sys2Proof/Laws/Port.lean ====
section
/-! SUPPORT. Everything a step can do at the outside of the block, by what it finds there: the reset input, a word in the
output stream, a host transaction, or nothing. -/

namespace Sys2Proof.Machine

/-! ### The sink -/

/-- A ready sink takes the oldest word (45_pipeline.md R262). -/
theorem sinkTurn_ready {s : State} (h : sinkReady s = true) :
    sinkTurn s = { s with accepted := s.accepted ++ s.stream.take 1, stream := s.stream.drop 1,
                          sinkScript := s.sinkScript.tail } := by
  unfold sinkTurn; rw [if_pos h]

/-- A sink that is not ready takes nothing. -/
theorem sinkTurn_busy {s : State} (h : sinkReady s = false) :
    sinkTurn s = { s with sinkScript := s.sinkScript.tail } := by
  unfold sinkTurn; rw [if_neg (by rw [h]; decide)]

/-- An offer changes the stream, the words taken and the sink's script alone. -/
theorem sinkTurn_frame (s : State) :
    sinkTurn s = { s with accepted := (sinkTurn s).accepted, stream := (sinkTurn s).stream,
                          sinkScript := s.sinkScript.tail } := by
  unfold sinkTurn; split <;> rfl

/-! ### The step -/

/-- With the reset input asserted (70_reset_and_hazards.md R341). -/
theorem step_reset {s : State} (h : resetAsserted s = true) :
    step s = .next (powerOnReset { s with resetPin := s.resetPin.tail }) := by
  simp only [step, takeTurn, h, if_true]

/-- With a word in the stream (70_reset_and_hazards.md R356). -/
theorem step_stream {s : State} (h : resetAsserted s = false) (hs : s.stream ≠ []) :
    step s = .next (sinkTurn { s with resetPin := s.resetPin.tail }) := by
  unfold step takeTurn
  rw [if_neg (by rw [h]; decide), if_pos hs]

/-- With nothing to take (70_reset_and_hazards.md R342). -/
theorem step_idle {s : State} (h : resetAsserted s = false) (hs : s.stream = []) (hq : s.hostQueue = []) :
    step s = .next { s with resetPin := s.resetPin.tail } := by
  unfold step takeTurn
  rw [if_neg (by rw [h]; decide), if_neg (fun e => e hs), hq]

/-- With a host transaction to take (20_memory.md R80). -/
theorem step_host {s : State} {t : HostTxn} {rest : List HostTxn} (h : resetAsserted s = false) (hs : s.stream = [])
    (hq : s.hostQueue = t :: rest) :
    step s = transact t { s with resetPin := s.resetPin.tail, hostQueue := rest } := by
  unfold step takeTurn
  rw [if_neg (by rw [h]; decide), if_neg (fun e => e hs), hq]

/-- Every step is one of the four. -/
theorem step_cases (s : State) :
    step s = .next (powerOnReset { s with resetPin := s.resetPin.tail }) ∨
    step s = .next (sinkTurn { s with resetPin := s.resetPin.tail }) ∨
    step s = .next { s with resetPin := s.resetPin.tail } ∨
    ∃ t rest, step s = transact t { s with resetPin := s.resetPin.tail, hostQueue := rest } := by
  cases h : resetAsserted s with
  | true => exact .inl (step_reset h)
  | false =>
    by_cases hs : s.stream = []
    · rcases hq : s.hostQueue with _ | ⟨t, rest⟩
      · exact .inr (.inr (.inl (hq ▸ step_idle h hs hq)))
      · exact .inr (.inr (.inr ⟨t, rest, step_host h hs hq⟩))
    · exact .inr (.inl (step_stream h hs))

/-- A run of `k + 1` steps is a step and a run of `k`. -/
theorem run_succ {s t : State} (h : step s = .next t) (k : Nat) : core.run (k + 1) s = core.run k t := by
  have h' : core.step s = .next t := h
  simp only [Host.Core.run, h']

/-! ### The host port -/

/-- An offset from 0x0C0 on is no argument register (10_state.md R22). -/
theorem argOffset_high {a : Nat} (h : 0x0C0 ≤ a) : argOffset a = none := by
  unfold argOffset; rw [dif_neg]; omega

/-- Everything a host write other than a command does: one register, the acknowledgement, or nothing. -/
theorem writeRegister_cases (off : BitVec 9) (x : Word) (s : State) :
    writeRegister off x s = issueCommand x s ∨ writeRegister off x s = .next (acknowledge x s) ∨
    writeRegister off x s = .next s ∨
    ∃ en fs bits hr len noise p, writeRegister off x s = .next
      { s with irqEn := en, fs := fs, bits := bits, headroom := hr, length := len, noise := noise, p := p } := by
  unfold writeRegister
  split
  · exact .inl rfl
  · exact .inr (.inr (.inr ⟨_, _, _, _, _, _, _, rfl⟩))
  · exact .inr (.inl rfl)
  · exact .inr (.inr (.inr ⟨_, _, _, _, _, _, _, rfl⟩))
  · exact .inr (.inr (.inr ⟨_, _, _, _, _, _, _, rfl⟩))
  · exact .inr (.inr (.inr ⟨_, _, _, _, _, _, _, rfl⟩))
  · exact .inr (.inr (.inr ⟨_, _, _, _, _, _, _, rfl⟩))
  · exact .inr (.inr (.inr ⟨_, _, _, _, _, _, _, rfl⟩))
  · split
    · exact .inr (.inr (.inr ⟨_, _, _, _, _, _, _, rfl⟩))
    · exact .inr (.inr (.inl rfl))

end Sys2Proof.Machine
end

