-- ==== Sys2Proof/Tests/Slice0.lean ====
section
/-! SUPPORT. Tests, each with the place its expected result comes from, and for every statement with hypotheses a state and
operands that meet them. V-xx are the vectors of 95_test_vectors.md. -/

namespace Sys2Proof.Tests

-- One test after the other: side by side, each `decide +kernel` waits for the one before it and holds a thread's stack.
set_option Elab.async false

open Sys2Proof.Machine

/-! ## Helpers -/

/-- The outcome is a next state with the property. -/
def holds (r : Result) (f : State → Bool) : Bool :=
  match r with
  | .next t => f t
  | .fault _ => false
  | .refused _ => false

theorem exists_of_holds {r : Result} {f : State → Bool} (h : holds r f = true) : ∃ t, r = .next t ∧ f t = true := by
  unfold holds at h
  split at h
  · exact ⟨_, rfl, h⟩
  · cases h
  · cases h

/-- The reset state with P0 to P3. -/
def withArgs (a b c d : Word) : State := { State.reset with p := #v[a, b, c, d, 0, 0, 0, 0] }

/-- The same at FS = 8, the sample rate of most vectors. -/
def at8 (a b c d : Word) : State := { withArgs a b c d with fs := 8#32 }

/-- 0.5, 1.0, 2.0, 440.0 and a NaN. -/
def half : Word := 0x3FE0000000000000#64
def one : Word := 0x3FF0000000000000#64
def two : Word := 0x4000000000000000#64
def a440 : Word := 0x407B800000000000#64
def nan : Word := 0x7FF8000000000000#64
/-- The largest finite number. -/
def huge : Word := 0x7FEFFFFFFFFFFFFF#64

/-- Voice 0 with a record. -/
def withVoice (s : State) (x : Voice) : State := s.setVoice 0 x

/-- Stage 0 of voice 0 with a record. -/
def withStage (s : State) (x : Stage) : State := s.setStage 0 0 x

/-- The block RUNNING a render of `n` samples at FS = 8. -/
def running (n : BitVec 64) : State := { State.reset with runState := .running, runFs := 8#32, runLength := n }

/-! ## Well-formed terms: each check with a term it refuses -/

theorem test_wf_voice_index : wellFormedB (.oscSine 8) = false ∧ wellFormedB (.oscSine 7) = true := by decide
theorem test_wf_voice_index_of_stage_command : wellFormedB (.comb 8 0) = false ∧ wellFormedB (.comb 7 0) = true := by
  decide
theorem test_wf_stage_index : wellFormedB (.comb 0 2) = false ∧ wellFormedB (.comb 0 1) = true := by decide

/-! ## Decoding words written out from 30_encoding.md R91 to R94 (V-E1, V-E2) -/

theorem test_decode_block : decode 0x00000000 = .ok .nop ∧ decode 0x04000000 = .ok .srst ∧
    decode 0x08000000 = .ok .start ∧ decode 0x0C000008 = .ok (.step 8) ∧ decode 0x0C0FFFFF = .ok (.step 0xFFFFF) ∧
    decode 0x10000000 = .ok .ramrd ∧ decode 0x14000000 = .ok .ramwr := by decide
theorem test_decode_voice : decode 0x20400000 = .ok (.oscOff 1) ∧ decode 0x24000000 = .ok (.oscSine 0) ∧
    decode 0x28800000 = .ok (.oscSquare 2) ∧ decode 0x2D000000 = .ok (.oscTriangle 4) ∧
    decode 0x30C00000 = .ok (.oscSawtooth 3) ∧ decode 0x35C00000 = .ok (.oscKs 7) ∧
    decode 0x38000000 = .ok (.setFreq 0) ∧ decode 0x3D400000 = .ok (.setGain 5) ∧
    decode 0x41800000 = .ok (.rdVoice 6) := by decide
theorem test_decode_stage : decode 0x61500000 = .ok (.bypass 5 1) ∧ decode 0x65500000 = .ok (.bqLpf 5 1) ∧
    decode 0x68100000 = .ok (.bqHpf 0 1) ∧ decode 0x6C400000 = .ok (.bqBpf 1 0) ∧ decode 0x70900000 = .ok (.bqBrf 2 1) ∧
    decode 0x75C00000 = .ok (.bqApf 7 0) ∧ decode 0x78400000 = .ok (.comb 1 0) ∧ decode 0x7C400000 = .ok (.delay 1 0) ∧
    decode 0x80100000 = .ok (.clrSt 0 1) ∧ decode 0x85100000 = .ok (.rdCoef 4 1) ∧
    decode 0x88400000 = .ok (.rdState 1 0) := by decide
/-- OSC_SAWTOOTH v3 bit by bit (R91): op 001100, v 0011, s 00, imm20 0. -/
theorem test_decode_bits : decodeWord (0b001100#6 ++ 0b0011#4 ++ 0b00#2 ++ 0#20) = .ok (.oscSawtooth 3) ∧
    decodeWord (0b011110#6 ++ 0b0001#4 ++ 0b00#2 ++ 0#20) = .ok (.comb 1 0) ∧
    decodeWord (0b000011#6 ++ 0b0000#4 ++ 0b00#2 ++ 0b00000000000000001000#20) = .ok (.step 8) := by decide
/-- V-E3: the refused writes, each by the check that refuses it. -/
theorem test_decode_refused : decode 0x18000000 = .error .undefinedOpcode ∧ decode 0xFC000000 = .error .undefinedOpcode ∧
    decode 0x00000001 = .error .reservedField ∧ decode 0x24000001 = .error .reservedField ∧
    decode 0x26000000 = .error .voiceIndex ∧ decode 0x64200000 = .error .stageIndex ∧
    decode 0x0C400000 = .error .reservedField ∧ decode 0x0000000108000000 = .error .upperBits := by decide

/-! ## Block control and sample RAM -/

theorem test_srst_keeps_ram : holds (exec .srst { withArgs one 0 0 0 with ram := [(7, one)], fs := 8#32 })
    (fun t => t.fs == 44100#32 && t.p[0] == 0 && ramWord t 7 == one) = true := by decide
theorem test_ramwr_last_word : holds (exec .ramwr (withArgs half 65535 0 0)) (fun t => t.ram == [(65535, half)]) = true := by
  decide
theorem test_ramwr_past_end : holds (exec .ramwr (withArgs half 65536 0 0))
    (fun t => t.ram == [] && statusWord t == 0x60 && t.errInfo == 0x14000000) = true := by decide
theorem test_ramrd_last_word : holds (exec .ramrd { withArgs 0 65535 0 0 with ram := [(65535, half)] })
    (fun t => t.p[0] == half) = true := by decide
theorem test_ramrd_past_end : holds (exec .ramrd (withArgs half 65536 0 0))
    (fun t => t.p[0] == half && t.errInfo == 0x10000000) = true := by decide

/-! ## Voices -/

/-- V-G7: -0.0 is accepted and kept. -/
theorem test_sine_minus_zero : holds (exec (.oscSine 0) (withArgs 0x8000000000000000 one 0 0))
    (fun t => (t.voice 0).kind == .sine && (t.voice 0).freq == 0x8000000000000000) = true := by decide
/-- V-G8: f = -1.0 on voice 2. -/
theorem test_sine_negative_frequency : holds (exec (.oscSine 2) (withArgs 0xBFF0000000000000 one 0 0))
    (fun t => statusWord t == 0x10 && t.errInfo == 0x24800000 && (t.voice 2).kind == .off) = true := by decide
theorem test_square_builds : holds (exec (.oscSquare 1) (withArgs one half 0 0))
    (fun t => (t.voice 1) == ⟨.square, one, half, 0, 0, 0, 0, 0⟩) = true := by decide
theorem test_triangle_nan_gain : holds (exec (.oscTriangle 1) (withArgs one nan 0 0))
    (fun t => statusWord t == 0x10 && t.errInfo == 0x2C400000) = true := by decide
theorem test_sawtooth_builds : holds (exec (.oscSawtooth 7) (withArgs one half 0 0))
    (fun t => (t.voice 7).kind == .sawtooth && (t.voice 6).kind == .off) = true := by decide
/-- 40_generator.md R110: frequency and gain stay. -/
theorem test_osc_off_keeps_gain : holds (exec (.oscOff 0) (withVoice State.reset ⟨.ks, one, half, one, 5, 2, 1, 8⟩))
    (fun t => t.voice 0 == ⟨.off, one, half, 0, 0, 0, 0, 0⟩) = true := by decide
/-- V-G9. -/
theorem test_setfreq_off_voice : holds (exec (.setFreq 0) (withArgs one 0 0 0))
    (fun t => statusWord t == 0x50 && t.errInfo == 0x38000000) = true := by decide
theorem test_setgain_keeps_frequency : holds (exec (.setGain 0) (withVoice (withArgs half 0 0 0) ⟨.sine, two, one, 0, 0, 0, 0, 0⟩))
    (fun t => t.voice 0 == ⟨.sine, two, half, 0, 0, 0, 0, 0⟩) = true := by decide
/-- V-G11. -/
theorem test_rdvoice_reset : holds (exec (.rdVoice 0) State.reset)
    (fun t => t.p == #v[0, 0, 0x3FF0000000000000, 0, 0, 0, 0, 0]) = true := by decide

/-- The place of the tests' operations. -/
def place : Config.At := ⟨0, .command⟩

/-- V-G1 to V-G4 at FS = 8, f = 1: samples 1, 4 and 7 (t = 1/8, 1/2, 7/8). -/
theorem test_square_wave : squareWave place one 0x3FC0000000000000 = one ∧ squareWave place one half = fMinusOne ∧
    squareWave place one 0x3FEC000000000000 = fMinusOne := by decide +kernel
theorem test_triangle_wave : triangleWave place one 0x3FC0000000000000 = half ∧ triangleWave place one half = fZero ∧
    triangleWave place one 0x3FEC000000000000 = 0xBFE0000000000000#64 := by decide +kernel
/-- V-G4, V-G5 (f = 440 at t = f64(1)/44100), and 40_generator.md R124's formula under R10 by hand at p = 1.5 * 2^-55, where
2p - 1 is nearest to -(1 - 2^-53) (log entry 20). -/
theorem test_saw_wave : sawWave place one 0x3FC0000000000000 = 0xBFE8000000000000#64 ∧ sawWave place one half = fZero ∧
    sawWave place a440 (fDiv place fOne (fOfNat 44100)) = 0xBFEF5C8811A5ACA4#64 ∧
    sawWave place one 0x3C88000000000000 = 0xBFEFFFFFFFFFFFFF#64 := by decide +kernel
/-- V-G6: f = 0, where SIN64(+0.0) = +0.0. -/
theorem test_waves_at_zero_frequency : sineWave place fZero half = fZero ∧ squareWave place fZero half = fOne ∧
    triangleWave place fZero half = fZero ∧ sawWave place fZero half = fMinusOne := by decide +kernel

/-! ## Biquads -/

/-- 1000.0, and Q, w0, cw, sw of V-B1. -/
def fc1000 : Word := 0x408F400000000000#64
def qB1 : Word := 0x3FE6A09E667F3BCD#64
def w0B1 : Word := 0x3FC23CA61DCC76A2#64
def cwB1 : Word := 0x3FEFACFE8CDED93F#64
def swB1 : Word := 0x3FC22CDEABEC443D#64

/-- V-B1, V-B2: with the sine and cosine V-B1 assumes, the low-pass coefficients. -/
theorem test_lpf_coefficients (hc : cos64 w0B1 = cwB1) (hs : sin64 w0B1 = swB1) :
    bqCoefs place .lpf fc1000 qB1 44100 = some ⟨0x3F72DBA46E18CD80#64, 0x3F82DBA46E18CD80#64, 0x3F72DBA46E18CD80#64,
      0xBFFCC9195111671C#64, 0x3FEA290FC59394A5#64⟩ := by
  unfold bqCoefs bqCw bqAlpha
  rw [show bqW0 place fc1000 44100 = w0B1 by decide +kernel, hc, hs]
  decide +kernel
theorem test_hpf_coefficients (hc : cos64 w0B1 = cwB1) (hs : sin64 w0B1 = swB1) :
    bqCoefs place .hpf fc1000 qB1 44100 = some ⟨0x3FECEED099ED98B8#64, 0xBFFCEED099ED98B8#64, 0x3FECEED099ED98B8#64,
      0xBFFCC9195111671C#64, 0x3FEA290FC59394A5#64⟩ := by
  unfold bqCoefs bqCw bqAlpha
  rw [show bqW0 place fc1000 44100 = w0B1 by decide +kernel, hc, hs]
  decide +kernel
theorem test_bpf_coefficients (hc : cos64 w0B1 = cwB1) (hs : sin64 w0B1 = swB1) :
    bqCoefs place .bpf fc1000 qB1 44100 = some ⟨0x3FB75BC0E9B1AD68#64, 0x0000000000000000#64, 0xBFB75BC0E9B1AD68#64,
      0xBFFCC9195111671C#64, 0x3FEA290FC59394A5#64⟩ := by
  unfold bqCoefs bqCw bqAlpha
  rw [show bqW0 place fc1000 44100 = w0B1 by decide +kernel, hc, hs]
  decide +kernel
theorem test_brf_coefficients (hc : cos64 w0B1 = cwB1) (hs : sin64 w0B1 = swB1) :
    bqCoefs place .brf fc1000 qB1 44100 = some ⟨0x3FED1487E2C9CA52#64, 0xBFFCC9195111671C#64, 0x3FED1487E2C9CA52#64,
      0xBFFCC9195111671C#64, 0x3FEA290FC59394A5#64⟩ := by
  unfold bqCoefs bqCw bqAlpha
  rw [show bqW0 place fc1000 44100 = w0B1 by decide +kernel, hc, hs]
  decide +kernel
theorem test_apf_coefficients (hc : cos64 w0B1 = cwB1) (hs : sin64 w0B1 = swB1) :
    bqCoefs place .apf fc1000 qB1 44100 = some ⟨0x3FEA290FC59394A5#64, 0xBFFCC9195111671C#64, 0x3FF0000000000000#64,
      0xBFFCC9195111671C#64, 0x3FEA290FC59394A5#64⟩ := by
  unfold bqCoefs bqCw bqAlpha
  rw [show bqW0 place fc1000 44100 = w0B1 by decide +kernel, hc, hs]
  decide +kernel
/-- By hand from R142, R145 and R148 (log entry 23): a sine of -1 with Q = 1/4 gives alpha = -2, a0 = -1, c1 = +0.0 / -1. -/
theorem test_bpf_negative_zero (hs : sin64 (bqW0 place fTwo 8#32) = fMinusOne) :
    (bqCoefs place .bpf fTwo 0x3FD0000000000000#64 8#32).map (fun k => k.c1) = some 0x8000000000000000#64 := by
  unfold bqCoefs bqAlpha
  rw [hs]
  decide +kernel
/-- V-B7: the Nyquist check (fc = fs/2) and Q = 0. -/
theorem test_biquad_refused : holds (exec (.bqLpf 0 0) (at8 0x4010000000000000 half 0 0))
    (fun t => statusWord t == 0x10 && (t.stage 0 0).kind == .bypass) = true ∧
    holds (exec (.bqApf 0 0) (at8 two 0 0 0)) (fun t => statusWord t == 0x10) = true := by decide +kernel

/-- A low-pass stage with the coefficients of V-B2. -/
def lpfStage : Stage :=
  { resetStage with
    kind := .lpf, c0 := 0x3F72DBA46E18CD80#64, c1 := 0x3F82DBA46E18CD80#64, c2 := 0x3F72DBA46E18CD80#64,
    c3 := 0xBFFCC9195111671C#64, c4 := 0x3FEA290FC59394A5#64, fsLat := 44100#32 }

/-- V-B3, first two outputs of the LPF row, and V-B4, the second output of a step. -/
theorem test_lpf_impulse : let r := biquadStep place lpfStage one
    r.1 = 0x3F72DBA46E18CD80#64 ∧ r.2.x1 = one ∧ r.2.y1 = 0x3F72DBA46E18CD80#64 ∧
      (biquadStep place r.2 fZero).1 = 0x3F91E92B6D505E64#64 ∧ (biquadStep place r.2 fOne).1 = 0x3F96A01488D691C4#64 := by
  decide +kernel

/-! ## Comb, delay and stage control -/

/-- A comb stage of gain 0.5 on words 0 and 1, its cursor at 1. -/
def combAt1 : Stage := { resetStage with kind := .comb, g := half, n := 2#32, base := 0#32, w := 1#32, fsLat := 8#32 }

/-- V-C2, and the record of 42_comb_delay.md R172. -/
theorem test_comb_fills_with_zero : holds (exec (.comb 0 0) (at8 half 2 0 0))
    (fun t => t.ram == [(0, 0), (1, 0)] && t.stage 0 0 == { combAt1 with w := 0#32 }) = true := by decide
/-- V-C3: g = -1.0; N = 2 at the last word. -/
theorem test_comb_refused : holds (exec (.comb 0 0) (at8 0xBFF0000000000000 2 0 0)) (fun t => statusWord t == 0x10) = true ∧
    holds (exec (.comb 0 0) (at8 half 2 65535 0)) (fun t => statusWord t == 0x10 && t.ram == []) = true := by
  decide
/-- V-C3: N = 1 at the last word. -/
theorem test_delay_last_word : holds (exec (.delay 0 1) (at8 half 1 65535 0))
    (fun t => t.ram == [(65535, 0)] && (t.stage 0 1).kind == .delay) = true := by decide
/-- V-C4: a region of another stage is in the way. -/
theorem test_delay_overlap_refused :
    holds (exec (.delay 1 0) (withStage (at8 half 4 12 0) { combAt1 with n := 4#32, base := 10#32 }))
      (fun t => t.errInfo == 0x7C400000 && (t.stage 1 0).kind == .bypass) = true := by decide
/-- 42_comb_delay.md R173, R174: x = 1, d = 1, g = 0.5; the comb stores 1.5, the delay stores 1, the cursor wraps. -/
theorem test_comb_step_stores_output : (stageStep 0 0 0 one (withStage { State.reset with ram := [(1, one)] } combAt1)).map
    (fun r => (r.1, r.2.ram, (r.2.stage 0 0).w)) = .ok (0x3FF8000000000000, [(1, 0x3FF8000000000000)], 0) := by
  decide +kernel
theorem test_delay_step_stores_input : (stageStep 0 0 0 one (withStage { State.reset with ram := [(1, two)] }
    { combAt1 with kind := .delay })).map (fun r => (r.1, r.2.ram, (r.2.stage 0 0).w)) = .ok (two, [(1, one)], 0) := by
  decide +kernel
/-- V-S1. -/
theorem test_bypass_clears_record : holds (exec (.bypass 0 0) (withStage State.reset lpfStage))
    (fun t => t.stage 0 0 == resetStage) = true := by decide
/-- V-S2. -/
theorem test_clrst_biquad : holds (exec (.clrSt 0 0) (withStage State.reset { lpfStage with x1 := one, y1 := two, y2 := one }))
    (fun t => t.stage 0 0 == lpfStage) = true := by decide
theorem test_clrst_comb : holds (exec (.clrSt 0 0) (withStage { State.reset with ram := [(1, one), (2, one)] } combAt1))
    (fun t => t.ram == [(0, 0), (1, 0), (2, one)] && (t.stage 0 0).w == 0) = true := by decide
/-- V-S3. -/
theorem test_rdcoef_lpf : holds (exec (.rdCoef 0 0) (withStage State.reset lpfStage))
    (fun t => t.p == #v[0x3F72DBA46E18CD80, 0x3F82DBA46E18CD80, 0x3F72DBA46E18CD80, 0xBFFCC9195111671C,
      0x3FEA290FC59394A5, 1, 44100, 0]) = true := by decide
/-- Program 5: P4 = 2, P5 = 100, P6 = 1. -/
theorem test_rdstate_comb : holds (exec (.rdState 0 0) (withStage State.reset { combAt1 with base := 100#32 }))
    (fun t => t.p == #v[0, 0, 0, 0, 2, 100, 1, 0]) = true := by decide

/-! ## Karplus-Strong -/

/-- V-K2, first draw. -/
theorem test_noise_draw : xorshift32 1 = 0x00042021#32 ∧ noiseValue place 0x00042021#32 = 0x3F20808400000000#64 ∧
    noiseValue place 0x9DCCA8C5#32 = 0xBFE88CD5CEC00000#64 := by decide +kernel
/-- V-K1: ties go away from zero. -/
theorem test_ks_length : ksLength place 0x400999999999999A 8 = 3 ∧ ksLength place 0x4018000000000000 8 = 1 ∧
    ksLength place a440 44100 = 100 := by decide +kernel
/-- V-K3, program 3: L = 4 from seed 1. -/
theorem test_ks_builds : holds (exec (.oscKs 0) (at8 two one one 0))
    (fun t => t.noise == 0x1255994F && (t.voice 0) == ⟨.ks, two, one, one, 0, 4, 0, 8⟩ &&
      t.ram == [(0, 0x3F20808400000000), (1, 0x3FA0201804000000), (2, 0xBFE88CD5CEC00000), (3, 0x3FC255994F000000)]) =
    true := by decide +kernel
/-- V-K4: d = 1.5, and NOISE = 0. -/
theorem test_ks_refused : holds (exec (.oscKs 0) (at8 two one 0x3FF8000000000000 0))
    (fun t => statusWord t == 0x10 && t.errInfo == 0x34000000 && t.noise == 1) = true ∧
    holds (exec (.oscKs 0) { at8 two one one 0 with noise := 0 }) (fun t => statusWord t == 0x10 && t.noise == 0) = true := by
  decide +kernel
/-- V-K3: the first string step gives word 0 and writes the fifth output there. -/
theorem test_ks_step : (ksStep 0 0 (withVoice { State.reset with ram := [(0, 0x3F20808400000000), (1, 0x3FA0201804000000)] }
    ⟨.ks, two, one, one, 0, 4, 0, 8⟩)).map (fun r => (r.1, r.2.ram, (r.2.voice 0).ptr)) =
    .ok (0x3F20808400000000, [(0, 0x3F90309888000000), (1, 0x3FA0201804000000)], 1) := by decide +kernel
/-- 44_karplus_strong.md R216 by hand on a buffer (+Inf, 1.0) of decay 0.5: the output is clamp1(+Inf) = 1.0, +Inf is stored
(log entry 22); with the infinity second the output is 1.0 too, and +Inf is stored. -/
theorem test_ks_infinity : (ksStep 0 0 (withVoice { State.reset with ram := [(0, 0x7FF0000000000000), (1, one)] }
    ⟨.ks, two, one, half, 0, 2, 0, 8⟩)).map (fun r => (r.1, r.2.ram)) =
      .ok (one, [(0, 0x7FF0000000000000), (1, one)]) ∧
    (ksStep 0 0 (withVoice { State.reset with ram := [(0, 0x7FF0000000000000), (1, one)] }
    ⟨.ks, two, one, half, 0, 2, 1, 8⟩)).map (fun r => (r.1, r.2.ram)) =
      .ok (one, [(0, 0x7FF0000000000000), (1, 0x7FF0000000000000)]) := by decide +kernel

/-! ## Arithmetic -/

/-- IEEE 754 (log entry 15): 1 - 1 and -1 + 1 are +0.0, -0.0 + -0.0 is -0.0, 0 * -1 and -0.0 / 1 are -0.0, floor(-0.0) = -0.0. -/
theorem test_zero_signs : fSub place fOne fOne = fZero ∧ fAdd place fMinusOne fOne = fZero ∧
    fAdd place 0x8000000000000000 0x8000000000000000 = 0x8000000000000000#64 ∧
    fMul place fZero fMinusOne = 0x8000000000000000#64 ∧ fDiv place 0x8000000000000000 fOne = 0x8000000000000000#64 ∧
    fFloor 0x8000000000000000 = 0x8000000000000000#64 := by decide +kernel

/-! ## Render -/

/-- V-P2: BITS = 32 is accepted, BITS = 33 is not. -/
theorem test_start_bits : holds (exec .start { State.reset with length := 3, bits := 32 })
    (fun t => t.runState == .running && t.runBits == 32 && t.runLength == 3) = true ∧
    holds (exec .start { State.reset with length := 3, bits := 33 })
    (fun t => statusWord t == 0x10 && t.runState == .idle) = true := by decide
/-- V-P4. -/
theorem test_start_length_zero : holds (exec .start State.reset)
    (fun t => t.runState == .done && t.irqPend == 2 && t.stream == []) = true := by decide
/-- V-P1. -/
theorem test_quantize : quantize place 0x3EF0000000000000#64 16 = 1 ∧ quantize place 0xBEF0000000000000#64 16 = -1 ∧
    quantize place 0x3EE0000000000000#64 16 = 0 ∧ quantize place qB1 32 = 1518500250 ∧
    quantize place 0xC01E000000000000#64 2 = -2 := by decide +kernel
/-- Program 1, its last two samples (i = 6, 7): two words of -32768, then DONE. -/
theorem test_step_ends_render :
    holds (exec (.step 9) (withVoice { running 8 with sampleIdx := 6 } ⟨.square, one, one, 0, 0, 0, 0, 0⟩))
      (fun t => t.stream == [0xFFFF8000, 0xFFFF8000] && statusWord t == 2 && t.sampleIdx == 8 &&
        t.pcmLast == 0xFFFFFFFFFFFF8000 && t.irqPend == 2) = true := by decide +kernel
/-- 60_exceptions.md R320 with 45_pipeline.md R262: the last STEP of a render sets PEND_DONE, and the line rises when the sink
has taken the last word, which is when the STEP completes. -/
theorem test_irq_waits_for_step :
    holds (exec (.step 1) (withVoice { running 8 with sampleIdx := 7, irqEn := 2 } ⟨.square, one, one, 0, 0, 0, 0, 0⟩))
      (fun t => t.irqPend == 2 && irqLine t == false &&
        holds (step { t with sinkScript := [false] }) (fun u => irqLine u == false) &&
        holds (step t) (fun u => u.stream == [] && irqLine u == true)) = true := by decide +kernel
/-- 43_stage_control.md R194 by hand: the square's 1.0 through stage 0, a delay (0.5, word 1.0): 1.5; then stage 1, a comb
(0.5, word 2.0): 2.5. The delay stores its input, the comb its output. -/
theorem test_stages_in_order :
    (mixSample (((withVoice { running 8 with ram := [(0, one), (1, two)] } ⟨.square, one, one, 0, 0, 0, 0, 0⟩).setStage 0 0
        { resetStage with kind := .delay, g := half, n := 1#32, base := 0#32, fsLat := 8#32 }).setStage 0 1
        { resetStage with kind := .comb, g := half, n := 1#32, base := 1#32, fsLat := 8#32 })).map
      (fun r => (r.1, r.2.ram)) = .ok (0x4004000000000000, [(0, one), (1, 0x4004000000000000)]) := by decide +kernel
/-- V-P5: two voices of gain 1e308. -/
theorem test_step_overflow :
    holds (exec (.step 2) ((withVoice (running 2) ⟨.square, one, 0x7FE1CCF385EBC8A0#64, 0, 0, 0, 0, 0⟩).setVoice 1
      ⟨.square, one, 0x7FE1CCF385EBC8A0#64, 0, 0, 0, 0, 0⟩))
      (fun t => t.stream == [] && statusWord t == 0x33 && t.errInfo == 0x0C000002 && t.irqPend == 5 && t.sampleIdx == 0) =
    true := by decide +kernel

/-! ## The host port and errors -/

/-- V-X1: a second error sets ERR_OVF; writing 1 to IRQ_PEND clears the record. -/
theorem test_second_error : holds (writeRegister 2 0x18000000 { State.reset with err := some .stateError, errInfo := 0x0C000001 })
    (fun t => statusWord t == 0x150 && t.errInfo == 0x0C000001) = true := by decide
theorem test_acknowledge : holds (writeRegister 6 1 { State.reset with err := some .stateError, errOvf := true, irqPend := 3 })
    (fun t => statusWord t == 0 && t.irqPend == 2) = true := by decide
theorem test_reads_after_reset : readRegister 7 State.reset = 44100 ∧ readRegister 8 State.reset = 16 ∧
    readRegister 9 State.reset = one ∧ readRegister 11 State.reset = 1 ∧ readRegister 14 State.reset = 0 := by decide
theorem test_step_takes_command : holds (step (State.reset.withFetchWord 32 0x08000000)) (fun t => t.runState == .done) = true := by
  decide
theorem test_sink_holds_port : holds (step { State.reset with stream := [5], sinkScript := [false], hostQueue := [.write 2 0x04000000] })
    (fun t => t.stream == [5] && t.hostQueue == [.write 2 0x04000000] && t.sinkScript == []) = true := by decide

/-! ## Witnesses: states and operands that meet the statements' hypotheses, each clause at a boundary of its range -/

/-! ### Encoding, port, reset -/

theorem test_witness_decode_of_encode : WellFormed (.comb 7 1) ∧ WellFormed (.step 0xFFFFF) ∧ WellFormed (.oscKs 7) := by
  decide
theorem test_witness_decoded_write : decode 0x79D00000 = .ok (.comb 7 1) := by decide
/-- One illegal write for each clause of 30_encoding.md R97, and the last legal indices. -/
theorem test_witness_illegal_write : illegalWrite 0x0000000108000000 ∧ illegalWrite 0x18000000 ∧ illegalWrite 0x1C000000 ∧
    illegalWrite 0x44000000 ∧ illegalWrite 0x5C000000 ∧ illegalWrite 0x8C000000 ∧ illegalWrite 0xFC000000 ∧
    illegalWrite 0x00000001 ∧ illegalWrite 0x24000001 ∧ illegalWrite 0x26000000 ∧ illegalWrite 0x64200000 ∧
    illegalWrite 0x0C400000 ∧ ¬ illegalWrite 0x89D00000 ∧ ¬ illegalWrite 0x41C00000 ∧ ¬ illegalWrite 0x0C0FFFFF := by
  unfold illegalWrite
  refine ⟨?_, ?_, ?_, ?_, ?_, ?_, ?_, ?_, ?_, ?_, ?_, ?_, ?_, ?_, ?_⟩ <;> (dsimp only; decide)
/-- A block whose next transaction is the START command. -/
def startNext : State := { State.reset with hostQueue := [.write 2#9 0x08000000], resetPin := [false] }
theorem test_witness_step_runs_command : startNext.resetPin.head?.getD false = false ∧ startNext.stream = [] ∧
    startNext.hostQueue = .write 2#9 0x08000000 :: [] ∧ decode 0x08000000 = .ok .start ∧
    decodeTableWord 32 0x08000000 = some .start := by decide
/-- The reserved offsets at the ends of their ranges (10_state.md R37), and a pending read of FS. -/
theorem test_witness_host_read : (∀ off ∈ [14#9, 15#9, 24#9, 511#9], off = 14#9 ∨ off = 15#9 ∨ 24 ≤ off.toNat) ∧
    ({ State.reset with hostQueue := [.read 7#9] }).hostQueue = .read 7#9 :: [] ∧
    State.reset.resetPin.head?.getD false = false ∧ State.reset.stream = [] := by decide
theorem test_witness_host_write : ∀ off ∈ [0#9, 1#9, 3#9, 4#9, 12#9, 15#9, 24#9, 511#9],
    off.toNat ≤ 1 ∨ off = 3#9 ∨ off = 4#9 ∨ (12 ≤ off.toNat ∧ off.toNat ≤ 15) ∨ 24 ≤ off.toNat := by decide
/-- A pending write to FS, a pending write to CMD that does not decode, and no transaction at all. -/
theorem test_witness_write_step : ∀ q ∈ [[HostTxn.write 7#9 48000], [.write 2#9 0x18000000], []],
    ({ State.reset with hostQueue := q }).resetPin.head?.getD false = false ∧ ({ State.reset with hostQueue := q }).stream = [] ∧
      ({ State.reset with hostQueue := q }).hostQueue = q := by decide
theorem test_witness_irq_pend : (1#64).getLsbD 0 = true ∧ (6#64).getLsbD 0 = false := by decide
theorem test_witness_reset : ∃ s t u v : State, t = softReset s ∧ u = powerOnReset s ∧ v = State.reset :=
  ⟨running 3, _, _, _, rfl, rfl, rfl⟩
theorem test_witness_reset_input : ({ State.reset with resetPin := [true, false] }).resetPin = true :: [false] := rfl
/-- A block with one word in its stream, and a sink that refuses once and then takes it. -/
def oneWord : State := { State.reset with stream := [5], sinkScript := [false] }
theorem test_witness_stream : oneWord.resetPin.head?.getD false = false ∧ oneWord.stream ≠ [] ∧ sinkReady oneWord = false ∧
    sinkReady { oneWord with sinkScript := [] } = true ∧ oneWord.resetPin = [] ∧ oneWord.sinkRest = true := by decide
/-- A command that is no STEP, a STEP that leaves a word in the stream, a stalled block and one whose last word is taken. -/
theorem test_witness_irq : (∃ t, exec .nop State.reset = .next t) ∧ (∀ n, Instr.nop ≠ .step n) ∧
    (∃ t, exec (.step 1) (running 3) = .next t ∧ t.stream ≠ []) ∧
    (∃ t, step oneWord = .next t ∧ t.stream ≠ []) ∧ ∃ t, step { oneWord with sinkScript := [] } = .next t ∧ t.stream = [] := by
  obtain ⟨t, h1, h2⟩ := exists_of_holds (r := exec (.step 1) (running 3)) (f := fun t => decide (t.stream ≠ [])) (by decide +kernel)
  exact ⟨⟨_, rfl⟩, by intro n; simp, ⟨t, h1, by simpa using h2⟩, ⟨_, rfl, by decide⟩, _, rfl, by decide⟩

/-! ### Errors -/

/-- A block that holds a StateError. -/
def errored : State := { State.reset with err := some .stateError, errInfo := 0x0C000001, irqPend := 1 }
theorem test_witness_first_error : State.reset.err = none ∧ errored.err = some .stateError := by decide
/-- A refused command, an accepted one, and STEP outside RUNNING. -/
theorem test_witness_precise : (∃ t, exec .ramrd (withArgs 0 65536 0 0) = .next t) ∧
    (∃ t, exec .ramrd (withArgs 0 65535 0 0) = .next t) ∧ Instr.ramrd ≠ .srst ∧ (∀ n, Instr.ramrd ≠ .step n) ∧
    (∃ t, exec (.step 1) State.reset = .next t) ∧ Instr.step 1 ≠ .srst ∧ State.reset.runState ≠ .running :=
  ⟨⟨_, rfl⟩, ⟨_, rfl⟩, by decide, by intro n; simp, ⟨_, rfl⟩, by decide, by decide⟩
theorem test_witness_listed_errors : (∃ t, issueCommand 0x18000000 State.reset = .next t ∧ t.err = some .illegalCommand) ∧
    (∃ t, issueCommand 0x0C000001 State.reset = .next t ∧ t.err = some .stateError) ∧ State.reset.err = none :=
  ⟨⟨_, rfl, by decide⟩, ⟨_, rfl, by decide⟩, by decide⟩

/-! ### The invariant: a block RUNNING with an oscillator, a string, a comb filter and a biquad -/

/-- Voice 0 a square through a low-pass and a comb on the last RAM word, voice 1 a string on words 0 and 1. -/
def busy : State :=
  { ((((running 3).setVoice 0 ⟨.square, one, one, 0, 0, 0, 0, 0⟩).setVoice 1 ⟨.ks, two, one, one, 0, 2, 1, 8⟩).setStage 0 0
      { lpfStage with fsLat := 8#32 }).setStage 0 1 { combAt1 with n := 1#32, base := 65535#32, w := 0#32 } with
    sampleIdx := 2
    ram := [(0, half), (1, one), (65535, 0)]
    hostQueue := [.write 2#9 0x0C000001] }

theorem busy_regions (u : UnitId) : ownedRegion busy u =
    if u = .voice 1 then some (0, 2) else if u = .stage 0 1 then some (65535, 1) else none := by
  cases u with
  | voice v => revert v; decide
  | stage v st => revert v st; decide

/-- The low-pass and the comb of `busy`. -/
def busyLpf : Stage := { lpfStage with fsLat := 8#32 }
def busyComb : Stage := { combAt1 with n := 1#32, base := 65535#32, w := 0#32 }

theorem busy_stages (v : Fin Config.NV) (st : Fin Config.NS) : busy.stage v st =
    if v = 0 ∧ st = 0 then busyLpf else if v = 0 ∧ st = 1 then busyComb else resetStage := by revert v st; decide

theorem test_busy_invariant : Inv busy where
  memory := by decide
  voices := by decide
  stages := by
    intro v st
    rw [busy_stages]
    split
    · show coefsFinite ⟨busyLpf.c0, busyLpf.c1, busyLpf.c2, busyLpf.c3, busyLpf.c4⟩ = true ∧ busyLpf.g = fZero ∧
        busyLpf.n = 0 ∧ busyLpf.base = 0 ∧ busyLpf.w = 0 ∧ busyLpf.fsLat ≠ 0
      decide
    · split
      · exact ⟨by decide, by decide, by decide, by decide, by decide, by decide, by decide, by decide⟩
      · rfl
  regions := by
    intro u1 u2 hne b1 n1 b2 n2 h1 h2
    rw [busy_regions] at h1 h2
    split at h1 <;> split at h2 <;> simp_all <;> omega
  errorRecord := by decide
  renderParams := by decide
  sampleIndex := show busy.sampleIdx.toNat < busy.runLength.toNat by decide
  pcmLast := by decide
theorem test_witness_invariant_step : Inv { busy with hostQueue := [.read 3#9] } ∧
    ∃ t, step { busy with hostQueue := [.read 3#9] } = .next t := by
  have h := test_busy_invariant
  exact ⟨⟨h.1, h.2, h.3, h.4, h.5, h.6, h.7, h.8⟩, _, rfl⟩
theorem test_witness_running_step : Inv busy ∧ busy.runState = .running := ⟨test_busy_invariant, by decide⟩

/-! ### Sample RAM, voices -/

theorem test_witness_ram_access : (withArgs 0 65535 0 0).p[1].toNat < 65536 ∧ 65536 ≤ (withArgs 0 65536 0 0).p[1].toNat := by
  decide
theorem test_witness_voice_index : (7#4).toNat < Config.NV ∧ (0#4).toNat < Config.NV ∧ (1#2).toNat < Config.NS := by decide
/-- f = -0.0 passes (V-G7); the least negative f, and g = +Inf, do not. -/
theorem test_witness_oscillator :
    (isFinite (withArgs 0x8000000000000000 huge 0 0).p[0] = true ∧ fLe fZero (withArgs 0x8000000000000000 huge 0 0).p[0] = true ∧
      isFinite (withArgs 0x8000000000000000 huge 0 0).p[1] = true) ∧
    ¬ (isFinite (withArgs 0x8000000000000001 one 0 0).p[0] = true ∧ fLe fZero (withArgs 0x8000000000000001 one 0 0).p[0] = true ∧
      isFinite (withArgs 0x8000000000000001 one 0 0).p[1] = true) ∧
    ¬ (isFinite (withArgs one 0x7FF0000000000000 0 0).p[0] = true ∧ fLe fZero (withArgs one 0x7FF0000000000000 0 0).p[0] = true ∧
      isFinite (withArgs one 0x7FF0000000000000 0 0).p[1] = true) := by decide
/-- SETFREQ on an off voice, on a string, and on an oscillator with a good and a bad frequency. -/
theorem test_witness_setfreq : State.reset.voices[0].kind = .off ∧ busy.voices[1].kind = .ks ∧
    (busy.voices[0].kind ≠ .off ∧ busy.voices[0].kind ≠ .ks) ∧
    (isFinite fZero = true ∧ fLe fZero fZero = true) ∧ ¬ (isFinite nan = true ∧ fLe fZero nan = true) := by decide
theorem test_witness_setgain : isFinite (withArgs huge 0 0 0).p[0] = true ∧ isFinite (withArgs nan 0 0 0).p[0] = false := by
  decide
/-- V-G10: 1e308 * 1 is finite, 1e308 * 2 is not. -/
theorem test_witness_phase : let f : F64 := 0x7FE1CCF385EBC8A0#64
    isFinite f = true ∧ fLe fZero f = true ∧ isFinite fOne = true ∧ fLe fZero fOne = true ∧ isFinite fTwo = true ∧
      fLe fZero fTwo = true ∧ isFinite (fMul place f fOne) = true ∧ isFinite (fMul place f fTwo) = false := by decide +kernel

/-! ### Filter stages -/

/-- The least positive number, for which w0 underflows to +0.0 at FS = 2^32 - 1. -/
def tiny : Word := 0x0000000000000001#64
/-- At fc = 2^-1074 and FS = 2^32 - 1, w0 = +0.0, where R15 fixes the sine and the cosine: all five constructions pass. -/
theorem test_witness_biquad_built : (0xFFFFFFFF#32 : BitVec 32) ≠ 0 ∧ isFinite tiny = true ∧ fLt fZero tiny = true ∧
    fLt tiny (fDiv place (fOfNat (0xFFFFFFFF#32 : BitVec 32).toNat) fTwo) = true ∧ isFinite fOne = true ∧ fLt fZero fOne = true ∧
    ∀ k ∈ [StageKind.lpf, .hpf, .bpf, .brf, .apf],
      (bqCoefs place k tiny fOne 0xFFFFFFFF#32).map coefsFinite = some true := by decide +kernel
/-- With a sine unit that gives 1 at w0 (V-B6 and V-B7: fc = 2, FS = 8), Q = 2^-1074 makes alpha overflow: c0 of the
all-pass is the quotient of two infinities. -/
theorem test_witness_biquad_overflow (hs : sin64 (bqW0 place fTwo 8#32) = fOne) :
    isFinite tiny = true ∧ fLt fZero tiny = true ∧ fLt fTwo (fDiv place (fOfNat (8#32 : BitVec 32).toNat) fTwo) = true ∧
      (bqCoefs place .apf fTwo tiny 8#32).map (fun k => isFinite k.c0) = some false := by
  refine ⟨by decide, by decide, by decide +kernel, ?_⟩
  unfold bqCoefs bqAlpha
  rw [hs]
  have ha : fDiv place fOne (fMul place fTwo tiny) = 0x7FF0000000000000#64 := by decide +kernel
  have hn : fDiv place (fSub place fOne 0x7FF0000000000000#64) (fAdd place fOne 0x7FF0000000000000#64) =
      nanAt place .div 0xFFF0000000000000#64 0x7FF0000000000000#64 := by rfl
  rw [ha]
  show some (isFinite (fDiv place (fSub place fOne _) _)) = _
  rw [hn]
  have := isNaN_nanFrom (Config.nanBits ⟨place, .div, 0xFFF0000000000000#64, 0x7FF0000000000000#64⟩)
  cases hf : isFinite (nanAt place .div 0xFFF0000000000000#64 0x7FF0000000000000#64) with
  | false => rfl
  | true => rw [nanAt] at hf; rw [isNaN_of_finite hf] at this; cases this
/-- Each reason to refuse a biquad (V-B7). -/
theorem test_witness_biquad_refused : ({ State.reset with fs := 0 }).fs = 0 ∧ isFinite (at8 nan one 0 0).p[0] = false ∧
    fLt fZero (at8 0 one 0 0).p[0] = false ∧
    fLt (at8 0x4010000000000000 half 0 0).p[0] (fDiv place (fOfNat (8#32 : BitVec 32).toNat) fTwo) = false ∧
    isFinite (at8 two 0x7FF0000000000000 0 0).p[1] = false ∧ fLt fZero (at8 two 0x8000000000000000 0 0).p[1] = false := by
  decide +kernel
/-- COMB on voice 0, stage 0 of `busy`, between the string's two words and the comb's last one; g just below 1. -/
theorem test_witness_comb : let s := { busy with p := (withArgs 0x3FEFFFFFFFFFFFFF 65533 2 0).p, fs := 8#32 }
    s.fs ≠ 0 ∧ isFinite s.p[0] = true ∧ fLt (fAbs s.p[0]) fOne = true ∧
      (1 ≤ s.p[1].toNat ∧ s.p[2].toNat < 65536 ∧ s.p[1].toNat ≤ 65536 - s.p[2].toNat) ∧
      ∀ u b2 n2, u ≠ UnitId.stage 0 0 → ownedRegion s u = some (b2, n2) →
        s.p[2].toNat + s.p[1].toNat ≤ b2 ∨ b2 + n2 ≤ s.p[2].toNat :=
  ⟨by decide, by decide, by decide, by decide, ((regionOK_iff 2 65533 (.stage 0 0) _).mp (by decide)).2.2.2⟩
/-- g = 1, and N = 0, are refused (V-C3). -/
theorem test_witness_comb_refused : ¬ fLt (fAbs one) fOne = true ∧ ¬ (1 ≤ (0#64 : Word).toNat) := by decide
/-- A bypassed stage, a biquad, and a comb that ends at the last RAM word. -/
theorem test_witness_clrst : busy.stages[2][0].kind = .bypass ∧
    busy.stages[0][0].kind ∈ [StageKind.lpf, .hpf, .bpf, .brf, .apf] ∧
    busy.stages[0][1].kind ∈ [StageKind.comb, .delay] ∧
    busy.stages[0][1].base.toNat + busy.stages[0][1].n.toNat ≤ 65536 := by decide
/-- The four cases of a stage step, the cursor of the comb and of a delay at the last RAM word. -/
theorem test_witness_stage_step : busy.stages[2][0].kind = .bypass ∧
    busy.stages[0][0].kind ∈ [StageKind.lpf, .hpf, .bpf, .brf, .apf] ∧
    busy.stages[0][1].kind = .comb ∧ (busy.stages[0][1].base + busy.stages[0][1].w).toNat < 65536 ∧
    ({ combAt1 with kind := .delay, base := 65534#32 } : Stage).kind = .delay ∧
    ({ combAt1 with kind := .delay, base := 65534#32 } : Stage).base + combAt1.w = 65535#32 := by decide

/-! ### Karplus-Strong -/

/-- V-K1 at FS = 8: f = 4 gives the shortest buffer, 2 words, here the last two of the RAM beside a comb; d = 1. -/
def pluck : State := { withStage (at8 0x4010000000000000 one one 65534) combAt1 with noise := 0xFFFFFFFF#32 }
theorem test_witness_string : let s := pluck
    let ratio := fDiv (commandPlace s) (fOfNat s.fs.toNat) s.p[0]
    let len := (roundHalfAway ratio).toNat
    s.fs ≠ 0 ∧ (isFinite s.p[0] = true ∧ fLt fZero s.p[0] = true) ∧ isFinite s.p[1] = true ∧
      (isFinite s.p[2] = true ∧ fLe fZero s.p[2] = true ∧ fLe s.p[2] fOne = true) ∧ isFinite ratio = true ∧
      2 ≤ roundHalfAway ratio ∧ (s.p[3].toNat < 65536 ∧ len ≤ 65536 - s.p[3].toNat) ∧
      (∀ u b2 n2, u ≠ UnitId.voice 0 → ownedRegion s u = some (b2, n2) → s.p[3].toNat + len ≤ b2 ∨ b2 + n2 ≤ s.p[3].toNat) ∧
      s.noise ≠ 0 :=
  ⟨by decide, by decide, by decide, by decide, by decide +kernel, by decide +kernel, by decide +kernel,
    ((regionOK_iff pluck.p[3].toNat _ (.voice 0) pluck).mp (by decide +kernel)).2.2.2, by decide⟩
/-- V-K1, V-K4: f = 6 gives L = 1; NOISE = 0. -/
theorem test_witness_string_refused :
    ¬ (2 ≤ roundHalfAway (fDiv place (fOfNat (8#32 : BitVec 32).toNat) 0x4018000000000000#64)) ∧
      ¬ (({ at8 two one one 0 with noise := 0 }).noise ≠ 0) := by decide +kernel
/-- The string of `busy`, its cursor at its last word. -/
theorem test_witness_string_step : let vo := busy.voices[1]
    (vo.base + vo.ptr).toNat < 65536 ∧ (vo.base + (if vo.ptr + 1 = vo.len then 0 else vo.ptr + 1)).toNat < 65536 := by decide
theorem test_witness_string_range : isFinite fOne = true ∧ fLe fZero fOne = true ∧ fLe fOne fOne = true ∧
    fLe fZero 0x8000000000000000#64 = true ∧ inUnitRange fOne = true ∧ inUnitRange fMinusOne = true := by decide

/-! ### The pipeline and arithmetic -/

/-- A state that passes START's checks with units configured, at both ends of BITS, and states that do not (V-P2). -/
theorem test_witness_start :
    (∀ bits ∈ [2#8, 32#8], renderOK { busy with fs := 8#32, bits := bits, length := 1 } = true) ∧
    renderOK { busy with fs := 8#32, length := 0 } = true ∧
    (∀ bits ∈ [1#8, 33#8], renderOK { busy with fs := 8#32, bits := bits } = false) ∧
    renderOK { busy with fs := 16#32 } = false ∧ renderOK { State.reset with headroom := 0 } = false ∧
    renderOK { State.reset with fs := 0 } = false := by decide
theorem test_witness_step_states : State.reset.runState = .idle ∧ ({ busy with runState := .aborted }).runState = .aborted ∧
    ({ busy with runState := .done }).runState = .done ∧ busy.runState = .running := by decide
/-- Two requests of one sample each on a render of three samples. -/
theorem test_witness_steps_add : ∃ t u, (1#20).toNat + (1#20).toNat < 2 ^ 20 ∧ (running 3).runState = .running ∧
    exec (.step 1) (running 3) = .next t ∧ exec (.step 1) t = .next u ∧ u.runState = .running := by
  obtain ⟨t, h1, h2⟩ := exists_of_holds (r := exec (.step 1) (running 3))
    (f := fun t => holds (exec (.step 1) t) fun u => u.runState == .running) (by decide +kernel)
  obtain ⟨u, h3, h4⟩ := exists_of_holds h2
  exact ⟨t, u, by decide, by decide, h1, h3, by simpa using h4⟩
/-- A finite mix, and the mix of V-P5's shape: 1.0 times the largest number, divided by 0.5. -/
theorem test_witness_sample_step : (running 3).runState = .running ∧ (∃ m u, mixSample (running 3) = .ok (m, u) ∧ isFinite m = true) ∧
    ∃ m u, mixSample (withVoice { running 3 with runHeadroom := half } ⟨.square, one, huge, 0, 0, 0, 0, 0⟩) = .ok (m, u) ∧
      isFinite m = false := by
  have pick : ∀ {e : Except Fault (F64 × State)} {b : Bool},
      (match e with | .ok r => isFinite r.1 == b | .error _ => false) = true → ∃ m u, e = .ok (m, u) ∧ isFinite m = b := by
    intro e b h
    cases e with
    | error f => cases h
    | ok r => exact ⟨r.1, r.2, rfl, by simpa using h⟩
  exact ⟨rfl, pick (by decide +kernel), pick (by decide +kernel)⟩
/-- Program 6's two voices. -/
def program6 : State :=
  (withVoice (running 8) ⟨.sine, one, one, 0, 0, 0, 0, 0⟩).setVoice 3 ⟨.sawtooth, one, half, 0, 0, 0, 0, 0⟩
theorem test_witness_mix : (∀ v : Fin Config.NV, program6.voices[v.val].kind ≠ .ks) ∧
    ∀ (v : Fin Config.NV) (st : Fin Config.NS), program6.stages[v.val][st.val].kind = .bypass := by decide
theorem test_witness_quantizer : isFinite huge = true ∧ isFinite fMinusOne = true ∧ fLe fMinusOne huge = true ∧
    inUnitRange fMinusOne = true ∧ inUnitRange fOne = true ∧ 2 ≤ 2 ∧ 32 ≤ 32 := by decide
theorem test_witness_arithmetic : isFinite huge = true ∧ isFinite 0x8000000000000001#64 = true ∧
    isZero 0x8000000000000001#64 = false ∧ isNaN nan = true ∧ isNaN huge = false ∧ fLt fOne huge = true ∧
    fLt 0xFFEFFFFFFFFFFFFF#64 fMinusOne = true ∧ inUnitRange 0x8000000000000000#64 = true := by decide
/-- Exact zero sums and differences, of zeros and of other numbers. -/
theorem test_witness_zero_sums : realValue fOne + realValue fMinusOne = 0 ∧ realValue fOne - realValue fOne = 0 ∧
    realValue fZero + realValue fZero = 0 ∧ isFinite fOne = true ∧ isFinite fMinusOne = true ∧ isFinite fZero = true := by
  refine ⟨by simp, by simp, by simp, by decide, by decide, by decide⟩
/-- +Inf, -Inf, -0.0 and numbers, for the special operands. -/
theorem test_witness_special_operands : isInf 0x7FF0000000000000#64 = true ∧ isNaN 0x7FF0000000000000#64 = false ∧
    isInf 0xFFF0000000000000#64 = true ∧ isNaN 0xFFF0000000000000#64 = false ∧ isInf huge = false ∧ isNaN huge = false ∧
    isInf fZero = false ∧ isNaN fZero = false ∧ isZero fZero = true ∧ isZero 0x8000000000000000#64 = true := by decide

end Sys2Proof.Tests
end

section
/-! PROOFS of the statements of 00_scope.md (R10, R11, R15): the four operations round once, floor and the comparisons are
exact, the special operands, clamp1, and the bounds of SIN64 and COS64. -/

namespace Sys2Proof.Machine

/-! ### Zeros -/

theorem isFinite_pack_zero (neg : Bool) : isFinite (pack neg 0) = true := by
  rw [isFinite_iff, magBits_pack _ (by norm_num)]; norm_num [infBits]

theorem realValue_pack_zero (neg : Bool) : realValue (pack neg 0) = 0 :=
  realValue_zero (by rw [signedUnits_pack _ (by norm_num), unitsOfMag_zero, Nat.cast_zero, neg_zero, ite_self])

theorem signBit_pack_zero (neg : Bool) : signBit (pack neg 0) = neg := signBit_pack neg (by norm_num)

/-! ### Addition and subtraction of finite numbers -/

/-- The one rounding at a signed whole number of units. -/
theorem roundUnits_int_roundsTo (n : Int) :
    roundsTo (roundUnits (decide (n < 0)) n.natAbs 1) ((n : ℚ) / unitsPerOne) := by
  have h := roundUnits_roundsTo (decide (n < 0)) n.natAbs (q := 1) Nat.one_pos
  have e : (if decide (n < 0) = true then (-1 : ℚ) else 1) * (((n.natAbs : ℕ) : ℚ) / (1 : ℕ) / unitsPerOne) =
      (n : ℚ) / unitsPerOne := by
    generalize (unitsPerOne : ℚ) = U
    rw [Nat.cast_one, div_one, Nat.cast_natAbs, Int.cast_abs]
    by_cases hn : n < 0
    · rw [abs_of_neg (by exact_mod_cast hn)]; simp [hn, neg_div]
    · rw [abs_of_nonneg (by exact_mod_cast not_lt.mp hn)]; simp [hn]
  rwa [e] at h

theorem realValue_add (a b : F64) :
    realValue a + realValue b = ((signedUnits a + signedUnits b : Int) : ℚ) / unitsPerOne := by
  unfold realValue; rw [Int.cast_add, add_div]

theorem realValue_add_eq_zero_iff (a b : F64) : realValue a + realValue b = 0 ↔ signedUnits a + signedUnits b = 0 := by
  rw [realValue_add, div_eq_zero_iff, or_iff_left unitsPerOne_posQ.ne', Int.cast_eq_zero]

section Finite
variable {c : Config.At} {a b : F64} (ha : isFinite a = true) (hb : isFinite b = true)
include ha hb

/-- An exact zero sum is a zero, negative when both operands are (log entry 15). -/
theorem fAdd_of_sum_zero (h : realValue a + realValue b = 0) : fAdd c a b = pack (signBit a && signBit b) 0 := by
  rw [fAdd_of_finite ha hb, if_pos ((realValue_add_eq_zero_iff a b).mp h)]

theorem fAdd_roundsTo : roundsTo (fAdd c a b) (realValue a + realValue b) := by
  by_cases h : realValue a + realValue b = 0
  · have hr := roundsTo_self (isNaN_of_finite (isFinite_pack_zero (signBit a && signBit b)))
    rwa [realValue_pack_zero, ← fAdd_of_sum_zero ha hb h, ← h] at hr
  · rw [fAdd_of_finite ha hb, if_neg (mt (realValue_add_eq_zero_iff a b).mpr h), realValue_add]
    exact roundUnits_int_roundsTo _

/-- Subtraction adds the negated operand, so it inherits the rounding. -/
theorem fSub_roundsTo : roundsTo (fSub c a b) (realValue a - realValue b) := by
  rw [fSub_of_finite ha hb, sub_eq_add_neg, ← realValue_fNeg]
  exact fAdd_roundsTo ha (by rwa [isFinite_fNeg])

theorem fSub_of_difference_zero (h : realValue a - realValue b = 0) : fSub c a b = pack (signBit a && !signBit b) 0 := by
  rw [fSub_of_finite ha hb, fAdd_of_sum_zero ha (by rwa [isFinite_fNeg]) (by rwa [realValue_fNeg, ← sub_eq_add_neg]),
    signBit_fNeg]

/-! ### Multiplication and division of finite numbers -/

theorem fMul_roundsTo : roundsTo (fMul c a b) (realValue a * realValue b) := by
  have h := roundUnits_roundsTo (signXor a b) (units a * units b) unitsPerOne_pos
  rw [fMul_of_finite ha hb, realValue_units a, realValue_units b]
  rw [sign_signXor] at h
  convert h using 1
  generalize unitsPerOne = U
  push_cast
  ring

theorem fDiv_roundsTo (hz : isZero b = false) : roundsTo (fDiv c a b) (realValue a / realValue b) := by
  have h := roundUnits_roundsTo (signXor a b) (units a * unitsPerOne) (units_pos_of_nonzero hz)
  have hU := unitsPerOne_posQ.ne'
  have sign_inv : (if signBit b then (-1 : ℚ) else 1)⁻¹ = if signBit b then -1 else 1 := by split <;> norm_num
  rw [fDiv_of_finite ha hb hz, realValue_units a, realValue_units b, mul_div_mul_comm, div_div_div_cancel_right₀ hU,
    div_eq_mul_inv (if signBit a = true then (-1 : ℚ) else 1), sign_inv]
  rw [sign_signXor, Nat.cast_mul, div_right_comm, mul_div_assoc, div_self hU, mul_one] at h
  exact h

theorem signBit_fMul : signBit (fMul c a b) = (signBit a != signBit b) := by
  rw [fMul_of_finite ha hb, signBit_roundUnits, signXor]

theorem signBit_fDiv (hz : isZero b = false) : signBit (fDiv c a b) = (signBit a != signBit b) := by
  rw [fDiv_of_finite ha hb hz, signBit_roundUnits, signXor]

end Finite

/-- Settles O57: each operation is one rounding of the exact result, and a zero sum is the zero IEEE 754 gives. -/
theorem arithmeticRoundsToNearestEven : Obligations.ArithmeticRoundsToNearestEven := by
  intro c a b ha hb
  refine ⟨fAdd_roundsTo ha hb, fSub_roundsTo ha hb, fMul_roundsTo ha hb, fDiv_roundsTo ha hb, fun h => ?_, fun h => ?_,
    signBit_fMul ha hb, signBit_fDiv ha hb⟩
  · rw [fAdd_of_sum_zero ha hb h]; exact ⟨isZero_pack_zero _, signBit_pack_zero _⟩
  · rw [fSub_of_difference_zero ha hb h]; exact ⟨isZero_pack_zero _, signBit_pack_zero _⟩

/-! ### Floor and the conversions -/

theorem fFloor_of_not_finite {x : F64} (h : isFinite x = false) : fFloor x = x := if_pos h

theorem fFloor_of_finite {x : F64} (h : isFinite x = true) :
    fFloor x = if floorInt x = 0 then pack (signBit x) 0 else fOfInt (floorInt x) := by
  unfold fFloor; rw [h, if_neg (by decide)]

theorem signBit_fOfInt (n : Int) : signBit (fOfInt n) = decide (n < 0) := signBit_roundUnits ..

theorem signBit_fOfNat (n : Nat) : signBit (fOfNat n) = false := signBit_roundUnits ..

/-- The floor is a number itself, so the conversion does not round. -/
theorem realValue_fFloor {x : F64} (hx : isFinite x = true) : realValue (fFloor x) = (⌊realValue x⌋ : ℚ) := by
  rw [fFloor_of_finite hx, ← floorInt_eq_floor]
  split
  next h => rw [realValue_pack_zero, h, Int.cast_zero]
  next =>
    obtain ⟨z, hz, hv⟩ := number_floor hx
    exact roundsTo_exact (fOfInt_roundsTo _) (isNaN_of_finite hz) hv

theorem isFinite_fFloor {x : F64} (hx : isFinite x = true) : isFinite (fFloor x) = true := by
  have hv := realValue_fFloor hx
  rw [fFloor_of_finite hx] at hv ⊢
  split at hv
  next h => rw [if_pos h]; exact isFinite_pack_zero _
  next h =>
    obtain ⟨z, hz, hzv⟩ := number_floor hx
    rw [if_neg h, isFinite_iff_abs_lt (fOfInt_roundsTo _).1, hv, ← floorInt_eq_floor, ← hzv]
    exact abs_realValue_lt_of_finite hz

/-- A floor that is not 0 is negative exactly when the argument's sign bit is set. -/
theorem floorInt_neg_iff {x : F64} (h : floorInt x ≠ 0) : floorInt x < 0 ↔ signBit x = true := by
  have hm : (0 : ℚ) ≤ (units x : ℚ) / unitsPerOne := div_nonneg (Nat.cast_nonneg _) unitsPerOne_posQ.le
  rw [floorInt_eq_floor, realValue_units] at h ⊢
  generalize (units x : ℚ) / unitsPerOne = m at *
  cases hs : signBit x
  case true =>
    rw [hs, if_pos rfl, neg_one_mul] at h
    have : ⌊-m⌋ ≤ 0 := by exact_mod_cast (Int.floor_le (-m)).trans (neg_nonpos.mpr hm)
    simp only [if_true, neg_one_mul, iff_true]
    omega
  case false =>
    have := Int.floor_nonneg.mpr hm
    simp only [Bool.false_eq_true, if_false, one_mul, iff_false]
    omega

theorem signBit_fFloor (x : F64) : signBit (fFloor x) = signBit x := by
  cases hx : isFinite x
  case false => rw [fFloor_of_not_finite hx]
  case true =>
    rw [fFloor_of_finite hx]
    split
    next => exact signBit_pack_zero _
    next h => rw [signBit_fOfInt, Bool.eq_iff_iff, decide_eq_true_iff, floorInt_neg_iff h]

/-! ### NaN operands -/

section NaN
variable {a b : F64} (h : isNaN a = true ∨ isNaN b = true)
include h

theorem fLt_of_isNaN : fLt a b = false := by
  rcases h with h | h <;> simp [fLt, h]

theorem fLe_of_isNaN : fLe a b = false := by
  rcases h with h | h <;> simp [fLe, h]

theorem fAdd_of_isNaN (c : Config.At) : fAdd c a b = nanAt c .add a b := if_pos (Bool.or_eq_true_iff.mpr h)

theorem fSub_of_isNaN (c : Config.At) : fSub c a b = nanAt c .sub a b := if_pos (Bool.or_eq_true_iff.mpr h)

theorem fMul_of_isNaN (c : Config.At) : fMul c a b = nanAt c .mul a b := if_pos (Bool.or_eq_true_iff.mpr h)

theorem fDiv_of_isNaN (c : Config.At) : fDiv c a b = nanAt c .div a b := if_pos (Bool.or_eq_true_iff.mpr h)

end NaN

/-! ### Infinite operands and division by zero -/

/-- An infinity made from a sign is an infinity of that sign. -/
theorem pack_infBits_spec (neg : Bool) : isInf (pack neg infBits) = true ∧ signBit (pack neg infBits) = neg :=
  ⟨isInf_pack_infBits neg, signBit_pack neg infBits_lt⟩

/-- The signed infinity, or a NaN in the invalid case: what a multiplication by an infinity and a division by zero give. -/
theorem nan_or_infinity {r : F64} {bad neg : Bool} {c : Config.At} {op : Config.FloatOp} {a b : F64}
    (h : r = if bad then nanAt c op a b else pack neg infBits) :
    if bad then isNaN r = true else isInf r = true ∧ signBit r = neg := by
  rw [h]
  cases bad
  case true => exact isNaN_nanAt ..
  case false => exact pack_infBits_spec neg

section Special
variable {a b : F64} (ha : isNaN a = false) (hb : isNaN b = false) (c : Config.At)
include ha hb

theorem fAdd_inf_inf (h : isInf a = true) (h' : isInf b = true) :
    if signBit a != signBit b then isNaN (fAdd c a b) = true else fAdd c a b = a := by
  rw [fAdd_of_isInf_left ha hb h, h', Bool.true_and, signXor]
  split
  next => exact isNaN_nanAt ..
  next => rfl

theorem fAdd_inf_finite (h : isInf a = true) (h' : isInf b = false) : fAdd c a b = a := by
  rw [fAdd_of_isInf_left ha hb h, h', Bool.false_and, if_neg (by decide)]

theorem fMul_inf (h : isInf a = true ∨ isInf b = true) :
    if isZero a || isZero b then isNaN (fMul c a b) = true
    else isInf (fMul c a b) = true ∧ signBit (fMul c a b) = (signBit a != signBit b) :=
  nan_or_infinity (fMul_of_isInf ha hb (Bool.or_eq_true_iff.mpr h))

theorem fDiv_inf_inf (h : isInf a = true) (h' : isInf b = true) : isNaN (fDiv c a b) = true := by
  rw [fDiv_of_isInf_left ha hb h, if_pos h']; exact isNaN_nanAt ..

theorem fDiv_inf_finite (h : isInf a = true) (h' : isInf b = false) :
    isInf (fDiv c a b) = true ∧ signBit (fDiv c a b) = (signBit a != signBit b) := by
  rw [fDiv_of_isInf_left ha hb h, h', if_neg (by decide)]; exact pack_infBits_spec _

theorem fDiv_finite_inf (h : isInf a = false) (h' : isInf b = true) :
    isZero (fDiv c a b) = true ∧ signBit (fDiv c a b) = (signBit a != signBit b) := by
  rw [fDiv_of_isInf_right ha hb h h']; exact ⟨isZero_pack_zero _, signBit_pack_zero _⟩

theorem fDiv_by_zero (h : isInf a = false) (h' : isZero b = true) :
    if isZero a then isNaN (fDiv c a b) = true
    else isInf (fDiv c a b) = true ∧ signBit (fDiv c a b) = (signBit a != signBit b) :=
  nan_or_infinity (fDiv_of_isZero_right ha hb h h')

end Special

/-- Settles O58: every floor is itself a number, the order of the encodings is that of the values, and the special operands
are one case of the operation each. -/
theorem floorAndComparisonsAreExact : Obligations.FloorAndComparisonsAreExact := by
  refine ⟨fun x hx => ⟨isFinite_fFloor hx, realValue_fFloor hx⟩, fun x => ⟨signBit_fFloor x, fFloor_of_not_finite⟩,
    fun x y hx hy => ⟨fLt_iff hx hy, fLe_iff hx hy⟩, fun x y h => ⟨fLt_of_isNaN h, fLe_of_isNaN h⟩,
    fun n => ⟨fOfNat_roundsTo n, signBit_fOfNat n⟩, fun n => ⟨fOfInt_roundsTo n, signBit_fOfInt n⟩,
    fun x => ⟨signBit_fAbs x, magBits_fAbs x, signBit_fNeg x, magBits_fNeg x⟩,
    fun x _ => ⟨realValue_fAbs x, realValue_fNeg x⟩, fun c a b h => ?nan, fun c a b ha hb => ?special⟩
  case nan =>
    rw [fAdd_of_isNaN h, fSub_of_isNaN h, fMul_of_isNaN h, fDiv_of_isNaN h]
    exact ⟨isNaN_nanAt .., isNaN_nanAt .., isNaN_nanAt .., isNaN_nanAt ..⟩
  case special =>
    exact ⟨fSub_eq_fAdd_fNeg ha hb, fAdd_inf_finite ha hb c, fAdd_of_isInf_right ha hb, fAdd_inf_inf ha hb c,
      fMul_inf ha hb c, fDiv_inf_inf ha hb c, fDiv_inf_finite ha hb c, fDiv_finite_inf ha hb c, fDiv_by_zero ha hb c⟩

/-! ### clamp1 (00_scope.md R11) -/

theorem inUnitRange_fOne : inUnitRange fOne = true := by decide

theorem inUnitRange_fMinusOne : inUnitRange fMinusOne = true := by decide

theorem clamp1_of_isNaN {x : F64} (h : isNaN x = true) : clamp1 x = x := by
  unfold clamp1; rw [fLt_of_isNaN (.inr h), fLt_of_isNaN (.inl h), if_neg (by decide), if_neg (by decide)]

theorem clamp1_of_above {x : F64} (h : fLt fOne x = true) : clamp1 x = fOne := if_pos h

section Clamp
variable {x : F64} (hx : isNaN x = false)
include hx

theorem fLt_fOne_iff : fLt fOne x = true ↔ 1 < realValue x := by rw [fLt_iff (by decide) hx, realValue_fOne]

theorem fLt_fMinusOne_iff : fLt x fMinusOne = true ↔ realValue x < -1 := by
  rw [fLt_iff hx (by decide), realValue_fMinusOne]

theorem clamp1_of_below (h : fLt x fMinusOne = true) : clamp1 x = fMinusOne := by
  have h1 : ¬ fLt fOne x = true := by
    rw [fLt_fMinusOne_iff hx] at h
    rw [fLt_fOne_iff hx]
    linarith
  unfold clamp1; rw [if_neg h1, if_pos h]

/-- In range is what lies on the wrong side of neither bound. -/
theorem inUnitRange_iff_not_outside : inUnitRange x = true ↔ ¬ fLt fOne x = true ∧ ¬ fLt x fMinusOne = true := by
  rw [inUnitRange_iff hx, fLt_fOne_iff hx, fLt_fMinusOne_iff hx, not_lt, not_lt, abs_le, and_comm]

theorem clamp1_of_inUnitRange (h : inUnitRange x = true) : clamp1 x = x := by
  obtain ⟨h1, h2⟩ := (inUnitRange_iff_not_outside hx).mp h
  unfold clamp1; rw [if_neg h1, if_neg h2]

theorem inUnitRange_clamp1 : inUnitRange (clamp1 x) = true := by
  by_cases h1 : fLt fOne x = true
  · rw [clamp1_of_above h1]; exact inUnitRange_fOne
  by_cases h2 : fLt x fMinusOne = true
  · rw [clamp1_of_below hx h2]; exact inUnitRange_fMinusOne
  have h := (inUnitRange_iff_not_outside hx).mpr ⟨h1, h2⟩
  rwa [clamp1_of_inUnitRange hx h]

end Clamp

/-- Settles O60: both comparisons of a NaN are false, and any other value is above, below or in range. -/
theorem clampBoundsAndPassesNaN : Obligations.ClampBoundsAndPassesNaN := fun _ =>
  ⟨clamp1_of_isNaN, fun hx => ⟨inUnitRange_clamp1 hx, clamp1_of_inUnitRange hx, clamp1_of_above, clamp1_of_below hx⟩⟩

/-! ### SIN64 and COS64 (00_scope.md R15) -/

theorem sin64_fZero : sin64 fZero = fZero := if_pos rfl

theorem cos64_fZero : cos64 fZero = fOne := if_pos rfl

/-- The guard of the two functions: whatever the open unit gives, a finite argument has a result in the unit interval. -/
theorem inUnitRange_guarded {x raw zeroResult : F64} (hx : isFinite x = true) (h0 : inUnitRange zeroResult = true) :
    inUnitRange (if x = fZero then zeroResult else if isFinite x && !inUnitRange raw then fZero else raw) = true := by
  by_cases hz : x = fZero
  · rw [if_pos hz]; exact h0
  rw [if_neg hz, hx, Bool.true_and]
  cases hr : inUnitRange raw
  case true => exact hr
  case false => rw [if_pos (by decide)]; decide

theorem inUnitRange_sin64 {x : F64} (hx : isFinite x = true) : inUnitRange (sin64 x) = true :=
  inUnitRange_guarded hx (by decide)

theorem inUnitRange_cos64 {x : F64} (hx : isFinite x = true) : inUnitRange (cos64 x) = true :=
  inUnitRange_guarded hx inUnitRange_fOne

theorem inUnitRange_parts {x : F64} (h : inUnitRange x = true) :
    isFinite x = true ∧ fLe fMinusOne x = true ∧ fLe x fOne = true := by
  unfold inUnitRange at h
  simpa only [Bool.and_eq_true, and_assoc] using h

/-- Settles O59: the values at +0.0, and the guard on the open units. -/
theorem sineAndCosineMeetTheirBounds : Obligations.SineAndCosineMeetTheirBounds :=
  ⟨sin64_fZero, cos64_fZero, fun _ hx =>
    ⟨inUnitRange_parts (inUnitRange_sin64 hx), inUnitRange_parts (inUnitRange_cos64 hx)⟩⟩

end Sys2Proof.Machine
end

section
/-! PROOFS of the statements of 10_state.md: the reset state meets the invariant, every step keeps it, what a host sees at
the registers and what its writes do. -/

namespace Sys2Proof.Machine

/-! ### The invariant of the reset states (70_reset_and_hazards.md R340) -/

theorem voice_reset (v : Fin Config.NV) : State.reset.voice v = resetVoice := by simp [State.voice, State.reset]

theorem stage_reset (v : Fin Config.NV) (st : Fin Config.NS) : State.reset.stage v st = resetStage := by
  simp [State.stage, State.reset]

theorem ownedRegion_reset (u : UnitId) : ownedRegion State.reset u = none := by
  cases u with
  | voice v => simp [ownedRegion, voice_reset, resetVoice]
  | stage v st => simp [ownedRegion, stage_reset, resetStage]

/-- Settles O18, clause by clause: no unit owns a region, no error is recorded, the latched parameters are FS_DEFAULT,
BITS_DEFAULT and 1.0. -/
theorem resetMeetsInvariant : Obligations.ResetMeetsInvariant where
  memory := rfl
  voices v := by rw [voice_reset]; decide
  stages v st := by rw [stage_reset]; rfl
  regions u1 _ _ _ _ _ _ h1 _ := by rw [ownedRegion_reset] at h1; cases h1
  errorRecord := by decide
  renderParams := by decide
  sampleIndex := rfl
  pcmLast := by decide

/-- A state that differs only in fields no clause reads meets the invariant too. -/
theorem Inv.of_env {s t : State} (h : Inv s)
    (ht : t = { s with
      p := t.p, irqEn := t.irqEn, fs := t.fs, bits := t.bits, headroom := t.headroom, length := t.length,
      noise := t.noise, stream := t.stream, accepted := t.accepted, hostQueue := t.hostQueue, replies := t.replies,
      sinkScript := t.sinkScript, sinkRest := t.sinkRest, resetPin := t.resetPin, freeTick := t.freeTick,
      powerOns := t.powerOns }) : Inv t :=
  ht ▸ h.env ..

theorem Inv.softReset {s : State} (h : Inv s) : Inv (softReset s) := (Inv.ram resetMeetsInvariant h.memory).of_env rfl

theorem Inv.powerOnReset (s : State) : Inv (powerOnReset s) := Inv.of_env resetMeetsInvariant rfl

theorem Inv.sinkTurn {s : State} (h : Inv s) : Inv (sinkTurn s) := by
  unfold Machine.sinkTurn; split <;> exact h.of_env rfl

/-! ### Records a command builds -/

theorem voiceOk_oscillator {kind : VoiceKind} {f g : F64} (hk : kind ≠ .ks) (hf : freqOK f = true)
    (hg : gainOK g = true) : voiceOk (oscillator kind f g) :=
  ⟨hf, hg, (if_neg hk).mpr ⟨rfl, rfl, rfl, rfl, rfl⟩⟩

/-- A positive frequency passes the check of 40_generator.md R111. -/
theorem freqOK_of_pos {f : F64} (hf : isFinite f = true) (h : fLt fZero f = true) : freqOK f = true := by
  simp only [fLt, Bool.and_eq_true, decide_eq_true_eq] at h
  simp only [freqOK, fLe, Bool.and_eq_true, decide_eq_true_eq]
  exact ⟨hf, h.1, h.2.le⟩

theorem toNat_ofNat_of_le_ram {n : Nat} (h : n ≤ Config.RAM_WORDS) : (BitVec.ofNat 32 n).toNat = n := by
  rw [BitVec.toNat_ofNat]; exact Nat.mod_eq_of_lt (lt_of_le_of_lt h (by decide))

theorem stageOk_biquadStage {kind : StageKind} {k : Coefs} {fs : BitVec 32}
    (hk : kind ∈ [StageKind.lpf, .hpf, .bpf, .brf, .apf]) (hc : coefsFinite k = true) (hfs : fs ≠ 0) :
    stageOk (biquadStage kind k fs) := by
  simp only [List.mem_cons, List.not_mem_nil, or_false] at hk
  rcases hk with rfl | rfl | rfl | rfl | rfl <;> exact ⟨hc, rfl, rfl, rfl, rfl, hfs⟩

theorem combStage_region {kind : StageKind} {g : F64} {n b : Nat} {fs : BitVec 32} (h : b + n ≤ Config.RAM_WORDS) :
    (combStage kind g n b fs).base.toNat = b ∧ (combStage kind g n b fs).n.toNat = n :=
  ⟨toNat_ofNat_of_le_ram (by omega), toNat_ofNat_of_le_ram (by omega)⟩

theorem stageOk_combStage {kind : StageKind} {g : F64} {n b : Nat} {fs : BitVec 32} (hk : kind = .comb ∨ kind = .delay)
    (hg : isFinite g = true) (hg1 : fLt (fAbs g) fOne = true) (hn : 1 ≤ n) (hb : b + n ≤ Config.RAM_WORDS)
    (hfs : fs ≠ 0) : stageOk (combStage kind g n b fs) := by
  obtain ⟨eb, en⟩ := combStage_region (kind := kind) (g := g) (fs := fs) hb
  have hn' : 1 ≤ (combStage kind g n b fs).n.toNat := by rw [en]; exact hn
  have hb' : (combStage kind g n b fs).base.toNat + (combStage kind g n b fs).n.toNat ≤ Config.RAM_WORDS := by
    rw [eb, en]; exact hb
  rcases hk with rfl | rfl <;>
    exact ⟨⟨rfl, rfl, rfl, rfl, rfl⟩, ⟨rfl, rfl, rfl, rfl⟩, hg, hg1, hn', hn', hb', hfs⟩

theorem ksVoice_region {f g d : F64} {b n : Nat} {fs : BitVec 32} (h : b + n ≤ Config.RAM_WORDS) :
    (ksVoice f g d b n fs).base.toNat = b ∧ (ksVoice f g d b n fs).len.toNat = n :=
  ⟨toNat_ofNat_of_le_ram (by omega), toNat_ofNat_of_le_ram (by omega)⟩

theorem voiceOk_ksVoice {f g d : F64} {b n : Nat} {fs : BitVec 32} (hf : isFinite f = true) (hf0 : fLt fZero f = true)
    (hg : isFinite g = true) (hd : isFinite d = true ∧ fLe fZero d = true ∧ fLe d fOne = true) (hn : 2 ≤ n)
    (hb : b + n ≤ Config.RAM_WORDS) (hfs : fs ≠ 0) : voiceOk (ksVoice f g d b n fs) := by
  obtain ⟨hd1, hd2, hd3⟩ := hd
  obtain ⟨eb, en⟩ := ksVoice_region (f := f) (g := g) (d := d) (fs := fs) hb
  refine ⟨freqOK_of_pos hf hf0, hg, ?_⟩
  rw [if_pos (show (ksVoice f g d b n fs).kind = .ks from rfl), eb, en]
  exact ⟨hf0, hd1, hd2, hd3, hn, Nat.zero_lt_of_lt hn, hb, hfs⟩

/-- Regions of an invariant state: a unit's own region keeps clear of every other. -/
theorem Inv.clear {s : State} (h : Inv s) {u : UnitId} {b n : Nat} (ho : ownedRegion s u = some (b, n)) :
    ∀ u2 b2 n2, u2 ≠ u → ownedRegion s u2 = some (b2, n2) → b + n ≤ b2 ∨ b2 + n2 ≤ b :=
  fun u2 b2 n2 hne h2 => h.regions u u2 hne.symm b n b2 n2 ho h2

/-! ### Results that keep the invariant -/

/-- The block goes on, with a state that meets the invariant. -/
def Safe (r : Result) : Prop := ∃ t, r = .next t ∧ Inv t

theorem Safe.next {t : State} (h : Inv t) : Safe (.next t) := ⟨t, rfl, h⟩

theorem Safe.raise {s : State} (h : Inv s) {code : ErrorCode} (hc : code ≠ .malformedEventStream) (w : CmdWord) :
    Safe (raise code w s) := by
  rw [raise_eq]; exact .next (h.recorded hc w)

theorem Safe.onVoice {s : State} (h : Inv s) (i : Instr) (v : BitVec 4) {body : Fin Config.NV → Result}
    (hb : ∀ u, Safe (body u)) : Safe (onVoice i v s body) := by
  rcases onVoice_cases i v s body with ⟨u, e⟩ | e <;> rw [e]
  · exact hb u
  · exact .raise h (by decide) _

theorem Safe.onStage {s : State} (h : Inv s) (i : Instr) (v : BitVec 4) (st : BitVec 2)
    {body : Fin Config.NV → Fin Config.NS → Result} (hb : ∀ u su, Safe (body u su)) : Safe (onStage i v st s body) := by
  rcases onStage_cases i v st s body with ⟨u, su, e⟩ | e <;> rw [e]
  · exact hb u su
  · exact .raise h (by decide) _

/-- A command with a parameter check: refused, or its own effect on parameters that pass. -/
theorem Safe.checked {s : State} (h : Inv s) {ok : Bool} {code : ErrorCode} (hc : code ≠ .malformedEventStream)
    {w : CmdWord} {r : Result} (hr : ok = true → Safe r) : Safe (if ok = false then Machine.raise code w s else r) := by
  cases ok with
  | false => rw [if_pos rfl]; exact .raise h hc w
  | true => rw [if_neg (by decide)]; exact hr rfl

/-- A zero fill inside the RAM keeps the invariant, and so does what is then done to the filled state. -/
theorem Safe.zeroFill {s : State} (h : Inv s) {n b : Nat} (hb : b + n ≤ Config.RAM_WORDS) {f : State → State}
    (hf : ∀ m, Inv { s with ram := m } → Inv (f { s with ram := m })) : Safe (outcome ((zeroFill n b s).map f)) := by
  obtain ⟨m, e, _, hw⟩ := zeroFill_spec n b s hb
  rw [e]
  exact .next (hf m (h.ram (hw h.memory)))

/-- The same of a noise fill. -/
theorem Safe.noiseFill {s : State} (h : Inv s) {n b : Nat} (hb : b + n ≤ Config.RAM_WORDS) {f : State → State}
    (hf : ∀ m x, Inv { s with ram := m, noise := x } → Inv (f { s with ram := m, noise := x })) :
    Safe (outcome ((noiseFill n b s).map f)) := by
  obtain ⟨m, e, _, hw⟩ := noiseFill_spec n b s hb
  rw [e]
  exact .next (hf m _ ((h.ram (hw h.memory)).of_env rfl))

/-! ### Voice commands (40_generator.md, 44_karplus_strong.md) -/

section Commands
variable {s : State} (h : Inv s) (v : BitVec 4) (st : BitVec 2)
include h

theorem safe_makeOscillator {kind : VoiceKind} (hk : kind ≠ .ks) (i : Instr) : Safe (makeOscillator kind i v s) :=
  .onVoice h _ _ fun _ => .checked h (by decide) fun hf => .checked h (by decide) fun hg =>
    .next (h.setVoice (voiceOk_oscillator hk hf hg) fun e => absurd e hk)

theorem safe_execOscOff : Safe (execOscOff v s) :=
  .onVoice h _ _ fun u => .next <| by
    obtain ⟨hf, hg, _⟩ := h.voices u
    exact h.setVoice (voiceOk_oscillator (by decide) hf hg) nofun

theorem safe_execSetFreq : Safe (execSetFreq v s) :=
  .onVoice h _ _ fun u => .checked h (by decide) fun ho => .checked h (by decide) fun hf => .next <| by
    obtain ⟨_, hg, hrest⟩ := h.voices u
    have hk : (s.voice u).kind ≠ .ks := fun e => by rw [e] at ho; cases ho
    rw [if_neg hk] at hrest
    exact h.setVoice ⟨hf, hg, (if_neg hk).mpr hrest⟩ fun e => absurd e hk

theorem safe_execSetGain : Safe (execSetGain v s) :=
  .onVoice h _ _ fun u => .checked h (by decide) fun hg => .next <| by
    obtain ⟨hf, _, hrest⟩ := h.voices u
    exact h.setVoice ⟨hf, hg, hrest⟩ fun hk => h.clear (ownedRegion_voice_some.mpr ⟨hk, rfl, rfl⟩)

theorem safe_execRdVoice : Safe (execRdVoice v s) := .onVoice h _ _ fun _ => .next (h.of_env rfl)

theorem safe_execOscKs : Safe (execOscKs v s) :=
  .onVoice h _ _ fun u => .checked h (by decide) fun hok => by
    obtain ⟨hfs, ⟨hf, hf0⟩, hg, hd, _, hlen, hreg, _⟩ := (ksOK_iff ..).mp hok
    obtain ⟨_, hb, hle, hclear⟩ := (regionOK_iff ..).mp hreg
    have hbn : s.argNat 3 + (ksLength (commandPlace s) (s.arg 0) s.fs).toNat ≤ Config.RAM_WORDS := by omega
    refine .noiseFill h hbn fun m x hi => hi.setVoice (voiceOk_ksVoice hf hf0 hg hd (by omega) hbn hfs) fun _ => ?_
    rw [(ksVoice_region hbn).1, (ksVoice_region hbn).2]
    exact hclear

/-! ### Stage commands (41_biquad.md, 42_comb_delay.md, 43_stage_control.md) -/

theorem safe_biquadConstruct {kind : StageKind} (hk : kind ∈ [StageKind.lpf, .hpf, .bpf, .brf, .apf]) (i : Instr) :
    Safe (biquadConstruct kind i v st s) :=
  .onStage h _ _ _ fun _ _ => .checked h (by decide) fun hok => by
    obtain ⟨hfs, _⟩ := (biquadOK_iff ..).mp hok
    cases bqCoefs (commandPlace s) kind (s.arg 0) (s.arg 1) s.fs with
    | none => exact .raise h (by decide) _
    | some k =>
      refine .checked h (by decide) fun hc => .next (h.setStage (stageOk_biquadStage hk hc hfs) fun e => ?_)
      rcases e with e | e <;> (rw [show kind = _ from e] at hk; exact absurd hk (by decide))

theorem safe_combConstruct {kind : StageKind} (hk : kind = .comb ∨ kind = .delay) (i : Instr) :
    Safe (combConstruct kind i v st s) :=
  .onStage h _ _ _ fun _ _ => .checked h (by decide) fun hok => by
    obtain ⟨hfs, hg, hg1, hreg⟩ := (combOK_iff ..).mp hok
    obtain ⟨hn, hb, hle, hclear⟩ := (regionOK_iff ..).mp hreg
    have hbn : s.argNat 2 + s.argNat 1 ≤ Config.RAM_WORDS := by omega
    refine .zeroFill h hbn fun m hi => hi.setStage (stageOk_combStage hk hg hg1 hn hbn hfs) fun _ => ?_
    rw [(combStage_region hbn).1, (combStage_region hbn).2]
    exact hclear

theorem safe_execBypass : Safe (execBypass v st s) :=
  .onStage h _ _ _ fun _ _ => .next (h.setStage (x := resetStage) rfl nofun)

/-- CLRST of a buffer stage: the region is filled with zeros and the cursor goes back to its start. -/
theorem safe_clearBuffer {u : Fin Config.NV} {su : Fin Config.NS}
    (hk : (s.stage u su).kind = .comb ∨ (s.stage u su).kind = .delay) :
    Safe (outcome ((zeroFill (s.stage u su).n.toNat (s.stage u su).base.toNat s).map fun t =>
      t.setStage u su { s.stage u su with w := 0 })) := by
  obtain ⟨hw, hb, _⟩ := stageOk_buffer (h.stages u su) hk
  refine .zeroFill h hb fun m hi => hi.setStage (stageOk_cursor (h.stages u su) hk (Nat.zero_lt_of_lt hw)) fun _ => ?_
  exact hi.clear (u := .stage u su) (ownedRegion_stage_some.mpr ⟨hk, rfl, rfl⟩)

theorem safe_execClrSt : Safe (execClrSt v st s) :=
  .onStage h _ _ _ fun u su => by
    have biquad (hk : (s.stage u su).kind ∈ [StageKind.lpf, .hpf, .bpf, .brf, .apf]) : Safe (.next (s.setStage u su
        { s.stage u su with x1 := fZero, x2 := fZero, y1 := fZero, y2 := fZero })) := by
      obtain ⟨hm, hi⟩ := memory_moves h.units fZero fZero fZero fZero hk
      exact .next (h.moved hm hi)
    dsimp only
    split
    case h_1 => exact .next h
    case h_7 hk => exact safe_clearBuffer h (.inl hk)
    case h_8 hk => exact safe_clearBuffer h (.inr hk)
    all_goals next hk => exact biquad (by rw [hk]; decide)

theorem safe_execRdCoef : Safe (execRdCoef v st s) := .onStage h _ _ _ fun _ _ => .next (h.of_env rfl)

theorem safe_execRdState : Safe (execRdState v st s) := .onStage h _ _ _ fun _ _ => .next (h.of_env rfl)

/-! ### Sample RAM (46_system.md R282 to R284) -/

theorem safe_execRamrd : Safe (execRamrd s) := by
  unfold execRamrd
  split
  next => exact .raise h (by decide) _
  next hlt => rw [memRead_of_lt (not_le.mp hlt)]; exact .next (h.of_env rfl)

theorem safe_execRamwr : Safe (execRamwr s) := by
  unfold execRamwr
  split
  next => exact .raise h (by decide) _
  next hlt => rw [memWrite_of_lt _ (not_le.mp hlt)]; exact .next (h.ram (wf_insert _ (not_le.mp hlt) h.memory))

/-! ### The render (45_pipeline.md) -/

/-- START latches parameters that passed its checks; a render of no samples is DONE at once. -/
theorem safe_execStart : Safe (execStart s) :=
  .checked h (by decide) fun hok => by
    obtain ⟨hfs, ⟨hb, hb'⟩, ⟨hr, hr'⟩, _⟩ := (renderOK_iff s).mp hok
    have hpos : (0 : Int) < fullScale s.bits.toNat := by exact_mod_cast Nat.pow_pos Nat.zero_lt_two
    have hp : pcmLastOk (latchRender s) := ⟨(neg_neg_of_pos hpos).le, hpos⟩
    split
    next hl =>
      refine .next ⟨h.memory, h.voices, h.stages, h.regions, ?_, ⟨hfs, hb, hb', hr, hr'⟩, hl.symm, hp⟩
      obtain ⟨h1, h2, h3⟩ := h.errorRecord
      exact ⟨h1, h2, by simpa using h3⟩
    next hl =>
      have hl' : (0#64).toNat < s.length.toNat :=
        Nat.pos_of_ne_zero fun e => hl (BitVec.eq_of_toNat_eq e)
      exact .next ⟨h.memory, h.voices, h.stages, h.regions, h.errorRecord, ⟨hfs, hb, hb', hr, hr'⟩, hl', hp⟩

theorem Inv.sampleStep (hrun : s.runState = .running) (w : CmdWord) : ∃ t, sampleStep w s = .ok t ∧ Inv t := by
  obtain ⟨u, hm, hu, hend⟩ := sampleStep_cases w h.units
  have hi : Inv { u with freeTick := s.freeTick + 1 } := (h.moved hm hu).of_env rfl
  have hrun' : u.runState = .running := by rw [hm.frame]; exact hrun
  have hbits : u.runBits = s.runBits := by rw [hm.frame]
  rcases hend with ⟨q, h1, h2, e⟩ | e
  · rw [← hbits] at h1 h2
    exact ⟨_, e, hi.finishSample hrun' h1 h2⟩
  · exact ⟨_, e, hi.overflowSample hrun' w⟩

omit h in
theorem Inv.sampleSteps (w : CmdWord) (k : Nat) : ∀ {s : State}, Inv s → ∃ t, sampleSteps w k s = .ok t ∧ Inv t := by
  induction k with
  | zero => exact fun h => ⟨_, rfl, h⟩
  | succ k ih =>
    intro s h
    by_cases hrun : s.runState = .running
    · obtain ⟨t, e, ht⟩ := h.sampleStep hrun w
      obtain ⟨t', e', ht'⟩ := ih ht
      exact ⟨t', by simp only [Machine.sampleSteps, hrun, if_true, e, Except.bind, e'], ht'⟩
    · exact ⟨s, if_neg hrun, h⟩

theorem safe_execStep (n : BitVec 20) : Safe (execStep n s) := by
  have run : Safe (outcome (sampleSteps (encode (.step n)) n.toNat s)) := by
    obtain ⟨t, e, ht⟩ := h.sampleSteps (encode (.step n)) n.toNat
    rw [e]; exact .next ht
  unfold execStep
  cases s.runState
  case idle => exact .raise h (by decide) _
  case aborted => exact .raise h (by decide) _
  case running => exact run
  case done => exact run

/-! ### The step -/

theorem safe_exec (i : Instr) : Safe (exec i s) := by
  cases i with
  | nop => exact .next h
  | srst => exact .next h.softReset
  | start => exact safe_execStart h
  | step n => exact safe_execStep h n
  | ramrd => exact safe_execRamrd h
  | ramwr => exact safe_execRamwr h
  | oscOff v => exact safe_execOscOff h v
  | oscSine v => exact safe_makeOscillator h v (by decide) _
  | oscSquare v => exact safe_makeOscillator h v (by decide) _
  | oscTriangle v => exact safe_makeOscillator h v (by decide) _
  | oscSawtooth v => exact safe_makeOscillator h v (by decide) _
  | oscKs v => exact safe_execOscKs h v
  | setFreq v => exact safe_execSetFreq h v
  | setGain v => exact safe_execSetGain h v
  | rdVoice v => exact safe_execRdVoice h v
  | bypass v st => exact safe_execBypass h v st
  | bqLpf v st => exact safe_biquadConstruct (kind := .lpf) h v st (by decide) _
  | bqHpf v st => exact safe_biquadConstruct (kind := .hpf) h v st (by decide) _
  | bqBpf v st => exact safe_biquadConstruct (kind := .bpf) h v st (by decide) _
  | bqBrf v st => exact safe_biquadConstruct (kind := .brf) h v st (by decide) _
  | bqApf v st => exact safe_biquadConstruct (kind := .apf) h v st (by decide) _
  | comb v st => exact safe_combConstruct (kind := .comb) h v st (.inl rfl) _
  | delay v st => exact safe_combConstruct (kind := .delay) h v st (.inr rfl) _
  | clrSt v st => exact safe_execClrSt h v st
  | rdCoef v st => exact safe_execRdCoef h v st
  | rdState v st => exact safe_execRdState h v st

theorem safe_issueCommand (x : Word) : Safe (issueCommand x s) := by
  unfold issueCommand
  cases decode x with
  | ok i => exact safe_exec h i
  | error e => exact .raise h (by decide) _

theorem safe_writeRegister (off : BitVec 9) (x : Word) : Safe (writeRegister off x s) := by
  rcases writeRegister_cases off x s with e | e | e | ⟨en, fs, bits, hr, len, noise, p, e⟩ <;> rw [e]
  · exact safe_issueCommand h x
  · exact .next (h.acknowledge x)
  · exact .next h
  · exact .next (h.of_env rfl)

theorem safe_transact (t : HostTxn) : Safe (transact t s) := by
  cases t with
  | read off => exact .next (h.of_env rfl)
  | write off x => exact safe_writeRegister h off x

/-- A step from a state that meets the invariant answers a next state that meets it. -/
theorem safe_step : Safe (step s) := by
  rcases step_cases s with e | e | e | ⟨t, rest, e⟩ <;> rw [e]
  · exact .next (.powerOnReset _)
  · exact .next (Inv.sinkTurn (h.of_env rfl))
  · exact .next (h.of_env rfl)
  · exact safe_transact (h.of_env rfl) t

end Commands

/-- Settles O19, by cases on what the step finds: the reset input, a word in the stream, nothing, or a host transaction;
a CMD write by cases on the command. -/
theorem stepKeepsInvariant : Obligations.StepKeepsInvariant := by
  intro s t h hstep
  obtain ⟨t', e, ht'⟩ := safe_step h
  rw [hstep] at e
  cases e
  exact ht'

/-! ### The host port: offsets (10_state.md R22, 20_memory.md R74) -/

/-- Outside 0x080 to 0x0BF no argument register is addressed (10_state.md R21). -/
theorem argOffset_outside {a : Nat} (h : a < 0x080 ∨ 0x0C0 ≤ a) : argOffset a = none := by
  unfold argOffset; rw [dif_neg]; omega

theorem argOffset_arg (k : Fin 8) : argOffset (byteOffset (BitVec.ofNat 9 (16 + k.val))) = some k := by
  revert k; decide

theorem byteOffset_arg (k : Fin 8) : byteOffset (BitVec.ofNat 9 (16 + k.val)) = 0x080 + 8 * k.val := by
  revert k; decide

theorem readRegister_arg (k : Fin 8) (s : State) : readRegister (BitVec.ofNat 9 (16 + k.val)) s = s.p[k.val] := by
  have hk := byteOffset_arg k
  unfold readRegister
  split
  case h_14 => rw [argOffset_arg]; rfl
  all_goals omega

/-- The reserved offsets 0x070, 0x078 and 0x0C0 on read 0 (10_state.md R37). -/
theorem readRegister_reserved {off : BitVec 9} (h : off = 14#9 ∨ off = 15#9 ∨ 24 ≤ off.toNat) (s : State) :
    readRegister off s = 0 := by
  have ha : byteOffset off = 0x070 ∨ byteOffset off = 0x078 ∨ 0x0C0 ≤ byteOffset off := by
    unfold byteOffset; bv_omega
  have hn : argOffset (byteOffset off) = none := argOffset_outside (by omega)
  unfold readRegister
  split
  case h_14 => rw [hn]
  all_goals omega

theorem writeRegister_arg (k : Fin 8) (x : Word) (s : State) :
    writeRegister (BitVec.ofNat 9 (16 + k.val)) x s = .next { s with p := s.p.set k.val x } := by
  have hk := byteOffset_arg k
  unfold writeRegister
  split
  case h_9 => rw [argOffset_arg]; rfl
  all_goals omega

/-- The read-only registers and the reserved offsets ignore a write (10_state.md R39, R37). -/
theorem writeRegister_ignored {off : BitVec 9} (x : Word) (s : State)
    (h : off.toNat ≤ 1 ∨ off = 3#9 ∨ off = 4#9 ∨ (12 ≤ off.toNat ∧ off.toNat ≤ 15) ∨ 24 ≤ off.toNat) :
    writeRegister off x s = .next s := by
  have ha : byteOffset off ≤ 0x008 ∨ byteOffset off = 0x018 ∨ byteOffset off = 0x020 ∨
      (0x060 ≤ byteOffset off ∧ byteOffset off ≤ 0x078) ∨ 0x0C0 ≤ byteOffset off := by unfold byteOffset; bv_omega
  have hn : argOffset (byteOffset off) = none := argOffset_outside (by omega)
  unfold writeRegister
  split
  case h_9 => rw [hn]
  all_goals omega

theorem writeRegister_cmd (x : Word) (s : State) : writeRegister 2#9 x s = issueCommand x s := rfl

theorem issueCommand_of_decode {x : Word} {i : Instr} (h : decode x = .ok i) (s : State) :
    issueCommand x s = exec i s := by
  unfold issueCommand; rw [h]

/-- With a write to take, the step is that write at the state with the transaction taken (20_memory.md R80). -/
theorem step_write {s : State} {off : BitVec 9} {x : Word} {rest : List HostTxn} (h : resetAsserted s = false)
    (hs : s.stream = []) (hq : s.hostQueue = .write off x :: rest) :
    step s = writeRegister off x { s with hostQueue := rest, resetPin := s.resetPin.tail } :=
  step_host h hs hq

/-- With a CMD write to take that decodes, the step is the command. -/
theorem step_command {s : State} {x : Word} {rest : List HostTxn} {i : Instr} (h : resetAsserted s = false)
    (hs : s.stream = []) (hq : s.hostQueue = .write cmdRegister x :: rest) (hd : decode x = .ok i) :
    step s = exec i { s with hostQueue := rest, resetPin := s.resetPin.tail } := by
  rw [step_write h hs hq]
  exact issueCommand_of_decode hd _

theorem decodeTableWord_some {nbits w : Nat} {i : Instr} (h : decodeTableWord nbits w = some i) :
    decode (BitVec.ofNat 64 (w % 2 ^ nbits)) = .ok i := by
  unfold decodeTableWord at h
  split at h
  next he => cases h; exact he
  next => cases h

/-- Settles O5: both a pending CMD write and a placed table word are a command to take. -/
theorem stepRunsDecodedCommand : Obligations.StepRunsDecodedCommand :=
  ⟨fun _ _ _ _ h hs hq hd => step_command h hs hq hd,
    fun s nbits w _ hd => step_command (s := s.withFetchWord nbits w) rfl rfl rfl (decodeTableWord_some hd)⟩

/-- Settles O6: the registers by their offsets, the argument registers and the reserved offsets by their ranges. -/
theorem hostReadReturnsRegister : Obligations.HostReadReturnsRegister :=
  ⟨fun s => ⟨rfl, rfl, rfl, rfl, rfl, rfl, rfl, rfl, rfl, rfl, rfl, rfl, rfl, fun k => readRegister_arg k s,
    fun _ h => readRegister_reserved h s⟩, fun _ _ _ h hs hq => step_host h hs hq⟩

/-! ### STATUS (10_state.md R26, 60_exceptions.md R301) -/

theorem runStateCode_lt (r : RunState) : runStateCode r < 4 := by cases r <;> decide

theorem errField_lt (e : Option ErrorCode) : errField e < 16 := by
  rcases e with _ | e
  · decide
  · cases e <;> decide

/-- A number made of STATUS's fields, each in its own bits. -/
theorem status_fields {r e : Nat} (o : Bool) (hr : r < 4) (he : e < 16) :
    let w := BitVec.ofNat 64 (r + 16 * e + (if o then 256 else 0))
    w.extractLsb' 0 2 = BitVec.ofNat 2 r ∧ w.extractLsb' 2 2 = 0#2 ∧ w.extractLsb' 4 4 = BitVec.ofNat 4 e ∧
      w.getLsbD 8 = o ∧ w.extractLsb' 9 55 = 0#55 := by
  simp only [← BitVec.toNat_inj, BitVec.extractLsb'_toNat, BitVec.toNat_ofNat, Nat.shiftRight_eq_div_pow,
    BitVec.getLsbD_ofNat, Nat.testBit_eq_decide_div_mod_eq]
  cases o <;> simp <;> omega

/-- Settles O7: STATUS is its fields in their bits, and the fields are the codes. -/
theorem statusReadsStateErrAndOverflow : Obligations.StatusReadsStateErrAndOverflow := by
  intro s
  obtain ⟨h1, h2, h3, h4, h5⟩ := status_fields s.errOvf (runStateCode_lt s.runState) (errField_lt s.err)
  refine ⟨h1.trans ?_, h2, h3.trans ?_, h4, h5⟩
  · cases s.runState <;> rfl
  · rcases s.err with _ | e
    · rfl
    · cases e <;> rfl

/-! ### Host writes (10_state.md R39, R29) -/

/-- Settles O8: a register's implemented bits are the low bits of the write; the argument registers and the offsets that
ignore a write go by their ranges. -/
theorem hostWriteStoresOrIsIgnored : Obligations.HostWriteStoresOrIsIgnored := by
  intro s x
  have low {n : Nat} (hn : n ≤ 64) : x.extractLsb' 0 n = x.setWidth n := (BitVec.setWidth_eq_extractLsb' hn).symm
  rw [low (n := 3) (by decide), low (n := 32) (by decide), low (n := 8) (by decide)]
  exact ⟨rfl, rfl, rfl, rfl, rfl, rfl, fun k => writeRegister_arg k x s, fun _ h => writeRegister_ignored x s h, rfl,
    fun h hs => ⟨fun _ _ hq => step_write h hs hq, fun hq => step_idle h hs hq⟩⟩

/-- An acknowledgement changes the pending bits and the error record alone. -/
theorem acknowledge_frame (x : Word) (s : State) :
    acknowledge x s = { s with
      irqPend := (acknowledge x s).irqPend, err := (acknowledge x s).err, errOvf := (acknowledge x s).errOvf,
      errInfo := (acknowledge x s).errInfo } := by
  unfold acknowledge; split <;> rfl

theorem acknowledge_record_cleared {x : Word} (h : x.getLsbD 0 = true) (s : State) :
    (acknowledge x s).err = none ∧ (acknowledge x s).errOvf = false ∧ (acknowledge x s).errInfo = 0 := by
  unfold acknowledge; rw [if_pos h]; exact ⟨rfl, rfl, rfl⟩

theorem acknowledge_record_kept {x : Word} (h : x.getLsbD 0 = false) (s : State) :
    (acknowledge x s).err = s.err ∧ (acknowledge x s).errOvf = s.errOvf ∧ (acknowledge x s).errInfo = s.errInfo := by
  unfold acknowledge; rw [if_neg (by rw [h]; decide)]; exact ⟨rfl, rfl, rfl⟩

theorem acknowledge_pending_bit (x : Word) (s : State) (k : Fin 3) :
    (acknowledge x s).irqPend.getLsbD k.val = (s.irqPend.getLsbD k.val && !x.getLsbD k.val) := by
  simp [acknowledge_irqPend, k.isLt]

/-- Settles O9: the write is the acknowledgement. -/
theorem irqPendWriteClearsBitsAndRecord : Obligations.IrqPendWriteClearsBitsAndRecord := fun s x =>
  ⟨acknowledge x s, rfl, acknowledge_frame x s, acknowledge_pending_bit x s,
    fun h => acknowledge_record_cleared h s, fun h => acknowledge_record_kept h s⟩

end Sys2Proof.Machine
end

section
/-! PROOFS of the statement of 20_memory.md: no step accesses a sample-RAM word that does not exist (R72), so from a state
that meets the invariant a step always answers a next state. -/

namespace Sys2Proof.Machine

/-- Settles O20: a step from a state that meets the invariant is `Safe`, so it neither faults nor is refused. -/
theorem invariantStatesStep : Obligations.InvariantStatesStep := by
  intro s h
  obtain ⟨t, hstep, -⟩ := safe_step h
  exact ⟨t, hstep⟩

end Sys2Proof.Machine
end

section
/-! PROOFS of the statements of 30_encoding.md: decoding and encoding undo each other, and the writes that do not decode are
those R97 lists. -/

namespace Sys2Proof.Machine
open Laws

/-! ### The two directions (30_encoding.md R92, R94, R96) -/

/-- Every command's word finds its own row of the opcode map: the constructors' lemmas as one. -/
theorem encodeFits_statement (i : Instr) : EncodeFits.Statement i := by
  cases i with
  | nop => exact EncodeFits.nop
  | srst => exact EncodeFits.srst
  | start => exact EncodeFits.start
  | step n => exact EncodeFits.step n
  | ramrd => exact EncodeFits.ramrd
  | ramwr => exact EncodeFits.ramwr
  | oscOff v => exact EncodeFits.oscOff v
  | oscSine v => exact EncodeFits.oscSine v
  | oscSquare v => exact EncodeFits.oscSquare v
  | oscTriangle v => exact EncodeFits.oscTriangle v
  | oscSawtooth v => exact EncodeFits.oscSawtooth v
  | oscKs v => exact EncodeFits.oscKs v
  | setFreq v => exact EncodeFits.setFreq v
  | setGain v => exact EncodeFits.setGain v
  | rdVoice v => exact EncodeFits.rdVoice v
  | bypass v st => exact EncodeFits.bypass v st
  | bqLpf v st => exact EncodeFits.bqLpf v st
  | bqHpf v st => exact EncodeFits.bqHpf v st
  | bqBpf v st => exact EncodeFits.bqBpf v st
  | bqBrf v st => exact EncodeFits.bqBrf v st
  | bqApf v st => exact EncodeFits.bqApf v st
  | comb v st => exact EncodeFits.comb v st
  | delay v st => exact EncodeFits.delay v st
  | clrSt v st => exact EncodeFits.clrSt v st
  | rdCoef v st => exact EncodeFits.rdCoef v st
  | rdState v st => exact EncodeFits.rdState v st

theorem opRow_encode (i : Instr) :
    ∃ row, opRow (opField (encode i)) = some row ∧ fitsFormat row.format (encode i) = true ∧
      row.make (voiceField (encode i)) (stageField (encode i)) (countField (encode i)) = i := by
  have h := encodeFits_statement i
  unfold EncodeFits.Statement at h
  split at h
  next => exact h.elim
  next row hr => exact ⟨row, hr, h⟩

/-- A well-formed command's indices are in range, so its word passes the checks. -/
theorem decodeWord_encode {i : Instr} (h : WellFormed i) : decodeWord (encode i) = .ok i := by
  obtain ⟨row, hrow, hfits, hmake⟩ := opRow_encode i
  rw [← hmake, (opRow_make hrow _ _ _).2] at h
  obtain ⟨hv, hst⟩ := h
  rw [decodeWord_of_checks hrow hfits hv hst, hmake]

/-- The command a row makes of a word that fits the row's format has that word: what the format does not use is 0 in it. -/
theorem encode_make {w : CmdWord} {row : OpRow} (hrow : opRow (opField w) = some row)
    (hfits : fitsFormat row.format w = true) :
    encode (row.make (voiceField w) (stageField w) (countField w)) = w := by
  obtain ⟨hv, hst, hn⟩ := (EncodeFits.fitsFormat_iff _ _).mp hfits
  obtain ⟨hword, -⟩ := opRow_make hrow (voiceField w) (stageField w) (countField w)
  rw [hword]
  conv_rhs => rw [← EncodeFits.assemble_fields w]
  exact EncodeFits.assemble_inj.mpr ⟨rfl, ite_eq_left_iff.mpr fun h => (hv (eq_false_of_ne_true h)).symm,
    ite_eq_left_iff.mpr fun h => (hst (eq_false_of_ne_true h)).symm, ite_eq_left_iff.mpr fun h => (hn h).symm⟩

theorem wellFormed_encode_of_decodeWord {w : CmdWord} {i : Instr} (h : decodeWord w = .ok i) :
    WellFormed i ∧ encode i = w := by
  obtain ⟨row, hrow, hfits, hv, hst, rfl⟩ := decodeWord_ok h
  exact ⟨(opRow_make hrow _ _ _).2.mpr ⟨hv, hst⟩, encode_make hrow hfits⟩

theorem decode_ok_iff {x : Word} {i : Instr} :
    decode x = .ok i ↔ x.toNat < 2 ^ 32 ∧ decodeWord (lowWord x) = .ok i := by
  rw [← upper_zero_iff]
  unfold decode
  split_ifs with h
  · simp [h]
  · simp [not_not.mp h]

/-- Settles O1: the command's word finds its own row of the opcode map and passes the checks. -/
theorem decodeOfEncodeIsTheCommand : Obligations.DecodeOfEncodeIsTheCommand := fun i h => by
  rw [decode_setWidth, decodeWord_encode h]

/-- Settles O2: a write that decodes has upper bits 0, and its low word is the word of the command made of its fields. -/
theorem decodedWriteIsItsEncoding : Obligations.DecodedWriteIsItsEncoding := by
  intro x i h
  obtain ⟨hx, hw⟩ := decode_ok_iff.mp h
  obtain ⟨hi, hword⟩ := wellFormed_encode_of_decodeWord hw
  exact ⟨hi, by rw [hword, lowWord_setWidth hx]⟩

/-- Settles O4: each word is the encoding of its command. -/
theorem sampleWordsDecode : Obligations.SampleWordsDecode :=
  have dec (i : Instr) (h : WellFormed i) := decodeOfEncodeIsTheCommand i h
  ⟨dec (.oscSine 0) rfl, dec (.bqLpf 0 1) rfl, dec (.step 8) rfl, dec .start rfl, dec (.comb 1 0) rfl,
    dec (.oscSawtooth 3) rfl, dec (.bypass 5 1) rfl, dec (.rdState 1 0) rfl, dec (.step 1048575) rfl⟩

/-! ### The illegal writes (30_encoding.md R97) -/

/-- The checks of 30_encoding.md R96 that come after the op's, for the op's format. -/
def passesFormat (f : Format) (w : CmdWord) : Prop :=
  fitsFormat f w = true ∧ (usesVoice f = true → (voiceField w).toNat < Config.NV) ∧
    (usesStage f = true → (stageField w).toNat < Config.NS)

theorem decodeWord_decodes_iff {w : CmdWord} :
    (∃ i, decodeWord w = .ok i) ↔ ∃ f, (opRow (opField w)).map (·.format) = some f ∧ passesFormat f w := by
  constructor
  · rintro ⟨i, h⟩
    obtain ⟨row, hrow, hfits, hv, hst, -⟩ := decodeWord_ok h
    exact ⟨row.format, by rw [hrow, Option.map_some], hfits, hv, hst⟩
  · rintro ⟨f, hf, hfits, hv, hst⟩
    obtain ⟨row, hrow, rfl⟩ := Option.map_eq_some_iff.mp hf
    exact ⟨_, decodeWord_of_checks hrow hfits hv hst⟩

/-- The checks in arithmetic on the written number: the fields the format does not use are 0, its indices in range. -/
theorem passesFormat_lowWord_iff (f : Format) (x : Word) :
    passesFormat f (lowWord x) ↔
      ((usesVoice f = false → x.toNat / 2 ^ 22 % 16 = 0) ∧ (usesStage f = false → x.toNat / 2 ^ 20 % 4 = 0) ∧
        (f ≠ .I → x.toNat % 2 ^ 20 = 0)) ∧
      (usesVoice f = true → x.toNat / 2 ^ 22 % 16 < 8) ∧ (usesStage f = true → x.toNat / 2 ^ 20 % 4 < 2) := by
  obtain ⟨-, hv, hst, hn⟩ := @fields_toNat x
  simp only [passesFormat, EncodeFits.fitsFormat_iff, ← BitVec.toNat_inj, hv, hst, hn]
  rfl

section Formats
variable (x : Word)

theorem passesFormat_Z_iff : passesFormat .Z (lowWord x) ↔ x.toNat % 2 ^ 26 = 0 := by
  simp [passesFormat_lowWord_iff, usesVoice, usesStage]; omega

theorem passesFormat_V_iff :
    passesFormat .V (lowWord x) ↔ x.toNat % 2 ^ 22 = 0 ∧ x.toNat / 2 ^ 22 % 16 < 8 := by
  simp [passesFormat_lowWord_iff, usesVoice, usesStage]; omega

theorem passesFormat_VS_iff :
    passesFormat .VS (lowWord x) ↔ x.toNat % 2 ^ 20 = 0 ∧ x.toNat / 2 ^ 22 % 16 < 8 ∧ x.toNat / 2 ^ 20 % 4 < 2 := by
  simp [passesFormat_lowWord_iff, usesVoice, usesStage]

theorem passesFormat_I_iff : passesFormat .I (lowWord x) ↔ x.toNat / 2 ^ 20 % 64 = 0 := by
  simp [passesFormat_lowWord_iff, usesVoice, usesStage]; omega

end Formats

/-- The writes R97 does not list are those that decode: op by op, as the opcode map gives the op a format or none. -/
theorem decodes_iff_not_illegalWrite (x : Word) : (∃ i, decode x = .ok i) ↔ ¬ illegalWrite x := by
  simp only [decode_ok_iff, exists_and_left, decodeWord_decodes_iff, opRow_format, fields_toNat.1]
  unfold illegalWrite
  generalize x.toNat / 2 ^ 26 % 64 = op
  split_ifs
  · simp only [Option.some.injEq, exists_eq_left', passesFormat_Z_iff]; omega
  · simp only [Option.some.injEq, exists_eq_left', passesFormat_I_iff]; omega
  · simp only [Option.some.injEq, exists_eq_left', passesFormat_V_iff]; omega
  · simp only [Option.some.injEq, exists_eq_left', passesFormat_VS_iff]; omega
  · have hop : op = 0x06 ∨ op = 0x07 ∨ (0x11 ≤ op ∧ op ≤ 0x17) ∨ 0x23 ≤ op := by omega
    exact iff_of_false (by simp) (not_not.mpr (.inr (.inl hop)))

/-- A write that does not decode raises IllegalCommand with its low word. -/
theorem issueCommand_of_not_decodes {x : Word} (h : ¬ ∃ i, decode x = .ok i) (s : State) :
    issueCommand x s = .next (recorded .illegalCommand (lowWord x) s) := by
  unfold issueCommand
  split
  next i hi => exact (h ⟨i, hi⟩).elim
  next => exact raise_eq _ _ _

theorem lowWord_eq_ofNat (x : Word) : lowWord x = BitVec.ofNat 32 x.toNat := rfl

/-- Settles O3: a write decodes, and is its command, or it is illegal, and raises the error. -/
theorem illegalWritesRecordIllegalCommand : Obligations.IllegalWritesRecordIllegalCommand := by
  intro x s
  constructor
  · intro h
    have hx : ¬ ∃ i, decode x = .ok i := fun hd => (decodes_iff_not_illegalWrite x).mp hd h
    rw [issueCommand_of_not_decodes hx, lowWord_eq_ofNat]
  · intro h
    obtain ⟨i, hi⟩ := (decodes_iff_not_illegalWrite x).mpr h
    exact ⟨i, hi, (decodedWriteIsItsEncoding x i hi).1, issueCommand_of_decode hi s⟩

end Sys2Proof.Machine
end

section
/-! PROOFS of the statements of 40_generator.md: the oscillator and voice commands (R110 to R118), the exact phase, and the
waveforms with their range (R120 to R125). -/

namespace Sys2Proof.Machine

/-! ### Refused and accepted parameters (40_generator.md R111) -/

theorem freqOK_iff (f : F64) : freqOK f = true ↔ isFinite f = true ∧ fLe fZero f = true := Bool.and_eq_true_iff

theorem isOscillator_iff (k : VoiceKind) : isOscillator k = true ↔ k ≠ .off ∧ k ≠ .ks := by
  cases k <;> decide

/-! ### The voice commands at a voice in range -/

section Commands
variable {s : State} {v : BitVec 4} (hv : v.toNat < Config.NV)
include hv

/-- The four constructions share one check and one effect; both failures of the check are refused alike. -/
theorem makeOscillator_eq (kind : VoiceKind) (i : Instr) : makeOscillator kind i v s =
    if freqOK s.p[0] = true ∧ gainOK s.p[1] = true then .next (s.setVoice ⟨v.toNat, hv⟩ (oscillator kind s.p[0] s.p[1]))
    else .next (recorded .invalidParameter (encode i) s) := by
  rw [makeOscillator, onVoice_of_lt hv, raise_eq, show s.arg 0 = s.p[0] from rfl, show s.arg 1 = s.p[1] from rfl]
  cases freqOK s.p[0]
  case false => rfl
  case true => cases gainOK s.p[1] <;> rfl

theorem execOscOff_eq : execOscOff v s =
    .next (s.setVoice ⟨v.toNat, hv⟩ (oscillator .off s.voices[v.toNat].freq s.voices[v.toNat].gain)) :=
  onVoice_of_lt hv

theorem execSetFreq_eq : execSetFreq v s =
    if isOscillator s.voices[v.toNat].kind = false then .next (recorded .stateError (encode (.setFreq v)) s)
    else if freqOK s.p[0] = false then .next (recorded .invalidParameter (encode (.setFreq v)) s)
    else .next (s.setVoice ⟨v.toNat, hv⟩ { s.voices[v.toNat] with freq := s.p[0] }) := by
  rw [execSetFreq, onVoice_of_lt hv, raise_eq, raise_eq]; rfl

theorem execSetGain_eq : execSetGain v s =
    if isFinite s.p[0] = false then .next (recorded .invalidParameter (encode (.setGain v)) s)
    else .next (s.setVoice ⟨v.toNat, hv⟩ { s.voices[v.toNat] with gain := s.p[0] }) := by
  rw [execSetGain, onVoice_of_lt hv, raise_eq]; rfl

theorem execRdVoice_eq : execRdVoice v s = .next (s.setArgs (BitVec.ofNat 64 (voiceKindCode s.voices[v.toNat].kind))
    s.voices[v.toNat].freq s.voices[v.toNat].gain s.voices[v.toNat].decay (s.voices[v.toNat].base.setWidth 64)
    (s.voices[v.toNat].len.setWidth 64) (s.voices[v.toNat].ptr.setWidth 64)
    (s.voices[v.toNat].fsLat.setWidth 64)) :=
  onVoice_of_lt hv

end Commands

/-- Settles O26: the four commands are one construction with four kinds. -/
theorem oscillatorConstruction : Obligations.OscillatorConstruction := by
  intro s v hv row hrow
  have build : exec row.1 s = makeOscillator row.2 row.1 v s := by
    simp only [List.mem_cons, List.not_mem_nil, or_false] at hrow
    rcases hrow with rfl | rfl | rfl | rfl <;> rfl
  have params : (isFinite s.p[0] = true ∧ fLe fZero s.p[0] = true ∧ isFinite s.p[1] = true) ↔
      freqOK s.p[0] = true ∧ gainOK s.p[1] = true := by rw [freqOK_iff, and_assoc]; rfl
  rw [build, makeOscillator_eq hv, params]
  exact ⟨fun h => if_pos h, fun h => if_neg h⟩

/-- Settles O27: the record is the oscillator record of kind OFF with the voice's own frequency and gain. -/
theorem oscOffDisablesVoice : Obligations.OscOffDisablesVoice := fun _ _ hv => execOscOff_eq hv

/-- Settles O28: the kind is checked first, then the frequency. -/
theorem setfreqChangesOscillatorFrequency : Obligations.SetfreqChangesOscillatorFrequency := by
  intro s v hv kind
  rw [show exec (.setFreq v) s = _ from execSetFreq_eq hv, ← freqOK_iff]
  refine ⟨fun hk => if_pos ?_, fun h1 h2 hf => ?_, fun h1 h2 hf => ?_⟩
  · rcases hk with hk | hk <;> exact congrArg isOscillator hk
  · rw [if_neg (by rw [(isOscillator_iff kind).mpr ⟨h1, h2⟩]; decide), if_pos (eq_false_of_ne_true hf)]
  · rw [if_neg (by rw [(isOscillator_iff kind).mpr ⟨h1, h2⟩]; decide), if_neg (by rw [hf]; decide)]
    rfl

/-- Settles O29: the kind of the voice is not looked at. -/
theorem setgainChangesGain : Obligations.SetgainChangesGain := by
  intro s v hv
  rw [show exec (.setGain v) s = _ from execSetGain_eq hv]
  exact ⟨fun h => if_neg (by rw [h]; decide), fun h => if_pos h⟩

/-- Settles O30: the kind's code is a case of the record's kind, the other seven words are the record's fields. -/
theorem rdvoiceCopiesRecord : Obligations.RdvoiceCopiesRecord := by
  intro s v hv vo
  rw [show exec (.rdVoice v) s = _ from execRdVoice_eq hv]
  cases vo.kind <;> rfl

/-! ### Exact products and sums (40_generator.md R123, R124) -/

/-- A product by a power of two is exact on [-1.0, 1.0]. -/
theorem fMul_of_power {c : Config.At} {k p : F64} {j : ℕ} (hk : isFinite k = true) (hj : j ≤ 40)
    (hkv : realValue k = 2 ^ j) (hp : isFinite p = true) (hp1 : |realValue p| ≤ 1) :
    isFinite (fMul c k p) = true ∧ realValue (fMul c k p) = 2 ^ j * realValue p := by
  have hr := fMul_roundsTo (c := c) hk hp
  rw [hkv] at hr
  obtain ⟨z, hz, hzv⟩ := number_scaled j hj (magBits_le_of_abs_le_one hp1)
  have hv := roundsTo_exact hr hz (hzv.trans (mul_comm ..))
  refine ⟨isFinite_of_abs_le hr.1 (k := j) (by omega) ?_, hv⟩
  rw [hv, abs_mul, abs_of_pos (by positivity)]
  exact mul_le_of_le_one_right (by positivity) hp1

theorem realValue_of_multiple {x : F64} {n : ℤ} {j k : ℕ} (h : signedUnits x = n * ((2 ^ k : ℕ) : ℤ))
    (hjk : 1074 = j + k) : realValue x = n / 2 ^ j := by
  unfold realValue
  rw [h, unitsPerOne_eq, hjk, pow_add, Nat.cast_mul, Int.cast_mul, Int.cast_natCast,
    mul_div_mul_right _ _ (by positivity), Nat.cast_pow, Nat.cast_ofNat]

/-- From 1/4 up, four times a number plus an integer has no bit below 2^-52, so it is a number up to 2. -/
theorem number_four_mul_add {p : F64} (hp : 1 / 4 ≤ realValue p) (n : ℤ) (h : |4 * realValue p + n| ≤ 2) :
    ∃ z, isNaN z = false ∧ realValue z = 4 * realValue p + n := by
  obtain ⟨M, hM⟩ := quarter_multiple hp
  have hv : 4 * realValue p + n = ((M + n * 2 ^ 52 : ℤ) : ℚ) / 2 ^ 52 := by
    rw [realValue_of_multiple hM (j := 54) rfl]; push_cast; ring
  have hb : |M + n * 2 ^ 52| ≤ 2 ^ 53 := by
    rw [hv, abs_div, abs_of_pos (a := (2 : ℚ) ^ 52) (by positivity), div_le_iff₀ (by positivity), ← pow_succ'] at h
    exact_mod_cast h
  obtain ⟨z, hz, hzu⟩ := exists_number_int 1022 hb (by norm_num)
  exact ⟨z, hz, by rw [hv, realValue_of_multiple hzu (j := 52) rfl]⟩

/-! ### The phase (40_generator.md R120) -/

theorem phase_of_finite {c : Config.At} {f t : F64} (hx : isFinite (fMul c f t) = true) :
    phase c f t = fSub c (fMul c f t) (fFloor (fMul c f t)) := if_pos hx

theorem isNaN_phase_of_not_finite {c : Config.At} {f t : F64} (hx : isFinite (fMul c f t) = false) :
    isNaN (phase c f t) = true := by
  have e : phase c f t = nanAt c .phase f t := if_neg (by rw [hx]; decide)
  rw [e]; exact isNaN_nanAt ..

theorem fMul_nonneg {c : Config.At} {f t : F64} (hf : isFinite f = true) (hf0 : fLe fZero f = true)
    (ht : isFinite t = true) (ht0 : fLe fZero t = true) : 0 ≤ realValue (fMul c f t) := by
  rw [fLe_iff (by decide) (isNaN_of_finite hf), realValue_fZero] at hf0
  rw [fLe_iff (by decide) (isNaN_of_finite ht), realValue_fZero] at ht0
  have h := roundsTo_ge (fMul_roundsTo (c := c) hf ht) (z := fZero) (by decide)
  rw [realValue_fZero] at h
  exact h (mul_nonneg hf0 ht0)

section Phase
variable {c : Config.At} {f t : F64} (hx : isFinite (fMul c f t) = true) (h0 : 0 ≤ realValue (fMul c f t))
include hx h0

/-- The fractional part is a number itself, so the subtraction does not round. -/
theorem phase_spec : isFinite (phase c f t) = true ∧ realValue (phase c f t) = Int.fract (realValue (fMul c f t)) := by
  have hr := fSub_roundsTo (c := c) hx (isFinite_fFloor hx)
  rw [realValue_fFloor hx, ← phase_of_finite hx] at hr
  obtain ⟨z, hz, hzv⟩ := number_fract h0
  have hv : realValue (phase c f t) = Int.fract (realValue (fMul c f t)) := roundsTo_exact hr hz hzv
  refine ⟨isFinite_of_abs_le hr.1 (k := 0) (by norm_num) ?_, hv⟩
  rw [hv, abs_of_nonneg (Int.fract_nonneg _), pow_zero]
  exact (Int.fract_lt_one _).le

theorem isFinite_phase : isFinite (phase c f t) = true := (phase_spec hx h0).1

theorem isNaN_phase : isNaN (phase c f t) = false := isNaN_of_finite (isFinite_phase hx h0)

theorem phase_nonneg : 0 ≤ realValue (phase c f t) := by rw [(phase_spec hx h0).2]; exact Int.fract_nonneg _

theorem phase_lt_one : realValue (phase c f t) < 1 := by rw [(phase_spec hx h0).2]; exact Int.fract_lt_one _

theorem abs_phase_le_one : |realValue (phase c f t)| ≤ 1 := by
  rw [abs_of_nonneg (phase_nonneg hx h0)]; exact (phase_lt_one hx h0).le

/-- The fraction in whole units of 2^-1074: a remainder by the units of 1. -/
theorem signedUnits_phase : signedUnits (phase c f t) = signedUnits (fMul c f t) % (unitsPerOne : ℤ) := by
  have hU := unitsPerOne_posQ.ne'
  have hv := (phase_spec hx h0).2
  rw [Int.fract, ← floorInt_eq_floor, floorInt, Int.fdiv_eq_ediv_of_nonneg _ (Int.natCast_nonneg _)] at hv
  unfold realValue at hv
  rw [Int.emod_def]
  generalize signedUnits (fMul c f t) / (unitsPerOne : ℤ) = q at *
  generalize unitsPerOne = U at *
  field_simp at hv
  exact_mod_cast hv

end Phase

/-- Settles O31: the exact fraction as a value gives the bounds, as units the remainder. -/
theorem phaseIsExactFraction : Obligations.PhaseIsExactFraction := by
  intro c f t hf hf0 ht ht0
  refine ⟨fun hx => ?_, isNaN_phase_of_not_finite⟩
  have h0 := fMul_nonneg (c := c) hf hf0 ht ht0
  have hn := isNaN_phase hx h0
  refine ⟨isFinite_phase hx h0, ?_, ?_, signedUnits_phase hx h0⟩
  · rw [fLe_iff (by decide) hn, realValue_fZero]; exact phase_nonneg hx h0
  · rw [fLt_iff hn (by decide), realValue_fOne]; exact phase_lt_one hx h0

/-! ### The three lines of the triangle (40_generator.md R123) -/

/-- R123's piecewise linear function of the phase. -/
def triangleValue (p : ℚ) : ℚ := if p < 1 / 4 then 4 * p else if p < 3 / 4 then 2 - 4 * p else 4 * p - 4

theorem abs_triangleValue_le_one {p : ℚ} (h0 : 0 ≤ p) (h1 : p < 1) : |triangleValue p| ≤ 1 := by
  unfold triangleValue
  split_ifs <;> exact abs_le.mpr ⟨by linarith, by linarith⟩

section Lines
variable {c : Config.At} {p : F64} (hp : isFinite p = true)
include hp

theorem four_mul_exact (h : |realValue p| ≤ 1) :
    isFinite (fMul c fFour p) = true ∧ realValue (fMul c fFour p) = 4 * realValue p := by
  have four : realValue fFour = 2 ^ 2 := by rw [realValue_fFour]; norm_num
  rw [← realValue_fFour, four]
  exact fMul_of_power (by decide) (by norm_num) four hp h

theorem two_sub_four_mul_exact (hlo : 1 / 4 ≤ realValue p) (hhi : realValue p ≤ 1) :
    isNaN (fSub c fTwo (fMul c fFour p)) = false ∧ realValue (fSub c fTwo (fMul c fFour p)) = 2 - 4 * realValue p := by
  obtain ⟨hm, hmv⟩ := four_mul_exact (c := c) hp (abs_le.mpr ⟨by linarith, by linarith⟩)
  obtain ⟨z, hz, hzv⟩ := number_four_mul_add hlo (-2) (by push_cast; exact abs_le.mpr ⟨by linarith, by linarith⟩)
  have hr := fSub_roundsTo (c := c) (a := fTwo) (by decide) hm
  rw [hmv, realValue_fTwo] at hr
  refine ⟨hr.1, roundsTo_exact hr (z := fNeg z) (by rwa [isNaN_fNeg]) ?_⟩
  rw [realValue_fNeg, hzv]; push_cast; ring

theorem four_mul_sub_four_exact (hlo : 3 / 4 ≤ realValue p) (hhi : realValue p ≤ 1) :
    isNaN (fSub c (fMul c fFour p) fFour) = false ∧ realValue (fSub c (fMul c fFour p) fFour) = 4 * realValue p - 4 := by
  obtain ⟨hm, hmv⟩ := four_mul_exact (c := c) hp (abs_le.mpr ⟨by linarith, by linarith⟩)
  obtain ⟨z, hz, hzv⟩ := number_four_mul_add (p := p) (by linarith) (-4)
    (by push_cast; exact abs_le.mpr ⟨by linarith, by linarith⟩)
  have hr := fSub_roundsTo (c := c) hm (b := fFour) (by decide)
  rw [hmv, realValue_fFour] at hr
  refine ⟨hr.1, roundsTo_exact hr hz ?_⟩
  rw [hzv]; push_cast; ring

end Lines

/-! ### The waveforms (40_generator.md R121 to R125) -/

/-- A waveform of a NaN phase is that NaN. -/
theorem waves_of_isNaN {c : Config.At} {f t : F64} (h : isNaN (phase c f t) = true) :
    sineWave c f t = phase c f t ∧ squareWave c f t = phase c f t ∧ triangleWave c f t = phase c f t ∧
      sawWave c f t = phase c f t :=
  ⟨if_pos h, if_pos h, if_pos h, if_pos h⟩

/-- Any other waveform is the formula after the NaN test. -/
theorem waves_of_number {c : Config.At} {f t p : F64} (hp : phase c f t = p) (h : isNaN p = false) :
    sineWave c f t = clamp1 (sin64 (fMul c Config.TWO_PI p)) ∧
      squareWave c f t = (if fLt p fHalf then fOne else fMinusOne) ∧
      triangleWave c f t = (if fLt p fQuarter then fMul c fFour p
        else if fLt p fThreeQuarters then fSub c fTwo (fMul c fFour p) else fSub c (fMul c fFour p) fFour) ∧
      sawWave c f t = fSub c (fMul c fTwo p) fOne := by
  subst hp
  have h' : ¬ isNaN (phase c f t) = true := by rw [h]; decide
  exact ⟨if_neg h', if_neg h', if_neg h', if_neg h'⟩

section Waves
variable {c : Config.At} {f t : F64} (hx : isFinite (fMul c f t) = true) (h0 : 0 ≤ realValue (fMul c f t))
include hx h0

theorem isFinite_fMul_TWO_PI_phase : isFinite (fMul c Config.TWO_PI (phase c f t)) = true := by
  have hpi : isFinite Config.TWO_PI = true := by decide
  have hpi0 : 0 ≤ realValue Config.TWO_PI := by
    rw [← realValue_fZero, ← fLe_iff (by decide) (isNaN_of_finite hpi)]; decide
  have hr := fMul_roundsTo (c := c) hpi (isFinite_phase hx h0)
  have hb := roundsTo_abs_le hr (isNaN_of_finite hpi) (by
    rw [abs_mul, abs_of_nonneg hpi0]
    exact mul_le_of_le_one_right hpi0 (abs_phase_le_one hx h0))
  rw [isFinite_iff_abs_lt hr.1]
  exact (hb.trans (le_abs_self _)).trans_lt (abs_realValue_lt_of_finite hpi)

/-- R121's clamp never changes the value. -/
theorem sineWave_eq : sineWave c f t = sin64 (fMul c Config.TWO_PI (phase c f t)) := by
  have h := inUnitRange_sin64 (isFinite_fMul_TWO_PI_phase hx h0)
  obtain ⟨hsine, -⟩ := waves_of_number rfl (isNaN_phase hx h0)
  rw [hsine, clamp1_of_inUnitRange (isNaN_of_finite (finite_of_inUnitRange h).1) h]

theorem squareWave_eq : squareWave c f t = if realValue (phase c f t) < 1 / 2 then fOne else fMinusOne := by
  have hn := isNaN_phase hx h0
  obtain ⟨-, hsquare, -⟩ := waves_of_number rfl hn
  simp only [hsquare, fLt_iff hn (y := fHalf) (by decide), realValue_fHalf]

theorem triangleWave_exact : isNaN (triangleWave c f t) = false ∧
    realValue (triangleWave c f t) = triangleValue (realValue (phase c f t)) := by
  have hp := isFinite_phase hx h0
  have hn := isNaN_phase hx h0
  have h1 := (phase_lt_one hx h0).le
  obtain ⟨-, -, htri, -⟩ := waves_of_number rfl hn
  simp only [htri, fLt_iff hn (y := fQuarter) (by decide), realValue_fQuarter,
    fLt_iff hn (y := fThreeQuarters) (by decide), realValue_fThreeQuarters, triangleValue]
  split_ifs with hq ht
  · obtain ⟨hm, hmv⟩ := four_mul_exact (c := c) hp (abs_phase_le_one hx h0)
    exact ⟨isNaN_of_finite hm, hmv⟩
  · exact two_sub_four_mul_exact hp (not_lt.mp hq) h1
  · exact four_mul_sub_four_exact hp (not_lt.mp ht) h1

/-- The product is exact, so the subtraction's is the one rounding (log entry 20). -/
theorem sawWave_roundsTo : roundsTo (sawWave c f t) (2 * realValue (phase c f t) - 1) := by
  obtain ⟨hm, hmv⟩ := fMul_of_power (c := c) (k := fTwo) (j := 1) (by decide) (by norm_num)
    (by rw [realValue_fTwo, pow_one]) (isFinite_phase hx h0) (abs_phase_le_one hx h0)
  have hr := fSub_roundsTo (c := c) hm (b := fOne) (by decide)
  obtain ⟨-, -, -, hsaw⟩ := waves_of_number rfl (isNaN_phase hx h0)
  rwa [hmv, realValue_fOne, pow_one, ← hsaw] at hr

/-! ### The range (40_generator.md R125) -/

theorem inUnitRange_sineWave : inUnitRange (sineWave c f t) = true := by
  rw [sineWave_eq hx h0]; exact inUnitRange_sin64 (isFinite_fMul_TWO_PI_phase hx h0)

theorem inUnitRange_squareWave : inUnitRange (squareWave c f t) = true := by
  rw [squareWave_eq hx h0]
  split
  · exact inUnitRange_fOne
  · exact inUnitRange_fMinusOne

theorem inUnitRange_triangleWave : inUnitRange (triangleWave c f t) = true := by
  obtain ⟨hn, hv⟩ := triangleWave_exact hx h0
  rw [inUnitRange_iff hn, hv]
  exact abs_triangleValue_le_one (phase_nonneg hx h0) (phase_lt_one hx h0)

/-- 2p - 1 lies between -1 and 1, and rounding does not cross a number. -/
theorem inUnitRange_sawWave : inUnitRange (sawWave c f t) = true := by
  have hr := sawWave_roundsTo hx h0
  have hp0 := phase_nonneg hx h0
  have hp1 := phase_lt_one hx h0
  rw [inUnitRange_iff hr.1, ← realValue_fOne]
  refine roundsTo_abs_le hr (by decide) ?_
  rw [realValue_fOne]
  exact abs_le.mpr ⟨by linarith, by linarith⟩

end Waves

/-- Settles O32, waveform by waveform. -/
theorem waveformsStayInRange : Obligations.WaveformsStayInRange := by
  intro c f t hf hf0 ht ht0 hx y hy
  have h0 := fMul_nonneg (c := c) hf hf0 ht ht0
  apply inUnitRange_parts
  simp only [List.mem_cons, List.not_mem_nil, or_false] at hy
  rcases hy with rfl | rfl | rfl | rfl
  · exact inUnitRange_sineWave hx h0
  · exact inUnitRange_squareWave hx h0
  · exact inUnitRange_triangleWave hx h0
  · exact inUnitRange_sawWave hx h0

/-- Settles O33: a finite product makes the phase a number and each waveform its formula; any other product makes the phase,
and so each waveform, a NaN. -/
theorem waveformsAreTheirFormulas : Obligations.WaveformsAreTheirFormulas := by
  intro c f t hf hf0 ht ht0
  refine ⟨fun hx => ?finite, fun hx => ?overflow⟩
  case finite =>
    have h0 := fMul_nonneg (c := c) hf hf0 ht ht0
    obtain ⟨htn, htv⟩ := triangleWave_exact hx h0
    have hsq := finite_of_inUnitRange (inUnitRange_squareWave hx h0)
    refine ⟨sineWave_eq hx h0, ?_, htv, isNaN_of_finite hsq.1, htn, sawWave_roundsTo hx h0⟩
    rw [squareWave_eq hx h0, apply_ite realValue, realValue_fOne, realValue_fMinusOne]
  case overflow =>
    have hn := isNaN_phase_of_not_finite hx
    obtain ⟨e1, e2, e3, e4⟩ := waves_of_isNaN hn
    rw [e1, e2, e3, e4]
    exact ⟨hn, hn, hn, hn⟩

end Sys2Proof.Machine
end

section
/-! PROOFS of the statements of 41_biquad.md: the five biquad constructions, refused (R141) and built (R142 to R149). -/

namespace Sys2Proof.Machine

/-- R141's check, failed. -/
theorem biquadOK_eq_false_iff (c : Config.At) (fc q : F64) (fs : BitVec 32) :
    biquadOK c fc q fs = false ↔
      fs = 0 ∨ isFinite fc = false ∨ fLt fZero fc = false ∨ fLt fc (fDiv c (fOfNat fs.toNat) fTwo) = false ∨
        isFinite q = false ∨ fLt fZero q = false := by
  rw [← Bool.not_eq_true, biquadOK_iff]
  simp only [not_and_or, Bool.not_eq_true, ne_eq, not_not]

/-- The five commands are one construction with five kinds (R150 to R154). -/
theorem exec_biquad {v : BitVec 4} {st : BitVec 2} {i : Instr}
    (hi : i ∈ [Instr.bqLpf v st, .bqHpf v st, .bqBpf v st, .bqBrf v st, .bqApf v st]) (s : State) :
    ∃ kind, exec i s = biquadConstruct kind i v st s := by
  simp only [List.mem_cons, List.not_mem_nil, or_false] at hi
  rcases hi with rfl | rfl | rfl | rfl | rfl
  · exact ⟨.lpf, rfl⟩
  · exact ⟨.hpf, rfl⟩
  · exact ⟨.bpf, rfl⟩
  · exact ⟨.brf, rfl⟩
  · exact ⟨.apf, rfl⟩

/-! ### The construction at a stage in range (R149) -/

section Construct
variable {s : State} {v : BitVec 4} {st : BitVec 2} (hv : v.toNat < Config.NV) (hs : st.toNat < Config.NS)
  (kind : StageKind) (i : Instr)
include hv hs

theorem biquadConstruct_of_not_ok (hok : biquadOK (commandPlace s) s.p[0] s.p[1] s.fs = false) :
    biquadConstruct kind i v st s = .next (recorded .invalidParameter (encode i) s) := by
  rw [biquadConstruct, onStage_of_lt hv hs, ← raise_eq]
  exact if_pos hok

theorem biquadConstruct_of_ok (hok : biquadOK (commandPlace s) s.p[0] s.p[1] s.fs = true) {k : Coefs}
    (hk : bqCoefs (commandPlace s) kind s.p[0] s.p[1] s.fs = some k) :
    biquadConstruct kind i v st s =
      if coefsFinite k = false then .next (recorded .invalidParameter (encode i) s)
      else .next (s.setStage ⟨v.toNat, hv⟩ ⟨st.toNat, hs⟩ (biquadStage kind k s.fs)) := by
  rw [biquadConstruct, onStage_of_lt hv hs, raise_eq, show s.arg 0 = s.p[0] from rfl, show s.arg 1 = s.p[1] from rfl,
    hk, if_neg (by rw [hok]; decide)]

end Construct

/-- R142 and R148: the quotients by a0 of the kind's feed-forward terms and of a1 and a2. -/
theorem bqCoefs_of_feedForward {c : Config.At} {kind : StageKind} {fc q : F64} {fs : BitVec 32} {b0 b1 b2 : F64}
    (h : bqFeedForward c kind (bqCw c fc fs) (bqAlpha c fc q fs) = some (b0, b1, b2)) :
    bqCoefs c kind fc q fs =
      let a0 := fAdd c fOne (bqAlpha c fc q fs)
      some ⟨fDiv c b0 a0, fDiv c b1 a0, fDiv c b2 a0, fDiv c (fMul c fMinusTwo (bqCw c fc fs)) a0,
        fDiv c (fSub c fOne (bqAlpha c fc q fs)) a0⟩ := by
  rw [bqCoefs, h]

/-- Settles O34: R149's construction with the kind's row of R143 to R147. -/
theorem biquadConstructionDerivesCoefficients : Obligations.BiquadConstructionDerivesCoefficients := by
  intro s v st hv hs c fc q hfs hfc hfc0 hfc2 hq hq0 w0 cw sw alpha a0 a1 a2 built row hrow
  have hok : biquadOK c fc q s.fs = true := (biquadOK_iff ..).mpr ⟨hfs, hfc, hfc0, hfc2, hq, hq0⟩
  have spec : ∃ kind b0 b1 b2, row.2 = built kind b0 b1 b2 ∧ exec row.1 s = biquadConstruct kind row.1 v st s ∧
      bqFeedForward c kind cw alpha = some (b0, b1, b2) := by
    simp only [List.mem_cons, List.not_mem_nil, or_false] at hrow
    rcases hrow with rfl | rfl | rfl | rfl | rfl <;> exact ⟨_, _, _, _, rfl, rfl, rfl⟩
  obtain ⟨kind, b0, b1, b2, hstage, hexec, hterms⟩ := spec
  rw [hexec, biquadConstruct_of_ok hv hs kind row.1 hok (bqCoefs_of_feedForward hterms), hstage]
  refine ⟨fun hfin => ?finite, fun hinf => if_pos hinf⟩
  case finite => exact if_neg (ne_false_of_eq_true hfin)

/-- Settles O35: every reason to refuse makes the check fail, whatever the kind. -/
theorem biquadConstructionRefusesBadParameters : Obligations.BiquadConstructionRefusesBadParameters := by
  intro s v st hv hs hbad i hi
  obtain ⟨kind, hexec⟩ := exec_biquad hi s
  rw [hexec, biquadConstruct_of_not_ok hv hs kind i ((biquadOK_eq_false_iff ..).mpr hbad)]

end Sys2Proof.Machine
end

section
/-! PROOFS of the statements of 42_comb_delay.md: the two constructions, refused (R171) and built (R172). -/

namespace Sys2Proof.Machine

/-- R171's check with R76's region check written out. -/
theorem combOK_regions_iff (g : F64) (n b : Nat) (fs : BitVec 32) (u : UnitId) (s : State) :
    combOK g n b fs u s = true ↔
      fs ≠ 0 ∧ isFinite g = true ∧ fLt (fAbs g) fOne = true ∧
        (1 ≤ n ∧ b < Config.RAM_WORDS ∧ n ≤ Config.RAM_WORDS - b) ∧
        ∀ u2 b2 n2, u2 ≠ u → ownedRegion s u2 = some (b2, n2) → b + n ≤ b2 ∨ b2 + n2 ≤ b := by
  simp only [combOK_iff, regionOK_iff, and_assoc]

/-! ### The construction at a stage in range (R172) -/

section Construct
variable {s : State} {v : BitVec 4} {st : BitVec 2} (hv : v.toNat < Config.NV) (hs : st.toNat < Config.NS)
  (kind : StageKind) (i : Instr)
include hv hs

theorem combConstruct_of_not_ok
    (hok : ¬ combOK s.p[0] s.p[1].toNat s.p[2].toNat s.fs (.stage ⟨v.toNat, hv⟩ ⟨st.toNat, hs⟩) s = true) :
    combConstruct kind i v st s = .next (recorded .invalidParameter (encode i) s) := by
  rw [combConstruct, onStage_of_lt hv hs, ← raise_eq]
  exact if_pos (eq_false_of_ne_true hok)

/-- The new record, and a RAM in which the region alone is cleared: the fill stays inside the RAM (R76). -/
theorem combConstruct_of_ok
    (hok : combOK s.p[0] s.p[1].toNat s.p[2].toNat s.fs (.stage ⟨v.toNat, hv⟩ ⟨st.toNat, hs⟩) s = true) :
    ∃ m, combConstruct kind i v st s = .next ({ s with ram := m }.setStage ⟨v.toNat, hv⟩ ⟨st.toNat, hs⟩
        (combStage kind s.p[0] s.p[1].toNat s.p[2].toNat s.fs)) ∧
      ∀ a, ramWord { s with ram := m } a =
        if s.p[2].toNat ≤ a ∧ a < s.p[2].toNat + s.p[1].toNat then 0 else ramWord s a := by
  obtain ⟨_, _, _, ⟨_, hb, hn⟩, _⟩ := (combOK_regions_iff ..).mp hok
  obtain ⟨m, hfill, hwords, _⟩ := zeroFill_spec s.p[1].toNat s.p[2].toNat s (by omega)
  refine ⟨m, ?_, hwords⟩
  rw [combConstruct, onStage_of_lt hv hs, show s.argNat 1 = s.p[1].toNat from rfl,
    show s.argNat 2 = s.p[2].toNat from rfl, hfill]
  exact if_neg (ne_false_of_eq_true hok)

end Construct

/-- Settles O36: COMB and DELAY are one construction with two kinds, and filling the region changes the RAM alone. -/
theorem combDelayConstruction : Obligations.CombDelayConstruction := by
  intro s v st hv hs n b ok row hrow
  have build : exec row.1 s = combConstruct row.2 row.1 v st s := by
    simp only [List.mem_cons, List.not_mem_nil, or_false] at hrow
    rcases hrow with rfl | rfl <;> rfl
  have check : combOK s.p[0] n b s.fs (.stage ⟨v.toNat, hv⟩ ⟨st.toNat, hs⟩) s = true ↔ ok := combOK_regions_iff ..
  rw [build]
  refine ⟨fun hok => ?built, fun hok => ?refused⟩
  case built =>
    obtain ⟨m, hexec, hwords⟩ := combConstruct_of_ok hv hs row.2 row.1 (check.mpr hok)
    exact ⟨_, hexec, rfl, hwords⟩
  case refused => exact combConstruct_of_not_ok hv hs row.2 row.1 fun h => hok (check.mp h)

end Sys2Proof.Machine
end

section
/-! PROOFS of the statements of 43_stage_control.md: the stage-control commands (R190 to R193) and what one stage step
returns and changes, for each kind (R194). -/

namespace Sys2Proof.Machine

/-! ### The stage-control commands at a stage in range, whose record is `r` -/

section Commands
variable {s : State} {v : BitVec 4} {st : BitVec 2} (hv : v.toNat < Config.NV) (hs : st.toNat < Config.NS) {r : Stage}
  (hr : s.stage ⟨v.toNat, hv⟩ ⟨st.toNat, hs⟩ = r)

theorem execBypass_eq : execBypass v st s = .next (s.setStage ⟨v.toNat, hv⟩ ⟨st.toNat, hs⟩ resetStage) :=
  onStage_of_lt hv hs

include hr

theorem execRdCoef_eq : execRdCoef v st s = .next (s.setArgs r.c0 r.c1 r.c2 r.c3 r.c4
    (BitVec.ofNat 64 (stageKindCode r.kind)) (r.fsLat.setWidth 64) r.g) := by
  subst hr; exact onStage_of_lt hv hs

theorem execRdState_eq : execRdState v st s = .next (s.setArgs r.x1 r.x2 r.y1 r.y2 (r.n.setWidth 64)
    (r.base.setWidth 64) (r.w.setWidth 64) 0) := by
  subst hr; exact onStage_of_lt hv hs

theorem execClrSt_bypass (hk : r.kind = .bypass) : execClrSt v st s = .next s := by
  subst hr
  rw [execClrSt, onStage_of_lt hv hs]
  simp only [hk]

theorem execClrSt_biquad (hk : r.kind ∈ [StageKind.lpf, .hpf, .bpf, .brf, .apf]) :
    execClrSt v st s = .next (s.setStage ⟨v.toNat, hv⟩ ⟨st.toNat, hs⟩
      { r with x1 := fZero, x2 := fZero, y1 := fZero, y2 := fZero }) := by
  subst hr
  rw [execClrSt, onStage_of_lt hv hs]
  simp only [List.mem_cons, List.not_mem_nil, or_false] at hk
  rcases hk with hk | hk | hk | hk | hk <;> simp only [hk]

/-- The cursor at the start of a buffer of zeros: a fill that stays inside the RAM changes the RAM alone. -/
theorem execClrSt_buffer (hk : r.kind ∈ [StageKind.comb, .delay])
    (hin : r.base.toNat + r.n.toNat ≤ Config.RAM_WORDS) :
    ∃ m, execClrSt v st s =
        .next ({ s with ram := m }.setStage ⟨v.toNat, hv⟩ ⟨st.toNat, hs⟩ { r with w := 0 }) ∧
      ∀ a, ramWord { s with ram := m } a =
        if r.base.toNat ≤ a ∧ a < r.base.toNat + r.n.toNat then 0 else ramWord s a := by
  subst hr
  obtain ⟨m, hfill, hwords, _⟩ := zeroFill_spec _ _ s hin
  refine ⟨m, ?_, hwords⟩
  rw [execClrSt, onStage_of_lt hv hs]
  simp only [List.mem_cons, List.not_mem_nil, or_false] at hk
  rcases hk with hk | hk <;> simp only [hk, hfill, Except.map, outcome]

end Commands

/-- Settles O37: the bypass record is the one of reset. -/
theorem bypassRemovesFilter : Obligations.BypassRemovesFilter := fun _ _ _ hv hs => execBypass_eq hv hs

/-- Settles O38, by the kind of the stage. -/
theorem clrstClearsRecursionMemory : Obligations.ClrstClearsRecursionMemory := by
  intro s v st hv hs r
  refine ⟨execClrSt_bypass hv hs rfl, execClrSt_biquad hv hs rfl, fun hk hin => ?buffer⟩
  case buffer =>
    obtain ⟨m, hexec, hwords⟩ := execClrSt_buffer hv hs rfl hk hin
    exact ⟨_, hexec, rfl, hwords⟩

/-- Settles O39: the kind's code is a case of the stage's kind, the other seven words are the record's fields. -/
theorem rdcoefCopiesDesign : Obligations.RdcoefCopiesDesign := by
  intro s v st hv hs r
  rw [show exec (.rdCoef v st) s = _ from execRdCoef_eq hv hs (r := r) rfl]
  cases r.kind <;> rfl

/-- Settles O40: seven fields of the record, and 0. -/
theorem rdstateCopiesMemory : Obligations.RdstateCopiesMemory := fun _ _ _ hv hs => execRdState_eq hv hs rfl

/-! ### One stage step (43_stage_control.md R194) -/

theorem stageStep_bypass {tick : Nat} {v : Fin Config.NV} {st : Fin Config.NS} {x : F64} {s : State}
    (h : (s.stage v st).kind = .bypass) : stageStep tick v st x s = .ok (x, s) := by
  unfold stageStep; rw [h]

theorem ramWord_insert (s : State) (a : Nat) (x : Word) (b : Nat) :
    ramWord { s with ram := s.ram.insert a x } b = if b = a then x else ramWord s b := by
  split
  next h => rw [h, ramWord_insert_same]
  next h => exact ramWord_insert_ne s x h

/-- Settles O41: the step of each kind; a buffer stage's one write is read back at every address. -/
theorem stageStepByKind : Obligations.StageStepByKind := by
  intro s tick v st x r c a d y w' moved
  refine ⟨stageStep_bypass, stageStep_biquad, fun hk ha => ?comb, fun hk ha => ?delay⟩
  case comb => exact ⟨_, (stageStep_comb hk).trans (combStep_eq ha), rfl, ramWord_insert s a y⟩
  case delay => exact ⟨_, (stageStep_delay hk).trans (delayStep_eq ha), rfl, ramWord_insert s a x⟩

end Sys2Proof.Machine
end

section
/-! PROOFS of the statements of 44_karplus_strong.md: the noise generator and its values (R211, R212), the buffer length
(R213), the construction, refused (R214) and built (R215), and one string step (R216) with its range (R217). -/

namespace Sys2Proof.Machine

/-! ### The noise generator (44_karplus_strong.md R211) -/

/-- Each bit of such a word is 0 or a copy of a lower one. -/
theorem eq_zero_of_eq_shiftLeft {w k : Nat} (hk : 0 < k) {x : BitVec w} (h : x = x <<< k) : x = 0 := by
  have bits : ∀ i, x.getLsbD i = false := by
    intro i
    induction i using Nat.strong_induction_on with
    | _ i ih =>
      rw [h, BitVec.getLsbD_shiftLeft]
      by_cases hi : i < k
      · simp [hi]
      · rw [ih (i - k) (by omega), Bool.and_false]
  exact BitVec.eq_of_getLsbD_eq fun i _ => by rw [bits i]; exact BitVec.getLsbD_zero.symm

/-- A shift to the right makes every number but 0 smaller. -/
theorem eq_zero_of_eq_ushiftRight {w k : Nat} (hk : 0 < k) {x : BitVec w} (h : x = x >>> k) : x = 0 := by
  by_contra hx
  have hpos : 0 < x.toNat := Nat.pos_of_ne_zero (mt (fun e => BitVec.eq_of_toNat_eq e) hx)
  have hlt := Nat.div_lt_self hpos (Nat.one_lt_two_pow hk.ne')
  rw [← Nat.shiftRight_eq_div_pow, ← BitVec.toNat_ushiftRight, ← h] at hlt
  exact lt_irrefl _ hlt

theorem xor_shiftLeft_eq_zero_iff {w k : Nat} (hk : 0 < k) (x : BitVec w) : x ^^^ (x <<< k) = 0 ↔ x = 0 := by
  refine ⟨fun h => eq_zero_of_eq_shiftLeft hk (BitVec.xor_eq_zero_iff.mp h), fun h => ?_⟩
  rw [h]; simp

theorem xor_ushiftRight_eq_zero_iff {w k : Nat} (hk : 0 < k) (x : BitVec w) : x ^^^ (x >>> k) = 0 ↔ x = 0 := by
  refine ⟨fun h => eq_zero_of_eq_ushiftRight hk (BitVec.xor_eq_zero_iff.mp h), fun h => ?_⟩
  rw [h]; simp

/-- Settles O43: each of the three shifts of the step gives 0 from 0 alone. -/
theorem noiseStaysNonZero : Obligations.NoiseStaysNonZero := fun x =>
  calc xorshift32 x = 0
      ↔ (x ^^^ x <<< 13) ^^^ (x ^^^ x <<< 13) >>> 17 = 0 := xor_shiftLeft_eq_zero_iff (by decide) _
    _ ↔ x ^^^ x <<< 13 = 0 := xor_ushiftRight_eq_zero_iff (by decide) _
    _ ↔ x = 0 := xor_shiftLeft_eq_zero_iff (by decide) _

/-! ### The value of a draw -/

/-- Integers up to 2^53 convert without rounding. -/
theorem fOfInt_exact {n : Int} (hn : |n| ≤ 2 ^ 53) : isFinite (fOfInt n) = true ∧ realValue (fOfInt n) = n := by
  obtain ⟨z, hz, hzv⟩ := number_int hn
  have hr := fOfInt_roundsTo n
  have hv := roundsTo_exact hr hz hzv
  refine ⟨isFinite_of_abs_le hr.1 (k := 53) (by norm_num) ?_, hv⟩
  rw [hv]; exact_mod_cast hn

theorem abs_toInt_le (x : BitVec 32) : |x.toInt| ≤ 2 ^ 31 :=
  abs_le.mpr ⟨BitVec.le_toInt x, (BitVec.toInt_lt (x := x)).le⟩

theorem isFinite_fOfInt_toInt (x : BitVec 32) : isFinite (fOfInt x.toInt) = true :=
  (fOfInt_exact ((abs_toInt_le x).trans (by norm_num))).1

/-- Settles O44: the signed state is a number, and dividing it by 2^31 moves its exponent alone. -/
theorem noiseValueIsExact : Obligations.NoiseValueIsExact := by
  intro c x
  have hx := abs_toInt_le x
  have hr : roundsTo (noiseValue c x) ((x.toInt : ℚ) / 2147483648) := by
    have h := fDiv_roundsTo (c := c) (isFinite_fOfInt_toInt x) (b := fTwo31) (by decide) (by decide)
    rwa [(fOfInt_exact (hx.trans (by norm_num))).2, realValue_fTwo31] at h
  obtain ⟨z, hz, hzu⟩ := exists_number_int 1043 (n := x.toInt) (hx.trans (by norm_num)) (by norm_num)
  have hzv : realValue z = (x.toInt : ℚ) / 2147483648 := by
    rw [realValue_of_multiple hzu (j := 31) rfl]; norm_num
  have hv := roundsTo_exact hr hz hzv
  refine ⟨isFinite_of_abs_le hr.1 (k := 0) (by norm_num) ?_, hv⟩
  rw [hv, abs_div, abs_of_pos (a := (2147483648 : ℚ)) (by norm_num), div_le_iff₀ (by norm_num)]
  exact_mod_cast hx

/-! ### Fixed draws and lengths: a quotient of finite numbers is computed at any one place -/

theorem fDiv_place_irrelevant (c p : Config.At) {a b : F64} (ha : isFinite a = true) (hb : isFinite b = true)
    (hz : isZero b = false) : fDiv c a b = fDiv p a b := by
  rw [fDiv_of_finite ha hb hz, fDiv_of_finite ha hb hz]

theorem noiseValue_place_irrelevant (c p : Config.At) : noiseValue c = noiseValue p :=
  funext fun x => fDiv_place_irrelevant c p (isFinite_fOfInt_toInt x) (by decide) (by decide)

/-- Settles O45, by computing the draws of R212. -/
theorem firstNoiseDraws : Obligations.FirstNoiseDraws := by
  intro c
  rw [noiseValue_place_irrelevant c (commandPlace State.reset)]
  exact ⟨rfl, by decide +kernel, by decide +kernel⟩

/-- Settles O46: the source's example, computed. -/
theorem karplusStrongLengthOfA440 : Obligations.KarplusStrongLengthOfA440 := by
  intro c
  have place : ksRatio c 0x407B800000000000#64 44100#32 =
      ksRatio (commandPlace State.reset) 0x407B800000000000#64 44100#32 :=
    fDiv_place_irrelevant c _ (by decide +kernel) (by decide) (by decide)
  rw [ksLength, place]
  decide +kernel

/-! ### The construction at a voice in range (44_karplus_strong.md R215) -/

/-- R214's check with R76's region check written out: L is at least 2, so the region is not empty. -/
theorem ksOK_regions_iff (c : Config.At) (f g d : F64) (b : Nat) (u : Fin Config.NV) (s : State) :
    ksOK c f g d b u s = true ↔
      s.fs ≠ 0 ∧ (isFinite f = true ∧ fLt fZero f = true) ∧ isFinite g = true ∧
        (isFinite d = true ∧ fLe fZero d = true ∧ fLe d fOne = true) ∧ isFinite (ksRatio c f s.fs) = true ∧
        2 ≤ ksLength c f s.fs ∧
        (b < Config.RAM_WORDS ∧ (ksLength c f s.fs).toNat ≤ Config.RAM_WORDS - b) ∧
        (∀ u2 b2 n2, u2 ≠ .voice u → ownedRegion s u2 = some (b2, n2) →
          b + (ksLength c f s.fs).toNat ≤ b2 ∨ b2 + n2 ≤ b) ∧ s.noise ≠ 0 := by
  rw [ksOK_iff]
  refine and_congr_right fun _ => and_congr_right fun _ => and_congr_right fun _ => and_congr_right fun _ =>
    and_congr_right fun _ => and_congr_right fun hlen => ?_
  have hpos : 1 ≤ (ksLength c f s.fs).toNat := by omega
  simp only [regionOK_iff, hpos, true_and, and_assoc]

section Construct
variable {s : State} {v : BitVec 4} (hv : v.toNat < Config.NV)
include hv

theorem execOscKs_of_not_ok (hok : ¬ ksOK (commandPlace s) s.p[0] s.p[1] s.p[2] s.p[3].toNat ⟨v.toNat, hv⟩ s = true) :
    execOscKs v s = .next (recorded .invalidParameter (encode (.oscKs v)) s) := by
  rw [execOscKs, onVoice_of_lt hv, ← raise_eq]
  exact if_pos (eq_false_of_ne_true hok)

/-- NOISE after L draws, the new record, and a RAM in which the region alone holds the draws: the fill stays inside the
RAM (R76). -/
theorem execOscKs_of_ok (hok : ksOK (commandPlace s) s.p[0] s.p[1] s.p[2] s.p[3].toNat ⟨v.toNat, hv⟩ s = true)
    {len : Nat} (hlen : (ksLength (commandPlace s) s.p[0] s.fs).toNat = len) :
    ∃ m, execOscKs v s = .next ({ s with ram := m, noise := xorshift32^[len] s.noise }.setVoice ⟨v.toNat, hv⟩
        (ksVoice s.p[0] s.p[1] s.p[2] s.p[3].toNat len s.fs)) ∧
      ∀ a, ramWord { s with ram := m, noise := xorshift32^[len] s.noise } a =
        if s.p[3].toNat ≤ a ∧ a < s.p[3].toNat + len then
          noiseValue (commandPlace s) (xorshift32^[a - s.p[3].toNat + 1] s.noise)
        else ramWord s a := by
  subst hlen
  obtain ⟨_, _, _, _, _, _, ⟨hb, hn⟩, _, _⟩ := (ksOK_regions_iff ..).mp hok
  obtain ⟨m, hfill, hwords, _⟩ :=
    noiseFill_spec (ksLength (commandPlace s) s.p[0] s.fs).toNat s.p[3].toNat s (by omega)
  refine ⟨m, ?_, hwords⟩
  rw [execOscKs, onVoice_of_lt hv, show s.argNat 3 = s.p[3].toNat from rfl, show s.arg 0 = s.p[0] from rfl]
  simp only [hfill]
  exact if_neg (ne_false_of_eq_true hok)

end Construct

/-- Settles O42: filling the region draws L times and changes NOISE and the RAM alone. -/
theorem karplusStrongConstruction : Obligations.KarplusStrongConstruction := by
  intro s v hv c f b ratio len ok
  have check : ksOK c f s.p[1] s.p[2] b ⟨v.toNat, hv⟩ s = true ↔ ok := ksOK_regions_iff ..
  refine ⟨fun hok => ?built, fun hok => ?refused⟩
  case built =>
    obtain ⟨m, hexec, hwords⟩ := execOscKs_of_ok hv (check.mpr hok) (len := len) rfl
    exact ⟨_, hexec, rfl, hwords⟩
  case refused => exact execOscKs_of_not_ok hv fun h => hok (check.mp h)

/-! ### One string step (44_karplus_strong.md R216, R217) -/

/-- Settles O47: the step's one write is read back at every address. -/
theorem stringStepAveragesOldestTwo : Obligations.StringStepAveragesOldestTwo := by
  intro s tick v vo c nx a b hold hnext
  exact ⟨_, ksStep_eq hold hnext, rfl, ramWord_insert s _ (ksDamp c vo.decay a b)⟩

/-- A product that lies in [-1.0, 1.0] exactly is rounded to a number there: the rounding does not cross 1.0. -/
theorem inUnitRange_fMul {c : Config.At} {x y : F64} (hx : isFinite x = true) (hy : isFinite y = true)
    (h : |realValue x * realValue y| ≤ 1) : inUnitRange (fMul c x y) = true := by
  have hr := fMul_roundsTo (c := c) hx hy
  rw [inUnitRange_iff hr.1, ← realValue_fOne]
  exact roundsTo_abs_le hr (by decide) (by rwa [realValue_fOne])

/-- The sum of two numbers of [-1.0, 1.0] is rounded to a number of [-2.0, 2.0]. -/
theorem abs_fAdd_le_two {c : Config.At} {a b : F64} (ha : inUnitRange a = true) (hb : inUnitRange b = true) :
    isFinite (fAdd c a b) = true ∧ |realValue (fAdd c a b)| ≤ 2 := by
  obtain ⟨ha, ha1⟩ := finite_of_inUnitRange ha
  obtain ⟨hb, hb1⟩ := finite_of_inUnitRange hb
  have hr := fAdd_roundsTo (c := c) ha hb
  have hsum : |realValue a + realValue b| ≤ 2 := (abs_add_le _ _).trans (by linarith)
  have hle : |realValue (fAdd c a b)| ≤ 2 := by
    rw [← realValue_fTwo]
    exact roundsTo_abs_le hr (by decide) (by rwa [realValue_fTwo])
  exact ⟨isFinite_of_abs_le hr.1 (k := 1) (by norm_num) (by rwa [pow_one]), hle⟩

/-- The average of two numbers of [-1.0, 1.0], rounded twice. -/
theorem inUnitRange_average {c : Config.At} {a b : F64} (ha : inUnitRange a = true) (hb : inUnitRange b = true) :
    inUnitRange (fMul c (fAdd c a b) fHalf) = true := by
  obtain ⟨hs, hs2⟩ := abs_fAdd_le_two (c := c) ha hb
  refine inUnitRange_fMul hs (by decide) ?_
  rw [realValue_fHalf, abs_mul, abs_of_pos (a := (1 / 2 : ℚ)) (by norm_num)]
  linarith

/-- Settles O48: the average is in range, and the damping factor does not enlarge it. -/
theorem stringStaysInRange : Obligations.StringStaysInRange := by
  intro c d a b hd hd0 hd1 ha hb
  obtain ⟨havg, havg1⟩ := finite_of_inUnitRange (inUnitRange_average (c := c) ha hb)
  rw [fLe_iff (by decide) (isNaN_of_finite hd), realValue_fZero] at hd0
  rw [fLe_iff (isNaN_of_finite hd) (by decide), realValue_fOne] at hd1
  refine inUnitRange_fMul hd havg ?_
  rw [abs_mul, abs_of_nonneg hd0]
  exact mul_le_one₀ hd1 (abs_nonneg _) havg1

end Sys2Proof.Machine
end

section
/-! PROOFS of the statements of 45_pipeline.md: START (R240 to R242), STEP and the sample step (R245, R250, R252), the mix
(R255, R256) and the quantizer (R260, R261). -/

namespace Sys2Proof.Machine

/-! ### START (45_pipeline.md R240 to R242) -/

theorem execStart_of_ok {s : State} (h : renderOK s = true) : execStart s =
    if s.length = 0 then .next (enterDone (latchRender s)) else .next { latchRender s with runState := .running } :=
  if_neg (by rw [h]; decide)

theorem execStart_of_not_ok {s : State} (h : ¬ renderOK s = true) :
    execStart s = .next (recorded .invalidParameter (encode .start) s) := by
  rw [← raise_eq]; exact if_pos (eq_false_of_ne_true h)

/-- Settles O49: R241's check is `RenderOK`, and LENGTH alone decides where an accepted render starts. -/
theorem startLatchesOrRefuses : Obligations.StartLatchesOrRefuses := by
  intro s ok latched
  have check : renderOK s = true ↔ ok := renderOK_iff s
  refine ⟨fun h hl => ?_, fun h hl => ?_, fun h => execStart_of_not_ok (mt check.mp h)⟩
  · exact (execStart_of_ok (check.mpr h)).trans (if_pos hl)
  · exact (execStart_of_ok (check.mpr h)).trans (if_neg hl)

/-! ### STEP by the state of the render (45_pipeline.md R245) -/

theorem encode_step (n : BitVec 20) : encode (.step n) = 0x0C000000#32 ||| n.setWidth 32 := by
  have e : encode (.step n) = 0xC0#12 ++ n := rfl
  rw [e, BitVec.append_def]
  rfl

theorem execStep_of_no_render {s : State} (h : s.runState = .idle ∨ s.runState = .aborted) (n : BitVec 20) :
    execStep n s = .next (recorded .stateError (encode (.step n)) s) := by
  rw [← raise_eq]
  unfold execStep
  rcases h with h | h <;> rw [h]

theorem execStep_of_render {s : State} (h : s.runState = .running ∨ s.runState = .done) (n : BitVec 20) :
    execStep n s = outcome (sampleSteps (encode (.step n)) n.toNat s) := by
  unfold execStep
  rcases h with h | h <;> rw [h]

theorem sampleSteps_of_running {s : State} (h : s.runState = .running) (w : CmdWord) (k : Nat) :
    sampleSteps w (k + 1) s = (sampleStep w s).bind (sampleSteps w k) := if_pos h

theorem sampleSteps_of_not_running {s : State} (h : s.runState ≠ .running) (w : CmdWord) (k : Nat) :
    sampleSteps w k s = .ok s := by
  cases k with
  | zero => rfl
  | succ k => exact if_neg h

/-- Settles O50, by the state of the render. -/
theorem stepOutsideRender : Obligations.StepOutsideRender := by
  intro s n
  refine ⟨fun h => ?refused, fun h => ?done, fun h hn => ?none⟩
  case refused => rw [← encode_step]; exact execStep_of_no_render h n
  case done =>
    refine (execStep_of_render (.inr h) n).trans ?_
    rw [sampleSteps_of_not_running (by rw [h]; decide)]
    rfl
  case none => subst hn; exact execStep_of_render (.inl h) 0

/-! ### One sample step (45_pipeline.md R250, R252) -/

theorem sampleStep_of_finite {s u : State} {m : F64} (h : mixSample s = .ok (m, u)) (hm : isFinite m = true)
    (w : CmdWord) :
    sampleStep w s = .ok (finishSample (quantize ⟨s.freeTick, .mixer⟩ m u.runBits.toNat) u) := by
  unfold sampleStep; rw [h]; exact congrArg Except.ok (if_pos hm)

theorem sampleStep_of_not_finite {s u : State} {m : F64} (h : mixSample s = .ok (m, u)) (hm : isFinite m = false)
    (w : CmdWord) : sampleStep w s = .ok (overflowSample w u) := by
  unfold sampleStep; rw [h]; exact congrArg Except.ok (if_neg (by rw [hm]; decide))

/-- Both ends of a sample step with a PCM word, before the render's last one and at it. -/
theorem finishSample_eq (q : Int) (s : State) :
    finishSample q s = { s with
      stream := s.stream ++ [BitVec.ofInt 32 q], irqHeld := irqLine s, pcmLast := BitVec.ofInt 64 q,
      sampleIdx := s.sampleIdx + 1,
      runState := if s.sampleIdx + 1 = s.runLength then .done else s.runState,
      irqPend := if s.sampleIdx + 1 = s.runLength then s.irqPend ||| 2#3 else s.irqPend } := by
  by_cases h : s.sampleIdx + 1 = s.runLength
  · rw [finishSample_last h, if_pos h, if_pos h]
  · rw [finishSample_more h, if_neg h, if_neg h]

/-- One turn of STEP's loop (R245): a sample step while the render is RUNNING. -/
def stepTurn (w : CmdWord) (s : State) : Except Fault State := if s.runState = .running then sampleStep w s else .ok s

theorem sampleSteps_succ (w : CmdWord) (k : Nat) (s : State) :
    sampleSteps w (k + 1) s = (stepTurn w s).bind (sampleSteps w k) := by
  unfold stepTurn
  split
  next h => exact sampleSteps_of_running h w k
  next h => rw [sampleSteps_of_not_running h]; exact (sampleSteps_of_not_running h w k).symm

/-- The loop is its turn iterated; a fault stays a fault. -/
theorem sampleSteps_eq_iterate (w : CmdWord) (k : Nat) : ∀ s : State,
    sampleSteps w k s = (fun r : Except Fault State => r.bind (stepTurn w))^[k] (.ok s) := by
  induction k with
  | zero => exact fun _ => rfl
  | succ k ih =>
    intro s
    rw [sampleSteps_succ, Function.iterate_succ_apply, show (Except.ok s).bind (stepTurn w) = stepTurn w s from rfl]
    cases stepTurn w s with
    | ok t => exact ih t
    | error f => exact (Function.iterate_fixed (f := fun r : Except Fault State => r.bind (stepTurn w)) rfl k).symm

/-- Settles O53: the two ends of a sample step, and the loop of STEP as its turn iterated. -/
theorem sampleStepEmitsOrAborts : Obligations.SampleStepEmitsOrAborts := by
  refine ⟨fun w s u m h => ⟨fun hm => ?emits, fun hm => ?aborts⟩, fun s h => ?one, fun s n h => ?many⟩
  case emits => rw [sampleStep_of_finite h hm, finishSample_eq]
  case aborts => rw [sampleStep_of_not_finite h hm, overflowSample_eq]
  case one =>
    refine (execStep_of_render (.inl h) 1).trans (congrArg outcome ((sampleSteps_of_running h _ 0).trans ?_))
    cases sampleStep (encode (.step 1)) s <;> rfl
  case many => exact (execStep_of_render h n).trans (congrArg outcome (sampleSteps_eq_iterate _ _ s))

/-! ### Requests that add up (45_pipeline.md R245) -/

theorem sampleSteps_add (w : CmdWord) (j k : Nat) : ∀ s : State,
    sampleSteps w (j + k) s = (sampleSteps w j s).bind (sampleSteps w k) := by
  induction j with
  | zero => intro s; rw [Nat.zero_add]; rfl
  | succ j ih =>
    intro s
    rw [Nat.add_right_comm, sampleSteps_succ, sampleSteps_succ]
    cases stepTurn w s with
    | ok t => exact ih t
    | error f => rfl

/-- The command word is read only to record an overflow, so it does not matter to a sample step that does not abort. -/
theorem sampleStep_of_not_aborted {w w' : CmdWord} {s t : State} (h : sampleStep w s = .ok t)
    (ht : t.runState ≠ .aborted) : sampleStep w' s = .ok t := by
  obtain ⟨⟨m, u⟩, hmix, _⟩ := map_ok h
  cases hm : isFinite m with
  | true => rw [← h, sampleStep_of_finite hmix hm, sampleStep_of_finite hmix hm]
  | false =>
    rw [sampleStep_of_not_finite hmix hm, overflowSample_eq] at h
    cases h
    exact absurd rfl ht

theorem sampleSteps_of_not_aborted {w w' : CmdWord} (k : Nat) : ∀ {s t : State}, sampleSteps w k s = .ok t →
    t.runState ≠ .aborted → sampleSteps w' k s = .ok t := by
  induction k with
  | zero => exact fun h _ => h
  | succ k ih =>
    intro s t h ht
    by_cases hs : s.runState = .running
    · rw [sampleSteps_of_running hs] at h ⊢
      obtain ⟨r, hr, hrest⟩ := bind_ok h
      have hr' : r.runState ≠ .aborted := by
        intro e
        rw [sampleSteps_of_not_running (by rw [e]; decide)] at hrest
        cases hrest
        exact ht e
      rw [sampleStep_of_not_aborted hr hr']
      exact ih hrest ht
    · rw [sampleSteps_of_not_running hs] at h ⊢
      exact h

theorem outcome_next {r : Except Fault State} {t : State} (h : outcome r = .next t) : r = .ok t := by
  cases r with
  | ok s => cases h; rfl
  | error f => cases h

/-- A STEP that ends RUNNING or DONE was not refused. -/
theorem sampleSteps_of_execStep {s t : State} {n : BitVec 20} (h : execStep n s = .next t)
    (ht : t.runState = .running ∨ t.runState = .done) :
    (s.runState = .running ∨ s.runState = .done) ∧ sampleSteps (encode (.step n)) n.toNat s = .ok t := by
  have hs : ¬ (s.runState = .idle ∨ s.runState = .aborted) := by
    intro hs
    rw [execStep_of_no_render hs] at h
    cases h
    have e : s.runState = .running ∨ s.runState = .done := ht
    rcases hs with hs | hs <;> simp [hs] at e
  have hs' : s.runState = .running ∨ s.runState = .done := by
    revert hs; cases s.runState <;> decide
  exact ⟨hs', outcome_next ((execStep_of_render hs' n).symm.trans h)⟩

/-- Settles O52: neither request aborts, so both are the same loop with the command word of the sum. -/
theorem stepsAddUp : Obligations.StepsAddUp := by
  intro s t u a b hab hs hst htu hu
  have not_aborted : ∀ {r : State}, r.runState = .running ∨ r.runState = .done → r.runState ≠ .aborted := by
    rintro r (h | h) <;> rw [h] <;> decide
  obtain ⟨ht, hb⟩ := sampleSteps_of_execStep htu hu
  obtain ⟨_, ha⟩ := sampleSteps_of_execStep hst ht
  have hsum : (a + b).toNat = a.toNat + b.toNat := BitVec.toNat_add_of_lt hab
  refine (execStep_of_render hs (a + b)).trans ?_
  rw [hsum, sampleSteps_add, sampleSteps_of_not_aborted _ ha (not_aborted ht)]
  exact congrArg outcome (sampleSteps_of_not_aborted _ hb (not_aborted hu))

/-! ### A STEP of a running render (45_pipeline.md R245, R250, R252, R262) -/

/-- Only what a STEP may write differs. -/
def StepFrame (s t : State) : Prop :=
  t = { s with
    stream := t.stream, sampleIdx := t.sampleIdx, pcmLast := t.pcmLast, runState := t.runState, irqPend := t.irqPend,
    irqHeld := t.irqHeld, err := t.err, errOvf := t.errOvf, errInfo := t.errInfo, voices := t.voices,
    stages := t.stages, ram := t.ram, freeTick := t.freeTick }

theorem StepFrame.trans {s t u : State} (h : StepFrame s t) (k : StepFrame t u) : StepFrame s u := by
  unfold StepFrame at *; rw [k, h]

/-- The units' records and words, put into `s`, are those of `s` moved on. -/
def UnitsOnly (s t : State) : Prop := UnitsMoved s { s with voices := t.voices, stages := t.stages, ram := t.ram }

theorem UnitsOnly.refl (s : State) : UnitsOnly s s := UnitsMoved.refl s

/-- A RAM put into a state with the same power-on count reads as where it came from. -/
theorem ramWord_with_ram {s t : State} (hp : t.powerOns = s.powerOns) (vs : Vector Voice Config.NV)
    (ss : Vector (Vector Stage Config.NS) Config.NV) (a : Nat) :
    ramWord { s with voices := vs, stages := ss, ram := t.ram } a = ramWord t a := by
  unfold ramWord; rw [hp]

theorem UnitsOnly.outside {s t : State} (h : UnitsOnly s t) (hp : t.powerOns = s.powerOns) {a : Nat}
    (ha : unowned s a) : ramWord t a = ramWord s a :=
  (ramWord_with_ram hp t.voices t.stages a).symm.trans (UnitsMoved.outside h a ha)

theorem UnitsOnly.trans {s t u : State} (h : UnitsOnly s t) (k : UnitsOnly t u) (hp : t.powerOns = s.powerOns) :
    UnitsOnly s u := by
  refine UnitsMoved.trans h ⟨rfl, k.voices, k.stages, fun a ha => ?_⟩
  have hown : ownedRegion { s with voices := t.voices, stages := t.stages, ram := t.ram } = ownedRegion t :=
    ownedRegion_congr rfl rfl
  have hout := UnitsMoved.outside k a (by unfold unowned at *; rwa [← hown])
  rw [ramWord_with_ram hp, ← hout]
  unfold ramWord
  rw [hp]

/-- The error record of `t` is that of `s`. -/
def SameErrors (s t : State) : Prop := t.err = s.err ∧ t.errOvf = s.errOvf ∧ t.errInfo = s.errInfo

/-- Where up to `k` sample steps from `s` may end, `n` words later: RUNNING, DONE or ABORTED. -/
def StepEnd (w : CmdWord) (k n : Nat) (s t : State) : Prop :=
  (t.runState = .running ∧ n = k ∧ t.irqPend = s.irqPend ∧ SameErrors s t) ∨
    (t.runState = .done ∧ t.sampleIdx = s.runLength ∧ t.irqPend = s.irqPend ||| 2#3 ∧ SameErrors s t) ∨
    (t.runState = .aborted ∧ n < k ∧ t.irqPend = (recorded .numericOverflow w s).irqPend ||| 4#3 ∧
      SameErrors (recorded .numericOverflow w s) t)

theorem StepEnd.of_running {w : CmdWord} {k n : Nat} {s t : State} (h : StepEnd w k n s t)
    (ht : t.runState = .running) : n = k ∧ t.irqPend = s.irqPend ∧ SameErrors s t := by
  rcases h with ⟨_, hrest⟩ | ⟨hd, _⟩ | ⟨ha, _⟩
  · exact hrest
  · rw [ht] at hd; cases hd
  · rw [ht] at ha; cases ha

/-- One more sample step before, which leaves the error record and the pending bits alone. -/
theorem StepEnd.succ {w : CmdWord} {k n : Nat} {s t u : State} (hpend : t.irqPend = s.irqPend) (herr : SameErrors s t)
    (hlen : t.runLength = s.runLength) (h : StepEnd w k n t u) : StepEnd w (k + 1) (n + 1) s u := by
  obtain ⟨he, hovf, hinfo⟩ := herr
  unfold StepEnd SameErrors recorded at h ⊢
  rw [Nat.succ_inj, Nat.succ_lt_succ_iff]
  rwa [hpend, he, hovf, hinfo, hlen] at h

/-- Up to `k` sample steps with the command word `w` lead from `s` to `t` and emit the words `ws`. -/
structure Rendered (w : CmdWord) (k : Nat) (s : State) (ws : List (BitVec 32)) (t : State) : Prop where
  frame : StepFrame s t
  stream : t.stream = s.stream ++ ws
  held : t.irqHeld = if ws = [] then s.irqHeld else irqLine s
  length : ws.length ≤ k
  index : t.sampleIdx.toNat = s.sampleIdx.toNat + ws.length
  last : ∀ x, ws.getLast? = some x → t.pcmLast = x.signExtend 64
  silent : ws = [] → t.pcmLast = s.pcmLast
  ending : StepEnd w k ws.length s t
  units : UnitsOnly s t

theorem Rendered.refl {s : State} (h : s.runState = .running) (w : CmdWord) : Rendered w 0 s [] s where
  frame := rfl
  stream := (List.append_nil _).symm
  held := rfl
  length := le_refl 0
  index := rfl
  last := nofun
  silent _ := rfl
  ending := .inl ⟨h, rfl, rfl, rfl, rfl, rfl⟩
  units := .refl s

/-- A render that has stopped is not changed by the sample steps still asked for. -/
theorem Rendered.of_stopped {w : CmdWord} {j k : Nat} {s t : State} {ws : List (BitVec 32)} (h : Rendered w j s ws t)
    (ht : t.runState ≠ .running) (hjk : j ≤ k) : Rendered w k s ws t := by
  refine { h with length := h.length.trans hjk, ending := ?_ }
  rcases h.ending with ⟨hr, _⟩ | hd | ⟨ha, hn, hrest⟩
  · exact absurd hr ht
  · exact .inr (.inl hd)
  · exact .inr (.inr ⟨ha, hn.trans_le hjk, hrest⟩)

/-- After a first word that leaves the render RUNNING the rest of the STEP goes on. -/
theorem Rendered.cons {w : CmdWord} {k : Nat} {s t u : State} {x : BitVec 32} {ws : List (BitVec 32)}
    (h : Rendered w 1 s [x] t) (ht : t.runState = .running) (hk : Rendered w k t ws u) :
    Rendered w (k + 1) s (x :: ws) u := by
  have hlen : t.runLength = s.runLength := by rw [h.frame]
  have hpo : t.powerOns = s.powerOns := by rw [h.frame]
  have hline : irqLine t = t.irqHeld := irqLine_of_stalled (by rw [h.stream]; simp)
  obtain ⟨_, hpend, herr⟩ := h.ending.of_running ht
  refine ⟨h.frame.trans hk.frame, ?stream, ?held, ?length, ?index, ?last, nofun, hk.ending.succ hpend herr hlen,
    h.units.trans hk.units hpo⟩
  case stream => rw [hk.stream, h.stream, List.append_assoc]; rfl
  case held => rw [hk.held, hline, ite_self, h.held]; rfl
  case length => exact Nat.succ_le_succ hk.length
  case index => rw [hk.index, h.index]; simp only [List.length_cons, List.length_nil]; omega
  case last =>
    intro y hy
    by_cases hws : ws = []
    · subst hws
      rw [hk.silent rfl]
      exact h.last y hy
    · rw [List.getLast?_cons_of_ne_nil hws] at hy
      exact hk.last y hy

/-- A render that is RUNNING has not counted to LENGTH yet, so its index does not wrap. -/
theorem Inv.toNat_sampleIdx_succ {s : State} (h : Inv s) (hrun : s.runState = .running) :
    (s.sampleIdx + 1).toNat = s.sampleIdx.toNat + 1 := by
  have hidx := h.sampleIndex
  unfold sampleIndexOk at hidx
  simp only [hrun] at hidx
  exact BitVec.toNat_add_of_lt (lt_of_le_of_lt hidx s.runLength.isLt)

/-- The order in which an abort sets PEND_ABORT and PEND_ERR does not matter. -/
theorem pend_abort_error_comm (x : BitVec 3) : x ||| 4#3 ||| 1#3 = x ||| 1#3 ||| 4#3 := by
  rw [BitVec.or_assoc, BitVec.or_assoc]; rfl

section OneStep
variable {s u : State} (hrun : s.runState = .running) (hm : UnitsMoved s u) (w : CmdWord) (tick : Nat)
include hm

theorem rendered_overflowSample : Rendered w 1 s [] (overflowSample w { u with freeTick := tick }) := by
  obtain ⟨vs, ss, m, rfl⟩ : ∃ vs ss m, u = { s with voices := vs, stages := ss, ram := m } := ⟨_, _, _, hm.frame⟩
  rw [overflowSample_eq]
  exact
    { frame := rfl
      stream := (List.append_nil _).symm
      held := rfl
      length := Nat.zero_le 1
      index := rfl
      last := nofun
      silent _ := rfl
      ending := .inr (.inr ⟨rfl, Nat.one_pos, pend_abort_error_comm _, rfl, rfl, rfl⟩)
      units := hm }

include hrun

theorem rendered_finishSample (h : Inv s) {q : Int} (h1 : -(fullScale s.runBits.toNat : Int) ≤ q)
    (h2 : q < fullScale s.runBits.toNat) :
    Rendered w 1 s [BitVec.ofInt 32 q] (finishSample q { u with freeTick := tick }) := by
  obtain ⟨vs, ss, m, rfl⟩ : ∃ vs ss m, u = { s with voices := vs, stages := ss, ram := m } := ⟨_, _, _, hm.frame⟩
  rw [finishSample_eq]
  refine
    { frame := rfl
      stream := rfl
      held := rfl
      length := le_refl 1
      index := h.toNat_sampleIdx_succ hrun
      last := fun x hx => ?last
      silent := nofun
      ending := ?ending
      units := hm }
  case last =>
    cases hx
    obtain ⟨_, _, hbits, _⟩ := h.renderParams
    exact (signExtend_ofInt hbits h1 h2).symm
  case ending =>
    by_cases hlast : s.sampleIdx + 1 = s.runLength
    · exact .inr (.inl ⟨if_pos hlast, hlast, if_pos hlast, rfl, rfl, rfl⟩)
    · exact .inl ⟨(if_neg hlast).trans hrun, rfl, if_neg hlast, rfl, rfl, rfl⟩

end OneStep

/-- One sample step of a running render. -/
theorem sampleStep_rendered {s : State} (h : Inv s) (hrun : s.runState = .running) (w : CmdWord) :
    ∃ t ws, sampleStep w s = .ok t ∧ Inv t ∧ Rendered w 1 s ws t := by
  obtain ⟨t, hstep, ht⟩ := h.sampleStep hrun w
  obtain ⟨u, hm, _, ⟨q, h1, h2, e⟩ | e⟩ := sampleStep_cases w h.units
  all_goals cases Except.ok.inj (hstep.symm.trans e)
  · exact ⟨_, _, hstep, ht, rendered_finishSample hrun hm w _ h h1 h2⟩
  · exact ⟨_, _, hstep, ht, rendered_overflowSample hm w _⟩

theorem sampleSteps_rendered (w : CmdWord) (k : Nat) : ∀ {s : State}, Inv s → s.runState = .running →
    ∃ t ws, sampleSteps w k s = .ok t ∧ Rendered w k s ws t := by
  induction k with
  | zero => exact fun _ hrun => ⟨_, [], rfl, .refl hrun w⟩
  | succ k ih =>
    intro s h hrun
    obtain ⟨t, xs, hstep, ht, hone⟩ := sampleStep_rendered h hrun w
    rw [sampleSteps_of_running hrun, hstep]
    by_cases hgo : t.runState = .running
    · obtain ⟨u, ws, hrest, hmany⟩ := ih ht hgo
      obtain ⟨x, rfl⟩ := List.length_eq_one_iff.mp (hone.ending.of_running hgo).1
      exact ⟨u, x :: ws, hrest, hone.cons hgo hmany⟩
    · exact ⟨t, xs, sampleSteps_of_not_running hgo w k, hone.of_stopped hgo (by omega)⟩

/-- Settles O51: by induction on the count, each sample step emits one word, or stops the render. -/
theorem runningStepCompletes : Obligations.RunningStepCompletes := by
  intro s n h hrun
  obtain ⟨t, ws, hsteps, r⟩ := sampleSteps_rendered (encode (.step n)) n.toNat h hrun
  refine ⟨t, ws, ?exec, ?frame, r.length, r.index, r.last, r.silent, r.ending, r.units.voices, r.units.stages, ?outside⟩
  case exec => exact (execStep_of_render (.inl hrun) n).trans (congrArg outcome hsteps)
  case frame => rw [← r.stream, ← r.held]; exact r.frame
  case outside =>
    have hpo : t.powerOns = s.powerOns := by rw [r.frame]
    exact fun _ ha => UnitsOnly.outside r.units hpo ha

/-! ### The mix (45_pipeline.md R250, R251, R255, R256) -/

/-- The value of an oscillator with the record `vo` (R251). -/
def oscValue (tick : Nat) (v : Fin Config.NV) (t : F64) (vo : Voice) : F64 :=
  match vo.kind with
  | .sine => sineWave ⟨tick, .generator v⟩ vo.freq t
  | .square => squareWave ⟨tick, .generator v⟩ vo.freq t
  | .triangle => triangleWave ⟨tick, .generator v⟩ vo.freq t
  | _ => sawWave ⟨tick, .generator v⟩ vo.freq t

theorem genValue_of_off {tick : Nat} {v : Fin Config.NV} {s : State} (h : (s.voice v).kind = .off) (t : F64) :
    genValue tick v t s = none := by
  unfold genValue; simp only [h]

theorem genValue_of_ks {tick : Nat} {v : Fin Config.NV} {s : State} (h : (s.voice v).kind = .ks) (t : F64) :
    genValue tick v t s = some (ksStep tick v s) := by
  unfold genValue; simp only [h]

theorem genValue_of_oscillator {tick : Nat} {v : Fin Config.NV} {s : State} (h : (s.voice v).kind ≠ .off)
    (h' : (s.voice v).kind ≠ .ks) (t : F64) :
    genValue tick v t s = some (.ok (oscValue tick v t (s.voice v), s)) := by
  unfold genValue oscValue
  cases hk : (s.voice v).kind
  case off => exact absurd hk h
  case ks => exact absurd hk h'
  all_goals rfl

/-! The units leave the gains alone. -/

theorem ksStep_gain {tick : Nat} {v : Fin Config.NV} {s u : State} {y : F64} (h : ksStep tick v s = .ok (y, u))
    (w : Fin Config.NV) : (u.voice w).gain = (s.voice w).gain := by
  obtain ⟨a, _, h⟩ := bind_ok h
  obtain ⟨c, _, h⟩ := bind_ok h
  obtain ⟨t, hw, h⟩ := map_ok h
  cases h
  obtain ⟨_, rfl⟩ := memWrite_ok_iff.mp hw
  by_cases e : w = v
  · subst e; rw [voice_setVoice_same]
  · rw [voice_setVoice_ne _ _ e]; rfl

/-- A buffer stage's one write and its cursor leave the voices alone. -/
theorem bufferStep_voices {a : Nat} {v : Fin Config.NV} {st : Fin Config.NS} {r : Stage} {f x : F64 → F64} {y : F64}
    {s u : State}
    (h : ((memRead a s).bind fun d => (memWrite a (x d) s).map fun t => (f d, t.setStage v st r)) = .ok (y, u)) :
    u.voices = s.voices := by
  obtain ⟨d, _, h⟩ := bind_ok h
  obtain ⟨t, hw, h⟩ := map_ok h
  cases h
  obtain ⟨_, rfl⟩ := memWrite_ok_iff.mp hw
  rfl

theorem stageStep_voices {tick : Nat} {v : Fin Config.NV} {st : Fin Config.NS} {x y : F64} {s u : State}
    (h : stageStep tick v st x s = .ok (y, u)) : u.voices = s.voices := by
  unfold stageStep at h
  cases hk : (s.stage v st).kind <;> rw [hk] at h
  case bypass => cases h; rfl
  case comb => exact bufferStep_voices (x := combOutput ⟨tick, .stage v st⟩ (s.stage v st).g x) h
  case delay => exact bufferStep_voices (x := fun _ => x) h
  all_goals cases h; rfl

/-- A generator's value through both stages, with the gain the voice had at first (R250, R256). -/
theorem mixIn_stages {tick : Nat} {v : Fin Config.NV} {acc gain : F64} {g : F64 × State}
    (hg : (g.2.voice v).gain = gain) :
    ((stageChain tick v (List.finRange Config.NS) g.1 g.2).map fun y =>
        (mixIn tick acc y.1 (y.2.voice v).gain, y.2)) =
      (stageStep tick v 0 g.1 g.2).bind fun a =>
        (stageStep tick v 1 a.1 a.2).map fun b => (mixIn tick acc b.1 gain, b.2) := by
  rw [stageChain_two, map_of_bind]
  refine bind_congr_ok fun a ha => map_congr_ok fun b hb => ?_
  have e : b.2.voices = g.2.voices := (stageStep_voices hb).trans (stageStep_voices ha)
  rw [← hg, State.voice, State.voice, e]

/-- R250's turn of the loop over voices, unit by unit. -/
theorem voiceTurn_eq (tick : Nat) (t : F64) (v : Fin Config.NV) (acc : F64) (s : State) :
    voiceTurn tick t v acc s =
      if (s.voice v).kind = .off then .ok (acc, s)
      else
        (if (s.voice v).kind = .ks then ksStep tick v s else .ok (oscValue tick v t (s.voice v), s)).bind fun g =>
          (stageStep tick v 0 g.1 g.2).bind fun a =>
            (stageStep tick v 1 a.1 a.2).map fun b => (mixIn tick acc b.1 (s.voice v).gain, b.2) := by
  unfold voiceTurn
  by_cases hoff : (s.voice v).kind = .off
  · rw [if_pos hoff, genValue_of_off hoff]
  rw [if_neg hoff]
  by_cases hks : (s.voice v).kind = .ks
  · rw [if_pos hks, genValue_of_ks hks]
    exact bind_congr_ok fun g hg => mixIn_stages (ksStep_gain hg v)
  · rw [if_neg hks, genValue_of_oscillator hoff hks]
    exact mixIn_stages rfl

theorem voiceLoop_eq_foldlM (tick : Nat) (t : F64) (l : List (Fin Config.NV)) : ∀ (acc : F64) (s : State),
    voiceLoop tick t l acc s = l.foldlM (fun r v => voiceTurn tick t v r.1 r.2) (acc, s) := by
  induction l with
  | nil => exact fun _ _ => rfl
  | cons v rest ih =>
    intro acc s
    rw [voiceLoop, List.foldlM_cons]
    exact bind_congr_ok fun r _ => ih r.1 r.2

theorem mixSample_eq (s : State) :
    mixSample s = ((List.finRange Config.NV).foldlM (fun r v => voiceTurn s.freeTick (sampleTime s) v r.1 r.2)
      (fZero, s)).map fun r =>
        (fDiv ⟨s.freeTick, .mixer⟩ r.1 s.runHeadroom, { r.2 with freeTick := s.freeTick + 1 }) := by
  rw [mixSample, ← voiceLoop_eq_foldlM]
  refine map_congr_ok fun r hr => ?_
  have e : r.2.runHeadroom = s.runHeadroom := by rw [voiceLoop_frame _ hr]
  rw [e]

section Plain
variable {s : State} (hks : ∀ v : Fin Config.NV, (s.voice v).kind ≠ .ks)
  (hst : ∀ (v : Fin Config.NV) (st : Fin Config.NS), (s.stage v st).kind = .bypass)
include hks hst

/-- With oscillators and bypassed stages alone a turn adds one product, or skips the voice. -/
theorem voiceTurn_plain (tick : Nat) (t : F64) (v : Fin Config.NV) (acc : F64) :
    voiceTurn tick t v acc s = .ok
      (if (s.voice v).kind != .off then mixIn tick acc (oscValue tick v t (s.voice v)) (s.voice v).gain else acc, s) := by
  rw [voiceTurn_eq, if_neg (hks v)]
  by_cases hoff : (s.voice v).kind = .off
  · rw [if_pos hoff, if_neg (by simp [hoff])]
  · rw [if_neg hoff, if_pos (bne_iff_ne.mpr hoff)]
    simp only [Except.bind, stageStep_bypass (hst v _), Except.map]

theorem voiceLoop_plain (tick : Nat) (t : F64) (l : List (Fin Config.NV)) : ∀ acc : F64,
    voiceLoop tick t l acc s = .ok ((l.filter fun v => (s.voice v).kind != .off).foldl
      (fun acc v => mixIn tick acc (oscValue tick v t (s.voice v)) (s.voice v).gain) acc, s) := by
  induction l with
  | nil => exact fun _ => rfl
  | cons v rest ih =>
    intro acc
    rw [voiceLoop, voiceTurn_plain hks hst]
    refine (ih _).trans ?_
    rw [List.foldl_filter, List.foldl_filter, List.foldl_cons]

end Plain

/-- Settles O54: the loop over voices is the fold of its turns; a turn with no string and no filter adds one product. -/
theorem oscillatorMixIsOrderedSum : Obligations.OscillatorMixIsOrderedSum := by
  intro s m t wave turn
  have hwave : ∀ (v : Fin Config.NV) (vo : Voice), oscValue s.freeTick v t vo = wave v vo := by
    intro v vo
    unfold oscValue wave
    cases vo.kind <;> rfl
  have hturn : (fun r v => voiceTurn s.freeTick t v r.1 r.2) = turn := by
    funext r v
    rw [voiceTurn_eq, hwave]
    rfl
  refine ⟨?fold, fun hks hst => ?plain⟩
  case fold => rw [← hturn]; exact mixSample_eq s
  case plain =>
    intro active
    simp only [← hwave]
    rw [mixSample, voiceLoop_plain hks hst]
    rfl

/-! ### The quantizer (45_pipeline.md R260, R261) -/

/-- R260 in real numbers: the exact product of the clamped mix and 2^(B-1). -/
def scaledMix (m : F64) (b : Nat) : ℚ := max (-1) (min 1 (realValue m)) * 2 ^ (b - 1)

/-- A product does not depend on the order of its finite operands. -/
theorem fMul_comm_of_finite {c : Config.At} {x y : F64} (hx : isFinite x = true) (hy : isFinite y = true) :
    fMul c x y = fMul c y x := by
  rw [fMul_of_finite hx hy, fMul_of_finite hy hx, Nat.mul_comm, signXor, signXor, bne_comm]

theorem realValue_clamp1 {x : F64} (hx : isNaN x = false) : realValue (clamp1 x) = max (-1) (min 1 (realValue x)) := by
  by_cases h1 : fLt fOne x = true
  · rw [clamp1_of_above h1, realValue_fOne, min_eq_left ((fLt_fOne_iff hx).mp h1).le, max_eq_right (by norm_num)]
  by_cases h2 : fLt x fMinusOne = true
  · have hlt := (fLt_fMinusOne_iff hx).mp h2
    rw [clamp1_of_below hx h2, realValue_fMinusOne, max_eq_left ((min_le_right _ _).trans hlt.le)]
  rw [clamp1_of_inUnitRange hx ((inUnitRange_iff_not_outside hx).mpr ⟨h1, h2⟩)]
  rw [fLt_fOne_iff hx, not_lt] at h1
  rw [fLt_fMinusOne_iff hx, not_lt] at h2
  rw [min_eq_right h1, max_eq_right h2]

section Quantizer
variable {m : F64} {b : Nat} (hm : isFinite m = true) (hb : b ≤ 32)
include hm hb

/-- The product by a power of two does not round. -/
theorem realValue_scaledMix (c : Config.At) :
    realValue (fMul c (clamp1 m) (fOfNat (fullScale b))) = scaledMix m b := by
  obtain ⟨hc, hc1⟩ := finite_of_inUnitRange (inUnitRange_clamp1 (isNaN_of_finite hm))
  obtain ⟨hp, hpv⟩ := fOfNat_pow (b := b - 1) (by omega)
  rw [fullScale, fMul_comm_of_finite hc hp, (fMul_of_power hp (by omega) hpv hc hc1).2, mul_comm,
    realValue_clamp1 (isNaN_of_finite hm), scaledMix]

theorem quantize_eq (c : Config.At) :
    quantize c m b = min (max (if 0 ≤ scaledMix m b then ⌊scaledMix m b + 1 / 2⌋ else ⌈scaledMix m b - 1 / 2⌉)
      (-(2 ^ (b - 1)))) (2 ^ (b - 1) - 1) := by
  rw [quantize, roundHalfAway_eq, realValue_scaledMix hm hb, fullScale, Nat.cast_pow, Nat.cast_ofNat]

end Quantizer

/-- Settles O56: the product is exact, so one rounding is left. -/
theorem quantizerRoundsExactProduct : Obligations.QuantizerRoundsExactProduct :=
  fun c _ _ hm _ hb => quantize_eq hm hb c

theorem scaledMix_mono {m m' : F64} (h : realValue m ≤ realValue m') (b : Nat) : scaledMix m b ≤ scaledMix m' b :=
  mul_le_mul_of_nonneg_right (max_le_max_left _ (min_le_min_left _ h)) (by positivity)

/-- Clamping, scaling, rounding and clipping are each monotone. -/
theorem quantize_mono {m m' : F64} {b : Nat} (hm : isFinite m = true) (hm' : isFinite m' = true)
    (h : realValue m ≤ realValue m') (hb : b ≤ 32) (c : Config.At) : quantize c m b ≤ quantize c m' b := by
  rw [quantize_eq hm hb, quantize_eq hm' hb]
  exact min_le_min_right _ (max_le_max_right _ (halfAway_mono (scaledMix_mono h b)))

/-- The quantizer reads the clamped mix alone. -/
theorem quantize_congr {c : Config.At} {m m' : F64} (h : clamp1 m = clamp1 m') (b : Nat) :
    quantize c m b = quantize c m' b := by
  unfold quantize; rw [h]

theorem quantize_fOne (c : Config.At) : quantize c fOne 16 = 32767 := by
  rw [quantize_eq (by decide) (by decide), scaledMix, realValue_fOne]
  norm_num

theorem quantize_fMinusOne (c : Config.At) : quantize c fMinusOne 16 = -32768 := by
  rw [quantize_eq (by decide) (by decide), scaledMix, realValue_fMinusOne]
  norm_num

/-- Settles O55: 2.0 and -7.5 are clamped to the end points 1.0 and -1.0. -/
theorem quantizerRangeAndOrder : Obligations.QuantizerRangeAndOrder := by
  intro c
  have two : quantize c fTwo 16 = quantize c fOne 16 := quantize_congr (by decide) 16
  have low : quantize c 0xC01E000000000000#64 16 = quantize c fMinusOne 16 := quantize_congr (by decide) 16
  refine ⟨⟨quantize_fOne c, quantize_fMinusOne c, two.trans (quantize_fOne c), low.trans (quantize_fMinusOne c)⟩,
    fun m b _ _ _ => ?range, fun m m' b hm hm' hle _ hb => ?mono⟩
  case range =>
    obtain ⟨hlo, hhi⟩ := quantize_range c m b
    rw [fullScale, Nat.cast_pow, Nat.cast_ofNat] at hlo hhi
    exact ⟨hlo, Int.le_sub_one_of_lt hhi⟩
  case mono =>
    exact quantize_mono hm hm' ((fLe_iff (isNaN_of_finite hm) (isNaN_of_finite hm')).mp hle) hb c

end Sys2Proof.Machine
end

section
/-! PROOFS of the statements of 46_system.md: NOP and SRST (R280, R281), and sample-RAM access with its address check
(R282 to R284). -/

namespace Sys2Proof.Machine

/-! ### RAMRD and RAMWR on either side of the address check (46_system.md R282) -/

section Access
variable {s : State}

theorem execRamrd_of_lt (h : s.argNat 1 < Config.RAM_WORDS) :
    execRamrd s = .next (s.setArg 0 (ramWord s (s.argNat 1))) := by
  rw [execRamrd, if_neg (not_le.mpr h), memRead_of_lt h]

theorem execRamrd_of_ge (h : Config.RAM_WORDS ≤ s.argNat 1) :
    execRamrd s = .next (recorded .addressError (encode .ramrd) s) := by
  rw [execRamrd, if_pos h, raise_eq]

theorem execRamwr_of_lt (h : s.argNat 1 < Config.RAM_WORDS) :
    execRamwr s = .next { s with ram := s.ram.insert (s.argNat 1) (s.arg 0) } := by
  rw [execRamwr, if_neg (not_le.mpr h), memWrite_of_lt _ h, outcome]

theorem execRamwr_of_ge (h : Config.RAM_WORDS ≤ s.argNat 1) :
    execRamwr s = .next (recorded .addressError (encode .ramwr) s) := by
  rw [execRamwr, if_pos h, raise_eq]

end Access

/-- Settles O25: the one write is read back at every address; a refused one records RAMWR's word (R284). -/
theorem ramwrStoresWordOrRecordsAddressError : Obligations.RamwrStoresWordOrRecordsAddressError :=
  fun s => ⟨fun h => ⟨_, execRamwr_of_lt h, rfl, ramWord_insert s (s.argNat 1) (s.arg 0)⟩, execRamwr_of_ge⟩

/-- Settles O22: R280's pseudocode is empty. -/
theorem nopChangesNothing : Obligations.NopChangesNothing := fun _ => rfl

/-- Settles O23: SRST is `softReset`, and R340's soft reset is the state the statement writes out. -/
theorem srstResetsAllButRamAndStream : Obligations.SrstResetsAllButRamAndStream := fun s =>
  show execSrst s = .next (softReset s) from rfl

/-- Settles O24, on either side of the address check; a refused read records RAMRD's word (R283). -/
theorem ramrdReadsWordOrRecordsAddressError : Obligations.RamrdReadsWordOrRecordsAddressError :=
  fun _ => ⟨execRamrd_of_lt, execRamrd_of_ge⟩

end Sys2Proof.Machine
end

section
/-! PROOFS of the statements of 60_exceptions.md: RecordError (R310), precise errors and the table of errors (R301, R304), a
block that never stops (R300), and the IRQ line (R320). -/

namespace Sys2Proof.Machine

/-! ### RecordError (60_exceptions.md R310) -/

theorem recorded_of_none {s : State} (h : s.err = none) (code : ErrorCode) (w : CmdWord) :
    (recorded code w s).err = some code ∧ (recorded code w s).errInfo = w ∧ (recorded code w s).errOvf = s.errOvf := by
  simp [recorded, h]

theorem recorded_of_some {s : State} {e : ErrorCode} (h : s.err = some e) (code : ErrorCode) (w : CmdWord) :
    (recorded code w s).err = some e ∧ (recorded code w s).errInfo = s.errInfo ∧ (recorded code w s).errOvf = true := by
  simp [recorded, h]

theorem recorded_pendErr (code : ErrorCode) (w : CmdWord) (s : State) :
    (recorded code w s).irqPend.getLsbD 0 = true := by
  simp [recorded]

/-- Settles O15, on either side of R310's test of the record. -/
theorem firstErrorIsKeptLaterOnesFlagged : Obligations.FirstErrorIsKeptLaterOnesFlagged := fun code w s =>
  ⟨raise_eq code w s, fun h => recorded_of_none h code w, fun _ h => recorded_of_some h code w,
    recorded_pendErr code w s⟩

/-! ### What a command leaves alone when it records no error -/

/-- The error record, PEND_ERR and the stream of `t` are those of `s`. -/
structure Quiet (s t : State) : Prop where
  errors : SameErrors s t
  pendErr : t.irqPend.getLsbD 0 = s.irqPend.getLsbD 0
  stream : t.stream = s.stream

/-- Fields outside the error record, the pending bits and the stream may hold anything. -/
theorem Quiet.of_eq {s t : State} (herr : t.err = s.err := by rfl) (hovf : t.errOvf = s.errOvf := by rfl)
    (hinfo : t.errInfo = s.errInfo := by rfl) (hpend : t.irqPend = s.irqPend := by rfl)
    (hstream : t.stream = s.stream := by rfl) : Quiet s t :=
  ⟨⟨herr, hovf, hinfo⟩, by rw [hpend], hstream⟩

theorem Quiet.refl (s : State) : Quiet s s := .of_eq

theorem Quiet.trans {s t u : State} (h : Quiet s t) (k : Quiet t u) : Quiet s u := by
  obtain ⟨⟨herr, hovf, hinfo⟩, hpend, hstream⟩ := h
  obtain ⟨⟨herr', hovf', hinfo'⟩, hpend', hstream'⟩ := k
  exact ⟨⟨herr'.trans herr, hovf'.trans hovf, hinfo'.trans hinfo⟩, hpend'.trans hpend, hstream'.trans hstream⟩

theorem quiet_memWrite {a : Nat} {x : Word} {s t : State} (h : memWrite a x s = .ok t) : Quiet s t := by
  obtain ⟨_, rfl⟩ := memWrite_ok_iff.mp h
  exact .of_eq

theorem quiet_zeroFill (n : Nat) : ∀ {b : Nat} {s t : State}, zeroFill n b s = .ok t → Quiet s t := by
  induction n with
  | zero => intro b s t h; cases h; exact .refl s
  | succ n ih =>
    intro b s t h
    obtain ⟨u, hw, hrest⟩ := bind_ok h
    exact (quiet_memWrite hw).trans (ih hrest)

theorem quiet_noiseFill (n : Nat) : ∀ {b : Nat} {s t : State}, noiseFill n b s = .ok t → Quiet s t := by
  induction n with
  | zero => intro b s t h; cases h; exact .refl s
  | succ n ih =>
    intro b s t h
    have hdraw : Quiet s (noiseDraw s).2 := .of_eq
    obtain ⟨u, hw, hrest⟩ := bind_ok h
    exact (hdraw.trans (quiet_memWrite hw)).trans (ih hrest)

/-! ### Precise commands (60_exceptions.md R304) -/

/-- The result of the command `i` at `s`, where it is a next state: one error recorded and nothing else, one that R301
lists if a command word stands for `i`; or no error recorded. -/
def Precise (i : Instr) (s : State) (r : Result) : Prop :=
  ∀ t, r = .next t → (∃ code, (WellFormed i → code ∈ raisedBy i) ∧ t = recorded code (encode i) s) ∨ Quiet s t

section Precise
variable {i : Instr} {s : State}

theorem Precise.next {t : State} (h : Quiet s t) : Precise i s (.next t) := by
  intro t' e
  cases e
  exact .inr h

theorem Precise.same : Precise i s (.next s) := .next (.refl s)

theorem Precise.raise_of_imp {code : ErrorCode} (hc : WellFormed i → code ∈ raisedBy i) :
    Precise i s (raise code (encode i) s) := by
  intro t e
  rw [raise_eq] at e
  cases e
  exact .inl ⟨code, hc, rfl⟩

theorem Precise.raise {code : ErrorCode} (hc : code ∈ raisedBy i) : Precise i s (raise code (encode i) s) :=
  .raise_of_imp fun _ => hc

/-- An index out of range raises IllegalCommand, and no command word stands for such a term. -/
theorem Precise.onVoice {v : BitVec 4} {body : Fin Config.NV → Result} (hw : wellFormedB i = decide (voiceFieldOk v))
    (hb : ∀ u, Precise i s (body u)) : Precise i s (onVoice i v s body) := by
  by_cases hv : v.toNat < Config.NV
  · rw [onVoice_of_lt hv]; exact hb _
  · rw [onVoice_of_ge hv]
    exact .raise_of_imp fun h => absurd (of_decide_eq_true (hw.symm.trans h)) hv

theorem Precise.onStage {v : BitVec 4} {st : BitVec 2} {body : Fin Config.NV → Fin Config.NS → Result}
    (hw : wellFormedB i = (decide (voiceFieldOk v) && decide (stageFieldOk st)))
    (hb : ∀ u su, Precise i s (body u su)) : Precise i s (onStage i v st s body) := by
  by_cases h : v.toNat < Config.NV ∧ st.toNat < Config.NS
  · obtain ⟨hv, hs⟩ := h
    rw [onStage_of_lt hv hs]; exact hb _ _
  · have illegal : Precise i s (Machine.raise .illegalCommand (encode i) s) :=
      .raise_of_imp fun hi => absurd (by simpa using hw.symm.trans hi) h
    rcases onStage_cases i v st s body with ⟨u, su, e⟩ | e <;> rw [e]
    · exact hb u su
    · exact illegal

/-- A command with a parameter check: refused with an error R301 lists, or its own effect. -/
theorem Precise.checked {ok : Bool} {code : ErrorCode} {r : Result} (hc : code ∈ raisedBy i) (hr : Precise i s r) :
    Precise i s (if ok = false then Machine.raise code (encode i) s else r) := by
  cases ok with
  | false => rw [if_pos rfl]; exact .raise hc
  | true => rw [if_neg (by decide)]; exact hr

/-- A RAM loop that is quiet, and a quiet update after it. -/
theorem Precise.filled {r : Except Fault State} {f : State → State} (hr : ∀ u, r = .ok u → Quiet s u)
    (hf : ∀ u, Quiet u (f u)) : Precise i s (outcome (r.map f)) := by
  intro t e
  obtain ⟨u, hu, rfl⟩ := map_ok (outcome_next e)
  exact .inr ((hr u hu).trans (hf u))

end Precise

section Commands
variable (s : State) (v : BitVec 4) (st : BitVec 2)

theorem precise_makeOscillator (kind : VoiceKind) {i : Instr} (hw : wellFormedB i = decide (voiceFieldOk v))
    (hc : .invalidParameter ∈ raisedBy i) : Precise i s (makeOscillator kind i v s) :=
  .onVoice hw fun _ => .checked hc (.checked hc (.next .of_eq))

theorem precise_execOscOff : Precise (.oscOff v) s (execOscOff v s) := .onVoice rfl fun _ => .next .of_eq

theorem precise_execSetFreq : Precise (.setFreq v) s (execSetFreq v s) :=
  .onVoice rfl fun _ => .checked (by simp [raisedBy]) (.checked (by simp [raisedBy]) (.next .of_eq))

theorem precise_execSetGain : Precise (.setGain v) s (execSetGain v s) :=
  .onVoice rfl fun _ => .checked (by simp [raisedBy]) (.next .of_eq)

theorem precise_execRdVoice : Precise (.rdVoice v) s (execRdVoice v s) := .onVoice rfl fun _ => .next .of_eq

theorem precise_execOscKs : Precise (.oscKs v) s (execOscKs v s) :=
  .onVoice rfl fun _ => .checked (by simp [raisedBy]) (.filled (fun _ => quiet_noiseFill _) fun _ => .of_eq)

theorem precise_biquadConstruct (kind : StageKind) {i : Instr}
    (hw : wellFormedB i = (decide (voiceFieldOk v) && decide (stageFieldOk st)))
    (hc : .invalidParameter ∈ raisedBy i) : Precise i s (biquadConstruct kind i v st s) :=
  .onStage hw fun _ _ => .checked hc <| by
    split
    · exact .raise hc
    · exact .checked hc (.next .of_eq)

theorem precise_combConstruct (kind : StageKind) {i : Instr}
    (hw : wellFormedB i = (decide (voiceFieldOk v) && decide (stageFieldOk st)))
    (hc : .invalidParameter ∈ raisedBy i) : Precise i s (combConstruct kind i v st s) :=
  .onStage hw fun _ _ => .checked hc (.filled (fun _ => quiet_zeroFill _) fun _ => .of_eq)

theorem precise_execClrSt : Precise (.clrSt v st) s (execClrSt v st s) :=
  .onStage rfl fun u su => by
    dsimp only
    split
    case h_1 => exact .same
    case h_7 => exact .filled (fun _ => quiet_zeroFill _) fun _ => .of_eq
    case h_8 => exact .filled (fun _ => quiet_zeroFill _) fun _ => .of_eq
    all_goals exact .next .of_eq

theorem precise_execBypass : Precise (.bypass v st) s (execBypass v st s) := .onStage rfl fun _ _ => .next .of_eq

theorem precise_execRdCoef : Precise (.rdCoef v st) s (execRdCoef v st s) := .onStage rfl fun _ _ => .next .of_eq

theorem precise_execRdState : Precise (.rdState v st) s (execRdState v st s) := .onStage rfl fun _ _ => .next .of_eq

theorem precise_execRamrd : Precise .ramrd s (execRamrd s) := by
  by_cases h : s.argNat 1 < Config.RAM_WORDS
  · rw [execRamrd_of_lt h]; exact .next .of_eq
  · rw [execRamrd_of_ge (not_lt.mp h), ← raise_eq]; exact .raise (by decide)

theorem precise_execRamwr : Precise .ramwr s (execRamwr s) := by
  by_cases h : s.argNat 1 < Config.RAM_WORDS
  · rw [execRamwr_of_lt h]; exact .next .of_eq
  · rw [execRamwr_of_ge (not_lt.mp h), ← raise_eq]; exact .raise (by decide)

/-- A render of no samples sets PEND_DONE, which is not PEND_ERR. -/
theorem precise_execStart : Precise .start s (execStart s) :=
  .checked (by decide) <| by
    split
    · exact .next ⟨⟨rfl, rfl, rfl⟩, by simp, rfl⟩
    · exact .next .of_eq

theorem precise_execStep (h : s.runState ≠ .running) (n : BitVec 20) : Precise (.step n) s (execStep n s) := by
  have refused : Precise (.step n) s (raise .stateError (encode (.step n)) s) := .raise (by simp [raisedBy])
  unfold execStep
  cases hr : s.runState with
  | idle => exact refused
  | aborted => exact refused
  | running => exact absurd hr h
  | done => dsimp only; rw [sampleSteps_of_not_running h]; exact .same

/-- Every command but SRST and a running STEP is precise. -/
theorem precise_exec {i : Instr} (hsrst : i ≠ .srst) (hstep : ∀ n, i = .step n → s.runState ≠ .running) :
    Precise i s (exec i s) := by
  cases i with
  | nop => exact .same
  | srst => exact absurd rfl hsrst
  | start => exact precise_execStart s
  | step n => exact precise_execStep s (hstep n rfl) n
  | ramrd => exact precise_execRamrd s
  | ramwr => exact precise_execRamwr s
  | oscOff v => exact precise_execOscOff s v
  | oscSine v => exact precise_makeOscillator s v .sine rfl (by simp [raisedBy])
  | oscSquare v => exact precise_makeOscillator s v .square rfl (by simp [raisedBy])
  | oscTriangle v => exact precise_makeOscillator s v .triangle rfl (by simp [raisedBy])
  | oscSawtooth v => exact precise_makeOscillator s v .sawtooth rfl (by simp [raisedBy])
  | oscKs v => exact precise_execOscKs s v
  | setFreq v => exact precise_execSetFreq s v
  | setGain v => exact precise_execSetGain s v
  | rdVoice v => exact precise_execRdVoice s v
  | bypass v st => exact precise_execBypass s v st
  | bqLpf v st => exact precise_biquadConstruct s v st .lpf rfl (by simp [raisedBy])
  | bqHpf v st => exact precise_biquadConstruct s v st .hpf rfl (by simp [raisedBy])
  | bqBpf v st => exact precise_biquadConstruct s v st .bpf rfl (by simp [raisedBy])
  | bqBrf v st => exact precise_biquadConstruct s v st .brf rfl (by simp [raisedBy])
  | bqApf v st => exact precise_biquadConstruct s v st .apf rfl (by simp [raisedBy])
  | comb v st => exact precise_combConstruct s v st .comb rfl (by simp [raisedBy])
  | delay v st => exact precise_combConstruct s v st .delay rfl (by simp [raisedBy])
  | clrSt v st => exact precise_execClrSt s v st
  | rdCoef v st => exact precise_execRdCoef s v st
  | rdState v st => exact precise_execRdState s v st

end Commands

/-- Settles O16: the command is precise. -/
theorem errorsArePrecise : Obligations.ErrorsArePrecise := by
  intro i s t hexec hsrst hstep
  rcases precise_exec s hsrst hstep t hexec with ⟨code, _, ht⟩ | ⟨⟨herr, hovf, hinfo⟩, hpend, _⟩
  · exact .inl ⟨code, ht⟩
  · exact .inr ⟨herr, hovf, hinfo, hpend⟩

/-! ### The error record and the IRQ line over the sample steps of a STEP, in any state -/

/-- Where sample steps from `s` leave the error record and the IRQ line: both as they were, or the render aborted with
NumericOverflow recorded, and the line held if the stream holds a word (R252, R304, R320). -/
def StepEffect (s t : State) : Prop :=
  (t.err = s.err ∧ irqLine t = irqLine s) ∨
    (t.runState = .aborted ∧ t.err = some (s.err.getD .numericOverflow) ∧ (t.stream ≠ [] → irqLine t = irqLine s))

theorem stepEffect_finishSample (q : Int) (s : State) : StepEffect s (finishSample q s) := by
  have hword : (finishSample q s).stream ≠ [] := by simp [finishSample_eq]
  refine .inl ⟨by rw [finishSample_eq], ?_⟩
  rw [irqLine_of_stalled hword, finishSample_eq]

theorem stepEffect_overflowSample (w : CmdWord) (s : State) : StepEffect s (overflowSample w s) := by
  refine .inr ⟨by simp [overflowSample], recordError_err _ _ _, fun hword => ?_⟩
  have hword' : s.stream ≠ [] := by simpa [overflowSample] using hword
  rw [irqLine_of_stalled hword, irqLine_of_stalled hword']
  simp [overflowSample]

theorem stepEffect_sampleStep {w : CmdWord} {s t : State} (h : sampleStep w s = .ok t) : StepEffect s t := by
  obtain ⟨⟨m, u⟩, hmix, rfl⟩ := map_ok h
  have hu := mixSample_frame hmix
  have hstart : ∀ r, StepEffect u r → StepEffect s r := by
    intro r hr
    rw [hu] at hr
    exact hr
  dsimp only
  split
  · exact hstart _ (stepEffect_finishSample _ u)
  · exact hstart _ (stepEffect_overflowSample w u)

theorem stepEffect_sampleSteps {w : CmdWord} (k : Nat) : ∀ {s t : State}, sampleSteps w k s = .ok t →
    StepEffect s t := by
  have stay {k : Nat} {s t : State} (hs : s.runState ≠ .running) (h : sampleSteps w k s = .ok t) : t = s :=
    (Except.ok.inj ((sampleSteps_of_not_running hs w k).symm.trans h)).symm
  induction k with
  | zero => intro s t h; cases h; exact .inl ⟨rfl, rfl⟩
  | succ k ih =>
    intro s t h
    by_cases hs : s.runState = .running
    · rw [sampleSteps_of_running hs] at h
      obtain ⟨r, hstep, hrest⟩ := bind_ok h
      rcases stepEffect_sampleStep hstep with ⟨herr, hline⟩ | ⟨haborted, hrecord⟩
      · have heffect := ih hrest
        unfold StepEffect at heffect ⊢
        rwa [herr, hline] at heffect
      · obtain rfl := stay (by rw [haborted]; decide) hrest
        exact .inr ⟨haborted, hrecord⟩
    · obtain rfl := stay hs h
      exact .inl ⟨rfl, rfl⟩

/-! ### The errors of the table (60_exceptions.md R301, R302) -/

theorem malformedEventStream_not_raised (i : Instr) : .malformedEventStream ∉ raisedBy i := by
  cases i <;> simp [raisedBy]

/-- An error that a well-formed command records in an empty record is one that R301 lists for it. -/
theorem mem_raisedBy_of_exec {i : Instr} {s t : State} {e : ErrorCode} (hi : WellFormed i) (hexec : exec i s = .next t)
    (hs : s.err = none) (ht : t.err = some e) : e ∈ raisedBy i := by
  by_cases hstep : ∃ n, i = .step n ∧ s.runState = .running
  · obtain ⟨n, rfl, hrun⟩ := hstep
    have hsteps := outcome_next ((execStep_of_render (.inl hrun) n).symm.trans hexec)
    rcases stepEffect_sampleSteps _ hsteps with ⟨herr, _⟩ | ⟨_, herr, _⟩
    · cases ht.symm.trans (herr.trans hs)
    · rw [hs] at herr
      cases ht.symm.trans herr
      simp [raisedBy]
  · by_cases hsrst : i = .srst
    · subst hsrst
      cases hexec
      cases ht
    · have hprecise := precise_exec s hsrst fun n h hrun => hstep ⟨n, h, hrun⟩
      rcases hprecise t hexec with ⟨code, hc, rfl⟩ | ⟨⟨herr, _, _⟩, _, _⟩
      · obtain ⟨herr, _⟩ := recorded_of_none hs code (encode i)
        cases ht.symm.trans herr
        exact hc hi
      · cases ht.symm.trans (herr.trans hs)

/-- Settles O17: a write that is illegal records IllegalCommand, and one that decodes does what its command does. -/
theorem onlyListedErrorsAreRaised : Obligations.OnlyListedErrorsAreRaised := by
  intro x s t e hissue hs ht
  obtain ⟨hillegal, hlegal⟩ := illegalWritesRecordIllegalCommand x s
  by_cases hx : illegalWrite x
  · rw [hillegal hx] at hissue
    cases hissue
    obtain ⟨herr, _⟩ := recorded_of_none hs .illegalCommand (BitVec.ofNat 32 x.toNat)
    cases ht.symm.trans herr
    exact ⟨by decide, .inl ⟨hx, rfl⟩⟩
  · obtain ⟨i, hdecode, hi, hexec⟩ := hlegal hx
    have he := mem_raisedBy_of_exec hi (hexec.symm.trans hissue) hs ht
    exact ⟨fun h => malformedEventStream_not_raised i (h ▸ he), .inr ⟨i, hdecode, he⟩⟩

/-! ### The IRQ line (60_exceptions.md R320) -/

theorem pendingEnabled_eq_or (s : State) : pendingEnabled s =
    ((s.irqPend.getLsbD 0 && s.irqEn.getLsbD 0) || (s.irqPend.getLsbD 1 && s.irqEn.getLsbD 1) ||
      (s.irqPend.getLsbD 2 && s.irqEn.getLsbD 2)) := by
  unfold pendingEnabled
  generalize s.irqPend = pend
  generalize s.irqEn = en
  revert pend en
  decide

theorem stream_of_exec {i : Instr} {s t : State} (hi : ∀ n, i ≠ .step n) (h : exec i s = .next t) :
    t.stream = s.stream := by
  by_cases hsrst : i = .srst
  · subst hsrst; cases h; rfl
  · rcases precise_exec s hsrst (fun n e => absurd e (hi n)) t h with ⟨_, _, rfl⟩ | hquiet
    · rfl
    · exact hquiet.stream

theorem irqLine_of_execStep {n : BitVec 20} {s t : State} (h : execStep n s = .next t) (ht : t.stream ≠ []) :
    irqLine t = irqLine s := by
  by_cases hs : s.runState = .idle ∨ s.runState = .aborted
  · rw [execStep_of_no_render hs] at h
    cases h
    exact (irqLine_of_stalled ht).trans (irqLine_of_stalled (s := s) ht).symm
  · have hs' : s.runState = .running ∨ s.runState = .done := by revert hs; cases s.runState <;> decide
    have hsteps := outcome_next ((execStep_of_render hs' n).symm.trans h)
    rcases stepEffect_sampleSteps _ hsteps with ⟨_, hline⟩ | ⟨_, _, hline⟩
    · exact hline
    · exact hline ht

/-- An offer changes neither the pending bits nor the level held, so the last word taken lets the line's new value out. -/
theorem irqLine_sinkTurn {s : State} (hs : s.stream ≠ []) :
    irqLine (sinkTurn s) = if (sinkTurn s).stream = [] then pendingEnabled s else irqLine s := by
  rw [irqLine_of_stalled hs]
  conv_lhs => rw [sinkTurn_frame]
  rfl

theorem irqLine_of_offer {s t : State} (hpin : resetAsserted s = false) (hs : s.stream ≠ []) (h : step s = .next t) :
    irqLine t = if t.stream = [] then pendingEnabled s else irqLine s := by
  rw [step_stream hpin hs] at h
  cases h
  exact irqLine_sinkTurn (s := { s with resetPin := s.resetPin.tail }) hs

/-- The power-on reset is the soft reset of a block with no word written and an empty stream. -/
theorem powerOnReset_eq_softReset (s : State) :
    powerOnReset s = softReset { s with ram := [], stream := [], powerOns := s.powerOns + 1 } := rfl

theorem reset_eq_softReset : State.reset = softReset State.reset := rfl

theorem irqLine_softReset (s : State) : irqLine (softReset s) = false := by
  have hpend : pendingEnabled (softReset s) = false := by simp [pendingEnabled, softReset, State.reset]
  unfold irqLine
  split
  · exact hpend
  · rfl

/-- Settles O10: the formula bit by bit; the commands but STEP by their preciseness; a STEP by its sample steps; an offer
by what it changes. -/
theorem irqLineIsOrOfEnabledPending : Obligations.IrqLineIsOrOfEnabledPending := by
  refine ⟨fun s hs => ?empty, fun i s t hi h => stream_of_exec hi h, fun n s t h ht => irqLine_of_execStep h ht,
    fun s t hpin hs h => ?offer, fun s => ⟨irqLine_softReset s, ?powerOn, ?atReset⟩⟩
  case empty => rw [irqLine_of_empty hs, pendingEnabled_eq_or]
  case offer => rw [irqLine_of_offer hpin hs h, pendingEnabled_eq_or]
  case powerOn => rw [powerOnReset_eq_softReset]; exact irqLine_softReset _
  case atReset => rw [reset_eq_softReset]; exact irqLine_softReset _

/-! ### A block that never stops (60_exceptions.md R300) -/

/-- The invariant holds along every run, so no step of it stops. -/
theorem safe_run (k : Nat) : ∀ {s : State}, Inv s → Safe (core.run k s) := by
  induction k with
  | zero => exact fun h => .next h
  | succ k ih =>
    intro s h
    obtain ⟨t, hstep, ht⟩ := safe_step h
    rw [run_succ hstep]
    exact ih ht

/-- Settles O21: no clause of the invariant reads the three scripts. -/
theorem noHostScriptStopsTheBlock : Obligations.NoHostScriptStopsTheBlock := by
  intro q sc ready pin k
  obtain ⟨t, hrun, _⟩ := safe_run k (resetMeetsInvariant.of_env
    (t := { State.reset with hostQueue := q, sinkScript := sc, sinkRest := ready, resetPin := pin }) rfl)
  exact ⟨t, hrun⟩

end Sys2Proof.Machine
end

section
/-! PROOFS of the statements of 70_reset_and_hazards.md: what the resets set (R340), the reset input (R341), and the port
held while the stream holds a word (R356). -/

namespace Sys2Proof.Machine

/-! ### The resets (70_reset_and_hazards.md R340, R341) -/

theorem softReset_arg (s : State) (k : Fin 8) : (softReset s).p[k.val] = 0 := Vector.getElem_replicate k.isLt

/-- Settles O11: each of the three states is the soft reset of some state. -/
theorem resetSetsEveryRegister : Obligations.ResetSetsEveryRegister := by
  intro s t ht
  obtain ⟨u, rfl⟩ : ∃ u, t = softReset u := by
    rcases ht with rfl | rfl | rfl
    exacts [⟨_, rfl⟩, ⟨_, powerOnReset_eq_softReset s⟩, ⟨_, reset_eq_softReset⟩]
  refine ⟨softReset_arg u, ⟨rfl, rfl, rfl, rfl, rfl, rfl⟩, ⟨rfl, rfl, rfl, rfl, rfl⟩, ⟨rfl, rfl⟩, ⟨rfl, rfl, rfl, rfl⟩,
    voice_reset, stage_reset, ⟨irqLine_softReset u, rfl⟩, fun h => ?soft, fun h => ?powerOn⟩
  case soft => rw [h]; exact ⟨fun _ => rfl, rfl⟩
  case powerOn => rw [h]; exact ⟨fun _ => rfl, rfl⟩

/-- Settles O12: the reset keeps the host's transactions, its replies and the rest of the reset input's script. -/
theorem resetInputResetsAndHoldsPort : Obligations.ResetInputResetsAndHoldsPort := by
  intro s rest hpin
  have hstep := step_reset (s := s) (by simp [resetAsserted, hpin])
  rw [hpin] at hstep
  exact ⟨_, hstep, rfl, rfl, rfl, rfl⟩

/-! ### The port held by the stream (70_reset_and_hazards.md R356) -/

/-- A ready sink takes exactly the oldest word. -/
theorem sinkTurn_takes {s : State} (hs : s.stream ≠ []) (h : sinkReady s = true) :
    ∃ x, s.stream = x :: (sinkTurn s).stream ∧ (sinkTurn s).accepted = s.accepted ++ [x] := by
  obtain ⟨x, xs, hx⟩ := List.exists_cons_of_ne_nil hs
  rw [sinkTurn_ready h, hx]
  exact ⟨x, rfl, rfl⟩

theorem sinkTurn_holds {s : State} (h : sinkReady s = false) :
    (sinkTurn s).stream = s.stream ∧ (sinkTurn s).accepted = s.accepted := by
  rw [sinkTurn_busy h]; exact ⟨rfl, rfl⟩

/-- Settles O13: the step is one offer. -/
theorem streamHoldsPortUntilSinkAccepts : Obligations.StreamHoldsPortUntilSinkAccepts := fun s hpin hs =>
  ⟨_, step_stream hpin hs, sinkTurn_frame _, sinkTurn_takes (s := { s with resetPin := s.resetPin.tail }) hs,
    sinkTurn_holds (s := { s with resetPin := s.resetPin.tail })⟩

/-! ### The stream drained (70_reset_and_hazards.md R356, R360) -/

/-- `s` once the sink has taken every word, `sc` left of its script. -/
def drained (s : State) (sc : List Bool) : State :=
  { s with stream := [], accepted := s.accepted ++ s.stream, sinkScript := sc }

theorem drained_of_empty {s : State} (h : s.stream = []) : drained s s.sinkScript = s := by
  rw [drained, h, List.append_nil, ← h]

/-- An offer moves a word from one list to the other, or none, and keeps their order. -/
theorem drained_sinkTurn (s : State) (sc : List Bool) : drained (sinkTurn s) sc = drained s sc := by
  cases h : sinkReady s with
  | true => rw [sinkTurn_ready h, drained, drained, List.append_assoc, List.take_append_drop]
  | false => rw [sinkTurn_busy h]; rfl

/-- Each offer uses an entry of the script or moves a word, when the sink is ready after its script. -/
theorem sinkTurn_shortens {s : State} (hrest : s.sinkRest = true) (hs : s.stream ≠ []) :
    (sinkTurn s).sinkScript.length + (sinkTurn s).stream.length < s.sinkScript.length + s.stream.length := by
  have hpos := List.length_pos_iff.mpr hs
  cases h : sinkReady s with
  | true =>
    rw [sinkTurn_ready h]
    simp only [List.length_tail, List.length_drop]
    omega
  | false =>
    have hscript : s.sinkScript ≠ [] := fun e => by simp [sinkReady, e, hrest] at h
    have := List.length_pos_iff.mpr hscript
    rw [sinkTurn_busy h]
    simp only [List.length_tail]
    omega

theorem step_offer {s : State} (hpin : s.resetPin = []) (hs : s.stream ≠ []) : step s = .next (sinkTurn s) := by
  have htail : s.resetPin.tail = s.resetPin := by rw [hpin]; rfl
  rw [step_stream (by simp [resetAsserted, hpin]) hs, htail]

theorem run_drains (n : Nat) : ∀ {s : State}, s.resetPin = [] → s.sinkRest = true →
    s.sinkScript.length + s.stream.length ≤ n → ∃ k sc, k ≤ n ∧ core.run k s = .next (drained s sc) := by
  have empty {n : Nat} {s : State} (h : s.stream = []) : ∃ k sc, k ≤ n ∧ core.run k s = .next (drained s sc) :=
    ⟨0, s.sinkScript, Nat.zero_le n, by rw [drained_of_empty h]; rfl⟩
  induction n with
  | zero => exact fun _ _ hn => empty (List.length_eq_zero_iff.mp (by omega))
  | succ n ih =>
    intro s hpin hrest hn
    by_cases hs : s.stream = []
    · exact empty hs
    · have hless := sinkTurn_shortens hrest hs
      have hpin' : (sinkTurn s).resetPin = [] := by rw [sinkTurn_frame]; exact hpin
      have hrest' : (sinkTurn s).sinkRest = true := by rw [sinkTurn_frame]; exact hrest
      obtain ⟨k, sc, hk, hrun⟩ := ih hpin' hrest' (by omega)
      exact ⟨k + 1, sc, Nat.succ_le_succ hk, by rw [run_succ (step_offer hpin hs), hrun, drained_sinkTurn]⟩

/-- Settles O14, by induction on the entries and words left: each step uses one at least. -/
theorem readySinkEmptiesStream : Obligations.ReadySinkEmptiesStream := fun _ hpin hrest =>
  run_drains _ hpin hrest (le_refl _)

end Sys2Proof.Machine
end
